-- ==== Sys2Proof/Word.lean ====
section
/-! DEFINITION. The value types every other file uses: numbers, channel indices, bytes, words. -/

namespace Sys2Proof

/-- The type `Num` of 00_scope R9: every engineering-unit and controller value is an exact rational. -/
abbrev Number := Rat

/-- The 4-bit channel index of a command header (30_encoding R80). -/
abbrev Chan := Fin 16

abbrev Byte := BitVec 8

/-- A command header, an exception-data word or a register's raw value. -/
abbrev Word16 := BitVec 16

/-- The low byte of a word, bits 7:0 (20_memory R63). -/
def lowByte (w : Word16) : Byte := w.setWidth 8

/-- The high byte of a word, bits 15:8 (20_memory R63). -/
def highByte (w : Word16) : Byte := (w >>> 8).setWidth 8

end Sys2Proof
end

