-- ==== Sys2Proof/Config.lean ====
section
/-! DEFINITION. The configuration record CFG of 00_scope R6 as plain data, the free values, and the
configuration the reset state is built from (notes/assumptions 1, 2, 3, 8). -/

namespace Sys2Proof

/-- An origin (deviceIndex, localMotorIndex), 42_fault R161. -/
structure Origin where
  dev : BitVec 4
  mot : BitVec 4
  deriving DecidableEq, Repr

/-- The role of a channel, 44_variants. -/
inductive Role where
  | position
  | speed
  deriving DecidableEq, Repr

/-- The drive state a fault forces, CFG.FAULT_STOP_STATE (00_scope R6, 90_conflicts C1). -/
inductive FaultStop where
  | stop
  | brake
  deriving DecidableEq, Repr

/-- The two type tags of an ADC registration, 46_adc R230. -/
inductive TypeTag where
  | current
  | position
  deriving DecidableEq, Repr

/-- One ADC registration (adcChannel, typeTag, listener), 46_adc R230. -/
structure AdcReg where
  adcChannel : Nat
  typeTag    : TypeTag
  listener   : Nat
  deriving DecidableEq, Repr

/-- The six PID parameters, 10_state R29. -/
structure PidParams where
  pGain    : Number
  iGain    : Number
  dGain    : Number
  iCap     : Number
  decay    : Number
  deadZone : Number
  deriving DecidableEq, Repr

/-- The parameter a `PidParam` binding names, 40_regport R121. -/
inductive PidParamName where
  | pGain
  | iGain
  | dGain
  | iCap
  | decay
  | deadZone
  deriving DecidableEq, Repr

/-- The binding kinds of a register, 40_regport R121. -/
inductive Binding where
  | faultStatus
  | faultData
  | faultMask
  | faultResetTrigger
  | pidRequired (c : Nat)
  | pidActual (c : Nat)
  | pidParam (c : Nat) (k : PidParamName)
  | motorState (c : Nat)
  | motorControl (c : Nat)
  | motorFiltered (c : Nat)
  | stallEnable (c : Nat)
  | encFreq (c : Nat)
  | encOdometry (c : Nat)
  | plain
  deriving DecidableEq, Repr

/-- A register descriptor of CFG.REGMAP, 40_regport R110. -/
structure RegDesc where
  size     : Nat
  writable : Bool
  min      : Number
  max      : Number
  binding  : Binding
  deriving DecidableEq, Repr

/-- CFG.FMT, the rounding of every stored Number (00_scope R9), as plain data. What each one computes is
`Machine.fmtApply`. `uninterpreted n` is a function of which nothing is known: a statement about every
configuration is one about every FMT (notes/assumptions/3.md). -/
inductive Fmt where
  | identity
  | fixedPoint (fracBits : Nat)
  | binaryFloat (precision : Nat) (minExp : Int)
  | uninterpreted (n : Nat)
  deriving DecidableEq, Repr

/-- The fields of CFG that are indexed by a channel, 00_scope R6. -/
structure ChanCfg where
  role            : Role
  ocThreshold     : Nat
  highControl     : Number
  alphaRise       : Number
  alphaFall       : Number
  stallCtrl       : Number
  stallSpeedEps   : Number
  iZero           : Nat
  iNominal        : Nat
  stallDebounce   : Nat
  pidInit         : PidParams
  calMin          : Nat
  calMax          : Nat
  engMin          : Number
  engMax          : Number
  encReverseLevel : Bool
  encWindowUs     : Nat
  deriving DecidableEq, Repr

/-- The configuration record CFG, 00_scope R6. NCH is the length of `chan` (`Config.nch`) and NREG the
length of `regmap` (`Config.nreg`). -/
structure Config where
  deviceIndex    : BitVec 4
  chan           : List ChanCfg
  maxDuty        : Nat
  faultStopState : FaultStop
  encCntW        : Nat
  odoW           : Nat
  timeW          : Nat
  adcRawMax      : Nat
  adcTable       : List AdcReg
  adcDelay       : Nat
  bootOrigin     : Origin
  regmap         : List RegDesc
  fmt            : Fmt
  deriving DecidableEq, Repr

/-- NCH, the number of channels. -/
def Config.nch (cfg : Config) : Nat := cfg.chan.length

/-- NREG, 40_regport R111. -/
def Config.nreg (cfg : Config) : Nat := cfg.regmap.length

/-- The uninterpreted roundings that `Fmt.uninterpreted` names (notes/assumptions/3.md). -/
opaque Config.fmtUninterpreted : Nat → Number → Number

/-- The free values of the fault mask: what a write of a 2-byte FaultMask register leaves in the 8-bit
mask when the value written does not fit it (notes/assumptions/8.md). -/
opaque Config.freeMask : Nat → Byte

/-- One channel of the reset configuration: the values of 95_test_vectors sections 2.3 to 2.6
(DESIGN CHOICE, notes/assumptions/2.md). -/
def ChanCfg.standard (role : Role) : ChanCfg where
  role := role
  ocThreshold := 800
  highControl := 50
  alphaRise := 1/2
  alphaFall := 1/4
  stallCtrl := 20
  stallSpeedEps := 1/2
  iZero := 50
  iNominal := 300
  stallDebounce := 2
  pidInit := ⟨2, 1/2, 1, 5, 1, 1/4⟩
  calMin := 100
  calMax := 900
  engMin := -90
  engMax := 90
  encReverseLevel := true
  encWindowUs := 100000

/-- The register table of 95_test_vectors section 2.8. -/
def Config.standardRegmap : List RegDesc :=
  [⟨1, false, 0, 255, .faultStatus⟩,
   ⟨2, false, 0, 65535, .faultData⟩,
   ⟨1, true, 0, 255, .faultMask⟩,
   ⟨2, true, -100, 100, .pidRequired 0⟩,
   ⟨1, true, 0, 255, .faultResetTrigger⟩,
   ⟨1, true, 0, 255, .plain⟩,
   ⟨2, true, 0, 65535, .encOdometry 0⟩,
   ⟨1, false, 0, 10, .pidActual 0⟩]

/-- The configuration State.reset is built from. MAX_DUTY, FAULT_STOP_STATE, ENC_REVERSE_LEVEL, the widths,
ADC_RAW_MAX, BOOT_ORIGIN and FMT are the defaults of 00_scope R6; the OPEN fields are the model's choice
(DESIGN CHOICE, notes/assumptions/2.md). -/
def Config.standard : Config where
  deviceIndex := 0
  chan := List.replicate 8 (ChanCfg.standard .position) ++ List.replicate 8 (ChanCfg.standard .speed)
  maxDuty := 255
  faultStopState := .stop
  encCntW := 32
  odoW := 32
  timeW := 32
  adcRawMax := 1024
  adcTable := [⟨3, .current, 0⟩, ⟨4, .position, 1⟩]
  adcDelay := 0
  bootOrigin := ⟨0, 0⟩
  regmap := Config.standardRegmap
  fmt := .identity

end Sys2Proof
end

