-- ==== Sys2Proof/Syntax.lean ====
section
/-! DEFINITION. The commands: one constructor of `Instr` per row of spec/opcode_table.json, the command as
it is presented on the port, the reasons of a refusal and the pseudo-commands. -/

namespace Sys2Proof

/-- The seven fault types that can be latched, 42_fault R160. Codes 0 and 8..255 name none. -/
inductive FaultType where
  | boot
  | overcurrent
  | short
  | stall
  | encoderFault
  | driveFault
  | remote
  deriving DecidableEq, Repr

/-- A command with its operands, 30_encoding R85. -/
inductive Instr where
  | fltRaise (type : FaultType) (dev mot : BitVec 4)
  | fltReset
  | fltSetmask (mask : Byte)
  | fltRdmask
  | fltRdstatus
  | fltRddata
  | motSetspeed (c : Chan) (v : Number)
  | motSetcurrent (c : Chan) (raw : Nat)
  | motSetstallen (c : Chan) (en : Bool)
  | motRdstate (c : Chan)
  | pidSetreq (c : Chan) (v : Number)
  | pidSetparams (c : Chan) (pGain iGain dGain iCap decay deadZone : Number)
  | pidTick (c : Chan) (now : Nat)
  | pidRdsnap (c : Chan)
  | posSample (c : Chan) (raw : Nat)
  | encEdge (c : Chan) (level : Bool)
  | encPoll (c : Chan) (now : Nat)
  | encOdoreset (c : Chan)
  | encRdfreq (c : Chan)
  | adcPoll (done : Bool) (raw : Nat)
  | regRead (id : Byte)
  | regWrite (id : Byte) (raw : Word16)
  deriving DecidableEq, Repr

/-- A command as an agent presents it: the 16-bit header and the operand values (30_encoding R80, R83).
An operand value is a number; which numbers an operand may be is its type's range, checked on decoding. -/
structure Command where
  header   : Word16
  operands : List Number
  deriving DecidableEq, Repr

/-- The reasons a command is refused, 30_encoding R87. -/
inductive DecodeRefusal where
  | reservedBits
  | unknownOpcode
  | channelOnGlobal
  | noSuchChannel
  | badOperand
  | badFaultType
  | badParam
  deriving DecidableEq, Repr

/-- The pseudo-commands, 30_encoding R91. -/
inductive Pseudo where
  | motStop (c : Chan)
  | fltEnableall
  | encEdges (c : Chan) (k : Nat) (level : Bool)
  | adcIdle
  deriving DecidableEq, Repr

end Sys2Proof
end

