-- ==== Sys2Proof/WellFormed.lean ====
section
/-! DEFINITION. Which configurations a block can be built from (00_scope R6, R7; 40_regport R110, R121) and
which commands a block of a configuration accepts (30_encoding R83, R87). -/

namespace Sys2Proof

/-- The ranges of the channel-indexed fields, 00_scope R6 and R7. -/
abbrev ChanCfg.WellFormed (adcRawMax timeW : Nat) (k : ChanCfg) : Prop :=
  k.ocThreshold ≤ adcRawMax ∧
  0 ≤ k.highControl ∧
  (0 ≤ k.alphaRise ∧ k.alphaRise ≤ 1) ∧
  (0 ≤ k.alphaFall ∧ k.alphaFall ≤ 1) ∧
  0 ≤ k.stallCtrl ∧
  0 < k.stallSpeedEps ∧
  (k.iZero ≤ k.iNominal ∧ k.iNominal ≤ adcRawMax) ∧
  (0 ≤ k.pidInit.iCap ∧ 0 ≤ k.pidInit.deadZone) ∧
  (k.calMin ≤ adcRawMax ∧ k.calMax ≤ adcRawMax ∧ k.calMin ≠ k.calMax) ∧
  (1 ≤ k.encWindowUs ∧ k.encWindowUs ≤ 2 ^ timeW - 1)

/-- An ADC registration names an analog input in 0..15 and a channel of the block, 46_adc R230. -/
abbrev AdcReg.WellFormed (nch : Nat) (e : AdcReg) : Prop :=
  e.adcChannel < 16 ∧ e.listener < nch

/-- The bindings marked *raw* in 40_regport R121. -/
def Binding.isRaw : Binding → Bool
  | .faultStatus | .faultData | .faultMask | .faultResetTrigger => true
  | .motorState _ | .stallEnable _ | .encOdometry _ | .plain => true
  | .pidRequired _ | .pidActual _ | .pidParam _ _ => false
  | .motorControl _ | .motorFiltered _ | .encFreq _ => false

/-- The bindings marked "must be read-only" in 40_regport R121. -/
def Binding.readOnly : Binding → Bool
  | .faultStatus | .faultData | .pidActual _ | .motorState _ => true
  | .motorControl _ | .motorFiltered _ | .encFreq _ => true
  | .faultMask | .faultResetTrigger | .pidRequired _ | .pidParam _ _ => false
  | .stallEnable _ | .encOdometry _ | .plain => false

/-- The channel a channel-indexed binding names. -/
def Binding.channel? : Binding → Option Nat
  | .pidRequired c | .pidActual c | .pidParam c _ | .motorState c => some c
  | .motorControl c | .motorFiltered c | .stallEnable c | .encFreq c | .encOdometry c => some c
  | .faultStatus | .faultData | .faultMask | .faultResetTrigger | .plain => none

/-- The bindings whose domain may not reach below 0, 40_regport R110. -/
def Binding.nonNegative : Binding → Bool
  | .pidParam _ .iCap | .pidParam _ .deadZone => true
  | _ => false

/-- The well-formedness of one descriptor, 40_regport R110 and R121. -/
abbrev RegDesc.WellFormed (nch : Nat) (d : RegDesc) : Prop :=
  (d.size = 1 ∨ d.size = 2) ∧
  d.min < d.max ∧
  (d.binding.isRaw = true → d.min = 0 ∧ d.max = (2 ^ (8 * d.size) - 1 : Number)) ∧
  (d.binding.channel?.all (· < nch) = true) ∧
  (d.binding.nonNegative = true → 0 ≤ d.min) ∧
  (d.binding.readOnly = true → d.writable = false)

/-- A well-formed configuration, 00_scope R7 and 40_regport R110. -/
abbrev Config.WellFormed (cfg : Config) : Prop :=
  (1 ≤ cfg.nch ∧ cfg.nch ≤ 16) ∧
  1 ≤ cfg.maxDuty ∧
  (8 ≤ cfg.encCntW ∧ cfg.encCntW ≤ 32) ∧
  (8 ≤ cfg.odoW ∧ cfg.odoW ≤ 32) ∧
  (16 ≤ cfg.timeW ∧ cfg.timeW ≤ 32) ∧
  1 ≤ cfg.adcRawMax ∧
  (∀ k ∈ cfg.chan, k.WellFormed cfg.adcRawMax cfg.timeW) ∧
  (cfg.adcTable.length ≤ 8 ∧ ∀ e ∈ cfg.adcTable, e.WellFormed cfg.nch) ∧
  (cfg.nreg ≤ 256 ∧ ∀ d ∈ cfg.regmap, d.WellFormed cfg.nch) ∧
  (∃ d ∈ cfg.regmap, d.binding = .faultStatus) ∧
  (∃ d ∈ cfg.regmap, d.binding = .faultData)

/-- The commands a block of configuration `cfg` accepts: the channel exists and every operand is in its
type's range (30_encoding R83, R87). The widths of `u<N>` and `bit` operands and the seven fault types are
in the types of `Instr` itself. -/
def Instr.wellFormed (cfg : Config) : Instr → Bool
  | .fltRaise _ _ _ | .fltReset | .fltSetmask _ | .fltRdmask | .fltRdstatus | .fltRddata => true
  | .motSetspeed c _ => decide (c.val < cfg.nch)
  | .motSetcurrent c raw => decide (c.val < cfg.nch ∧ raw ≤ cfg.adcRawMax)
  | .motSetstallen c _ => decide (c.val < cfg.nch)
  | .motRdstate c => decide (c.val < cfg.nch)
  | .pidSetreq c _ => decide (c.val < cfg.nch)
  | .pidSetparams c _ _ _ iCap _ deadZone => decide (c.val < cfg.nch ∧ 0 ≤ iCap ∧ 0 ≤ deadZone)
  | .pidTick c now => decide (c.val < cfg.nch ∧ now < 2 ^ cfg.timeW)
  | .pidRdsnap c => decide (c.val < cfg.nch)
  | .posSample c raw => decide (c.val < cfg.nch ∧ raw ≤ cfg.adcRawMax)
  | .encEdge c _ => decide (c.val < cfg.nch)
  | .encPoll c now => decide (c.val < cfg.nch ∧ now < 2 ^ cfg.timeW)
  | .encOdoreset c => decide (c.val < cfg.nch)
  | .encRdfreq c => decide (c.val < cfg.nch)
  | .adcPoll _ raw => decide (raw ≤ cfg.adcRawMax)
  | .regRead _ | .regWrite _ _ => true

abbrev Instr.WellFormed (cfg : Config) (i : Instr) : Prop := i.wellFormed cfg = true

end Sys2Proof
end

