-- ==== Sys2Proof/Decode.lean ====
section
/-! DEFINITION. The opcode map, the decoder of 30_encoding R87 (total; every refusal by name), the encoder, the
pseudo-commands and the reading of an opcode-table word. -/

namespace Sys2Proof

/-! ### Fault type codes, 42_fault R160 -/

def FaultType.code : FaultType → Byte
  | .boot => 1
  | .overcurrent => 2
  | .short => 3
  | .stall => 4
  | .encoderFault => 5
  | .driveFault => 6
  | .remote => 7

def FaultType.all : List FaultType :=
  [.boot, .overcurrent, .short, .stall, .encoderFault, .driveFault, .remote]

/-- The type a code names; none for 0 and 8..255. -/
def FaultType.ofCode (n : Nat) : Option FaultType := FaultType.all.find? fun t => t.code.toNat == n

/-! ### The opcode map, 30_encoding R80 to R85 -/

/-- The rows of the opcode map. -/
inductive Op where
  | fltRaise | fltReset | fltSetmask | fltRdmask | fltRdstatus | fltRddata
  | motSetspeed | motSetcurrent | motSetstallen | motRdstate
  | pidSetreq | pidSetparams | pidTick | pidRdsnap
  | posSample
  | encEdge | encPoll | encOdoreset | encRdfreq
  | adcPoll
  | regRead | regWrite
  deriving DecidableEq, Repr

/-- The two formats, 30_encoding R81. -/
inductive Format where
  | global
  | channel
  deriving DecidableEq, Repr

/-- The operand types, 30_encoding R83. -/
inductive OperandType where
  | u (bits : Nat)
  | bit
  | raw
  | time
  | num
  | ftype
  deriving DecidableEq, Repr

def Op.all : List Op :=
  [.fltRaise, .fltReset, .fltSetmask, .fltRdmask, .fltRdstatus, .fltRddata,
   .motSetspeed, .motSetcurrent, .motSetstallen, .motRdstate,
   .pidSetreq, .pidSetparams, .pidTick, .pidRdsnap,
   .posSample,
   .encEdge, .encPoll, .encOdoreset, .encRdfreq,
   .adcPoll,
   .regRead, .regWrite]

/-- The OP field of a row, 30_encoding R85. -/
def Op.code : Op → Byte
  | .fltRaise => 0x10
  | .fltReset => 0x11
  | .fltSetmask => 0x12
  | .fltRdmask => 0x13
  | .fltRdstatus => 0x14
  | .fltRddata => 0x15
  | .motSetspeed => 0x20
  | .motSetcurrent => 0x21
  | .motSetstallen => 0x22
  | .motRdstate => 0x23
  | .pidSetreq => 0x30
  | .pidSetparams => 0x31
  | .pidTick => 0x32
  | .pidRdsnap => 0x33
  | .posSample => 0x40
  | .encEdge => 0x50
  | .encPoll => 0x51
  | .encOdoreset => 0x52
  | .encRdfreq => 0x53
  | .adcPoll => 0x60
  | .regRead => 0x70
  | .regWrite => 0x71

def Op.format : Op → Format
  | .fltRaise | .fltReset | .fltSetmask | .fltRdmask | .fltRdstatus | .fltRddata => .global
  | .motSetspeed | .motSetcurrent | .motSetstallen | .motRdstate => .channel
  | .pidSetreq | .pidSetparams | .pidTick | .pidRdsnap => .channel
  | .posSample => .channel
  | .encEdge | .encPoll | .encOdoreset | .encRdfreq => .channel
  | .adcPoll => .global
  | .regRead | .regWrite => .global

def Op.operandTypes : Op → List OperandType
  | .fltRaise => [.ftype, .u 4, .u 4]
  | .fltReset => []
  | .fltSetmask => [.u 8]
  | .fltRdmask => []
  | .fltRdstatus => []
  | .fltRddata => []
  | .motSetspeed => [.num]
  | .motSetcurrent => [.raw]
  | .motSetstallen => [.bit]
  | .motRdstate => []
  | .pidSetreq => [.num]
  | .pidSetparams => [.num, .num, .num, .num, .num, .num]
  | .pidTick => [.time]
  | .pidRdsnap => []
  | .posSample => [.raw]
  | .encEdge => [.bit]
  | .encPoll => [.time]
  | .encOdoreset => []
  | .encRdfreq => []
  | .adcPoll => [.bit, .raw]
  | .regRead => [.u 8]
  | .regWrite => [.u 8, .u 16]

/-- The mask of a row: all 16 bits for format G, bits 11:0 for format C (30_encoding R81). -/
def Op.mask (o : Op) : Word16 :=
  match o.format with
  | .global => 0xFFFF
  | .channel => 0x0FFF

/-- The match word of a row, `0x00OP`. -/
def Op.matchWord (o : Op) : Word16 := o.code.setWidth 16

def Op.ofCode (b : Byte) : Option Op := Op.all.find? fun o => o.code == b

/-! ### Header fields, 30_encoding R80 -/

/-- CH, bits 15:12. -/
def headerChan (h : Word16) : Chan := Fin.ofNat 16 (h.extractLsb' 12 4).toNat

/-- RSV, bits 11:8. -/
def headerRsv (h : Word16) : BitVec 4 := h.extractLsb' 8 4

/-- OP, bits 7:0. -/
def headerOp (h : Word16) : Byte := lowByte h

/-! ### Operand ranges, 30_encoding R83 -/

/-- The numbers a non-`num` operand may be are the integers from 0 below this bound. -/
def OperandType.bound (cfg : Config) : OperandType → Option Nat
  | .u bits => some (2 ^ bits)
  | .bit => some 2
  | .raw => some (cfg.adcRawMax + 1)
  | .time => some (2 ^ cfg.timeW)
  | .num => none
  | .ftype => some 256

def OperandType.admits (cfg : Config) (t : OperandType) (v : Number) : Bool :=
  match t.bound cfg with
  | none => true
  | some n => v.den == 1 && decide (0 ≤ v.num) && decide (v.num < (n : Int))

/-- The operands match the row in number and type range. -/
def operandsMatch (cfg : Config) : List OperandType → List Number → Bool
  | [], [] => true
  | t :: ts, v :: vs => t.admits cfg v && operandsMatch cfg ts vs
  | [], _ :: _ => false
  | _ :: _, [] => false

/-- The natural number a non-`num` operand is. -/
def natOf (v : Number) : Nat := v.num.toNat

/-! ### Decoding, 30_encoding R87 -/

/-- The outcome of decoding a command. -/
inductive Decoded where
  | ok (i : Instr)
  | refuse (r : DecodeRefusal)
  deriving DecidableEq, Repr

/-- The command of a row from its channel and its operands, and the two checks of R87 on operand values
(BadFaultType, BadParam). Operands of another number than the row's do not match it. -/
def Op.build (o : Op) (c : Chan) (vs : List Number) : Decoded :=
  match o, vs with
  | .fltRaise, [t, d, m] =>
    match FaultType.ofCode (natOf t) with
    | some ty => .ok (.fltRaise ty (BitVec.ofNat 4 (natOf d)) (BitVec.ofNat 4 (natOf m)))
    | none => .refuse .badFaultType
  | .fltReset, [] => .ok .fltReset
  | .fltSetmask, [m] => .ok (.fltSetmask (BitVec.ofNat 8 (natOf m)))
  | .fltRdmask, [] => .ok .fltRdmask
  | .fltRdstatus, [] => .ok .fltRdstatus
  | .fltRddata, [] => .ok .fltRddata
  | .motSetspeed, [v] => .ok (.motSetspeed c v)
  | .motSetcurrent, [r] => .ok (.motSetcurrent c (natOf r))
  | .motSetstallen, [e] => .ok (.motSetstallen c (natOf e == 1))
  | .motRdstate, [] => .ok (.motRdstate c)
  | .pidSetreq, [v] => .ok (.pidSetreq c v)
  | .pidSetparams, [p, i, d, cap, dec, dz] =>
    if cap < 0 ∨ dz < 0 then .refuse .badParam else .ok (.pidSetparams c p i d cap dec dz)
  | .pidTick, [t] => .ok (.pidTick c (natOf t))
  | .pidRdsnap, [] => .ok (.pidRdsnap c)
  | .posSample, [r] => .ok (.posSample c (natOf r))
  | .encEdge, [l] => .ok (.encEdge c (natOf l == 1))
  | .encPoll, [t] => .ok (.encPoll c (natOf t))
  | .encOdoreset, [] => .ok (.encOdoreset c)
  | .encRdfreq, [] => .ok (.encRdfreq c)
  | .adcPoll, [d, r] => .ok (.adcPoll (natOf d == 1) (natOf r))
  | .regRead, [n] => .ok (.regRead (BitVec.ofNat 8 (natOf n)))
  | .regWrite, [n, r] => .ok (.regWrite (BitVec.ofNat 8 (natOf n)) (BitVec.ofNat 16 (natOf r)))
  | _, _ => .refuse .badOperand

/-- `decode(h, operands)` of 30_encoding R87, its tests in the order written there. -/
def decode (cfg : Config) (cmd : Command) : Decoded :=
  if headerRsv cmd.header ≠ 0 then .refuse .reservedBits
  else
    match Op.ofCode (headerOp cmd.header) with
    | none => .refuse .unknownOpcode
    | some o =>
      if o.format = .global ∧ headerChan cmd.header ≠ 0 then .refuse .channelOnGlobal
      else if o.format = .channel ∧ cfg.nch ≤ (headerChan cmd.header).val then .refuse .noSuchChannel
      else if operandsMatch cfg o.operandTypes cmd.operands = false then .refuse .badOperand
      else o.build (headerChan cmd.header) cmd.operands

/-! ### Encoding, from the same map -/

def Instr.op : Instr → Op
  | .fltRaise _ _ _ => .fltRaise
  | .fltReset => .fltReset
  | .fltSetmask _ => .fltSetmask
  | .fltRdmask => .fltRdmask
  | .fltRdstatus => .fltRdstatus
  | .fltRddata => .fltRddata
  | .motSetspeed _ _ => .motSetspeed
  | .motSetcurrent _ _ => .motSetcurrent
  | .motSetstallen _ _ => .motSetstallen
  | .motRdstate _ => .motRdstate
  | .pidSetreq _ _ => .pidSetreq
  | .pidSetparams _ _ _ _ _ _ _ => .pidSetparams
  | .pidTick _ _ => .pidTick
  | .pidRdsnap _ => .pidRdsnap
  | .posSample _ _ => .posSample
  | .encEdge _ _ => .encEdge
  | .encPoll _ _ => .encPoll
  | .encOdoreset _ => .encOdoreset
  | .encRdfreq _ => .encRdfreq
  | .adcPoll _ _ => .adcPoll
  | .regRead _ => .regRead
  | .regWrite _ _ => .regWrite

/-- The CH field of a command: 0 for a global one. -/
def Instr.chan : Instr → Chan
  | .motSetspeed c _ | .motSetcurrent c _ | .motSetstallen c _ | .motRdstate c => c
  | .pidSetreq c _ | .pidSetparams c _ _ _ _ _ _ | .pidTick c _ | .pidRdsnap c => c
  | .posSample c _ => c
  | .encEdge c _ | .encPoll c _ | .encOdoreset c | .encRdfreq c => c
  | .fltRaise _ _ _ | .fltReset | .fltSetmask _ | .fltRdmask | .fltRdstatus | .fltRddata => 0
  | .adcPoll _ _ | .regRead _ | .regWrite _ _ => 0

def bitNum (b : Bool) : Number := if b then 1 else 0

def Instr.operands : Instr → List Number
  | .fltRaise t d m => [(t.code.toNat : Number), (d.toNat : Number), (m.toNat : Number)]
  | .fltSetmask m => [(m.toNat : Number)]
  | .motSetspeed _ v => [v]
  | .motSetcurrent _ r => [(r : Number)]
  | .motSetstallen _ e => [bitNum e]
  | .pidSetreq _ v => [v]
  | .pidSetparams _ p i d cap dec dz => [p, i, d, cap, dec, dz]
  | .pidTick _ t => [(t : Number)]
  | .posSample _ r => [(r : Number)]
  | .encEdge _ l => [bitNum l]
  | .encPoll _ t => [(t : Number)]
  | .adcPoll d r => [bitNum d, (r : Number)]
  | .regRead n => [(n.toNat : Number)]
  | .regWrite n r => [(n.toNat : Number), (r.toNat : Number)]
  | .fltReset | .fltRdmask | .fltRdstatus | .fltRddata => []
  | .motRdstate _ | .pidRdsnap _ | .encOdoreset _ | .encRdfreq _ => []

/-- `(c << 12) | OP`, with c = 0 for a global command (30_encoding section 3). -/
def headerOf (o : Op) (c : Chan) : Word16 := (BitVec.ofNat 16 c.val <<< 12) ||| o.matchWord

def encode (i : Instr) : Command := ⟨headerOf i.op i.chan, i.operands⟩

/-! ### Pseudo-commands, 30_encoding R91 -/

def Pseudo.expand : Pseudo → List Instr
  | .motStop c => [.motSetspeed c 0]
  | .fltEnableall => [.fltSetmask 0]
  | .encEdges c k level => List.replicate k (.encEdge c level)
  | .adcIdle => [.adcPoll false 0]

/-! ### A word of spec/opcode_table.json

The table gives the 16 bits of a header and no operand bits: operands are typed values presented beside it (30_encoding
R83). The command a table word stands for here carries, for every operand of its row, the least value the
table admits: 0, and 1 for the fault type of FLT_RAISE, whose range is 1..7 (notes/assumptions/6.md). -/

def OperandType.least : OperandType → Number
  | .ftype => 1
  | .u _ | .bit | .raw | .time | .num => 0

def commandOfWord (w : Nat) : Command :=
  let h := BitVec.ofNat 16 w
  match Op.ofCode (headerOp h) with
  | some o => ⟨h, o.operandTypes.map OperandType.least⟩
  | none => ⟨h, []⟩

/-- What the decoder of a block of the reset configuration reads from a table word. -/
def decodeTableWord (nbits w : Nat) : Option Instr :=
  if nbits = 16 ∧ w < 2 ^ 16 then
    match decode Config.standard (commandOfWord w) with
    | .ok i => some i
    | .refuse _ => none
  else none

end Sys2Proof
end

