-- ==== Sys2Proof/Machine/State.lean ====
section
/-! DEFINITION. The state of one block (10_state) as plain data, its value after reset (70_reset R280, R281), and
the reasons a step can stop. -/

namespace Sys2Proof.Machine

open Sys2Proof

/-- The drive states, codes 0 to 3 in this order (10_state R27). -/
inductive DriveState where
  | stop
  | brake
  | forward
  | reverse
  deriving DecidableEq, Repr

/-- The two phases of the ADC scheduler (10_state R34). -/
inductive AdcPhase where
  | waiting
  | countdown
  deriving DecidableEq, Repr

/-- The fault register `flt` (10_state R23). -/
structure FaultReg where
  active : Bool
  ftype  : FaultType
  origin : Origin
  mask   : Byte
  deriving DecidableEq, Repr

/-- The motor bank `ch[c]` (10_state R26). -/
structure MotBank where
  state    : DriveState
  control  : Number
  pwm      : Nat
  dirA     : Bool
  dirB     : Bool
  filtered : Number
  lastRaw  : Nat
  stallEn  : Bool
  stallCnt : Nat
  deriving DecidableEq, Repr

/-- The PID bank `pid[c]` (10_state R29); the six parameters are `params`. -/
structure PidBank where
  required   : Number
  actual     : Number
  error      : Number
  integral   : Number
  derivative : Number
  prevActual : Number
  prevTime   : Nat
  output     : Number
  params     : PidParams
  deriving DecidableEq, Repr

/-- The position-variant field `pos[c]` (10_state R31). -/
structure PosBank where
  actual : Number
  deriving DecidableEq, Repr

/-- The encoder front-end `enc[c]` (10_state R32, R33). -/
structure EncBank where
  ticks    : Nat
  negTicks : Nat
  winStart : Nat
  freq     : Number
  odometry : Nat
  deriving DecidableEq, Repr

/-- The ADC scheduler `adc` (10_state R34). -/
structure AdcSched where
  phase : AdcPhase
  cur   : Nat
  cnt   : Nat
  deriving DecidableEq, Repr

/-- The storage of the plain registers (10_state R39): (id, value) pairs, ids strictly rising, no entry equal
to 0, which is what an unlisted id reads as. It is the only storage the register id space addresses
(20_memory R60; notes/assumptions/11.md). -/
abbrev Memory := List (Nat × Word16)

/-- What a plain register that nothing has written reads as: its reset value (10_state R39). -/
def Memory.unlisted : Word16 := 0

/-- Every id of the list is above `lo`, they rise strictly, and no value is the unlisted one. -/
def Memory.wfAbove (lo : Option Nat) : Memory → Bool
  | [] => true
  | (k, v) :: m => lo.all (· < k) && (v != Memory.unlisted) && Memory.wfAbove (some k) m

/-- The canonical form. -/
def Memory.wf (m : Memory) : Bool := Memory.wfAbove none m

/-- The output events, recorded in order (00_scope R10, 10_state R35). -/
inductive Event where
  | dir (c : Nat) (dirA dirB : Bool)
  | adcStart (channel : Nat)
  deriving DecidableEq, Repr

/-- What MOT_RDSTATE returns (41_motor R143). -/
structure MotSnapshot where
  state    : BitVec 2
  control  : Number
  pwm      : Nat
  dirA     : Bool
  dirB     : Bool
  filtered : Number
  lastRaw  : Nat
  stallEn  : Bool
  deriving DecidableEq, Repr

/-- What PID_RDSNAP returns (43_pid R190). -/
structure PidSnapshot where
  required   : Number
  actual     : Number
  error      : Number
  integral   : Number
  derivative : Number
  output     : Number
  params     : PidParams
  deriving DecidableEq, Repr

/-- The responses, one constructor per command that has one (30_encoding R85). -/
inductive Response where
  | mask (m : Byte)
  | status (b : Byte)
  | data (w : Word16)
  | motState (r : MotSnapshot)
  | pidSnap (r : PidSnapshot)
  | encFreq (freq : Number) (odometry : Nat)
  | regRead (status : Byte) (raw : Word16)
  | regWrite (status : Byte)
  deriving DecidableEq, Repr

/-- The state of one block instance. `flt` to `refused` are the spec's state; `cfg` is the configuration it was
built from, which no command writes (notes/assumptions/1.md); `pending` holds the commands the agents have
presented, in the total order of 00_scope R15 (notes/assumptions/4.md); `events`, `responses` and `refusals` are
the record a run is observed by (70_reset R295; notes/assumptions/5.md, 7.md); `freeDraws` counts the free
values drawn (notes/assumptions/8.md). -/
structure State where
  cfg       : Config
  flt       : FaultReg
  ch        : List MotBank
  pid       : List PidBank
  pos       : List PosBank
  enc       : List EncBank
  adc       : AdcSched
  plain     : Memory
  refused   : Bool
  pending   : List Command
  events    : List Event
  responses : List Response
  refusals  : List DecodeRefusal
  freeDraws : Nat
  deriving DecidableEq, Repr

/-- The faults that stop the machine: there is none. The block never halts and every command completes
(60_exceptions R266, 70_reset R294); the latched faults of 42_fault are state, not stops
(notes/assumptions/12.md). -/
inductive Fault where
  deriving DecidableEq, Repr

/-- The refusals that stop the machine. -/
inductive Refusal where
  /-- Raised only by an arm of `exec` that has no meaning yet. Safe: the machine stops where the block goes on. -/
  | notModelled (mnemonic : String)
  deriving DecidableEq, Repr

/-- The result of one step. -/
abbrev Result := Host.Outcome State Fault Refusal

/-! ### Reset, 70_reset R280 -/

def MotBank.reset : MotBank where
  state := .stop
  control := 0
  pwm := 0
  dirA := false
  dirB := false
  filtered := 0
  lastRaw := 0
  stallEn := false
  stallCnt := 0

def PidBank.reset (params : PidParams) : PidBank where
  required := 0
  actual := 0
  error := 0
  integral := 0
  derivative := 0
  prevActual := 0
  prevTime := 0
  output := 0
  params := params

def PosBank.reset : PosBank where
  actual := 0

def EncBank.reset : EncBank where
  ticks := 0
  negTicks := 0
  winStart := 0
  freq := 0
  odometry := 0

/-- The state right after reset of a block of configuration `cfg` (70_reset R280, R281): one event, no
callback, no recorded output. -/
def State.resetOf (cfg : Config) : State where
  cfg := cfg
  flt := ⟨true, .boot, cfg.bootOrigin, 0⟩
  ch := cfg.chan.map fun _ => MotBank.reset
  pid := cfg.chan.map fun k => PidBank.reset k.pidInit
  pos := cfg.chan.map fun _ => PosBank.reset
  enc := cfg.chan.map fun _ => EncBank.reset
  adc := ⟨.countdown, 0, 0⟩
  plain := []
  refused := false
  pending := []
  events := []
  responses := []
  refusals := []
  freeDraws := 0

/-- Building a block instance: refused for a configuration that is not well formed (00_scope R7). -/
def State.build? (cfg : Config) : Option State :=
  if cfg.WellFormed then some (State.resetOf cfg) else none

/-- The machine right after reset, built from the configuration `Config.standard` (notes/assumptions/2.md). -/
def State.reset : State := State.resetOf Config.standard

end Sys2Proof.Machine
end

