-- ==== Sys2Proof/Machine/Operands.lean ====
section
/-! DEFINITION. The number operations of 00_scope R9 and R10, the value mapping of the register port (40_regport
R112 to R115), the byte order of the port (20_memory R63, R64) and the codes that travel as values. -/

namespace Sys2Proof.Machine

open Sys2Proof

/-! ### Numbers, 00_scope R10 -/

/-- `clamp(v, lo, hi)`. -/
def clamp (v lo hi : Number) : Number := min (max v lo) hi

/-- `wrap_N(n)`. -/
def wrap (width n : Nat) : Nat := n % 2 ^ width

/-- `floor` of a number that is not negative, as the natural number it is. -/
def floorNat (v : Number) : Nat := (Rat.floor v).toNat

/-! ### FMT, 00_scope R9 -/

/-- 2 to an integer power. -/
def pow2 : Int → Number
  | .ofNat n => (2 ^ n : Nat)
  | .negSucc n => 1 / ((2 ^ (n + 1) : Nat) : Number)

/-- The integer nearest to `v`, the even one of two equally near (notes/assumptions/3.md). -/
def roundHalfEven (v : Number) : Int :=
  let f := Rat.floor v
  let r := v - f
  if r < 1/2 then f
  else if r > 1/2 then f + 1
  else if f % 2 = 0 then f else f + 1

/-- The largest integer e with 2^e ≤ v, for a positive v. -/
def ilog2 (v : Number) : Int :=
  let k : Int := (Nat.log2 v.num.toNat : Int) - (Nat.log2 v.den : Int)
  if pow2 k ≤ v then k else k - 1

/-- The value FMT stores for `v`. -/
def fmtApply (f : Fmt) (v : Number) : Number :=
  match f with
  | .identity => v
  | .fixedPoint fracBits => (roundHalfEven (v * pow2 fracBits) : Number) * pow2 (-fracBits)
  | .binaryFloat precision minExp =>
    if v = 0 then 0
    else
      let e := max (ilog2 |v| + 1 - precision) minExp
      (roundHalfEven (v * pow2 (-e)) : Number) * pow2 e
  | .uninterpreted n => Config.fmtUninterpreted n v

/-! ### The register port's value mapping, 40_regport R112 to R115 -/

/-- The largest raw value of a register, 2^(8·size) − 1 (20_memory R62). -/
def rawMax (d : RegDesc) : Nat := 2 ^ (8 * d.size) - 1

/-- `map(d, v)` of R112, for v in [d.min, d.max]. -/
def mapRaw (d : RegDesc) (v : Number) : Nat := floorNat ((v - d.min) * (rawMax d : Number) / (d.max - d.min))

/-- `unmap(d, raw)` of R113. -/
def unmapRaw (d : RegDesc) (raw : Nat) : Number := d.min + (raw : Number) * (d.max - d.min) / (rawMax d : Number)

/-- A raw kind's value as a read moves it through the register: one above d.max, which is 2^(8·size) − 1 for a raw
kind (R110), reads as the all-ones raw value (R117; notes/assumptions/9.md). -/
def saturateRaw (d : RegDesc) (v : Nat) : Nat := min v (rawMax d)

/-- `inRange(d, v)` of R114. -/
def inRange (d : RegDesc) (v : Number) : Bool := decide (d.min ≤ v ∧ v ≤ d.max)

/-- The quantization step of R115. -/
def quantStep (d : RegDesc) : Number := (d.max - d.min) / (rawMax d : Number)

/-! ### Byte order, 20_memory R63, R64 -/

/-- `raw = high·256 + low`. -/
def assembleRaw (low high : Byte) : Word16 := high ++ low

/-- The bytes of a register's raw value in the order they travel, low byte first; a 1-byte register has no
high byte. -/
def portBytes (d : RegDesc) (raw : Word16) : List Byte :=
  if d.size = 1 then [lowByte raw] else [lowByte raw, highByte raw]

/-- The raw value a write of a register's own bytes gives. -/
def rawOfBytes : List Byte → Word16
  | [] => 0
  | [low] => assembleRaw low 0
  | low :: high :: _ => assembleRaw low high

/-- The length of a table that ends at a sentinel descriptor: the registers before the first one whose size
is neither 1 nor 2 (40_regport R111). -/
def regmapOfSentinel (table : List RegDesc) : List RegDesc :=
  table.takeWhile fun d => d.size == 1 || d.size == 2

/-! ### Codes -/

/-- The 2-bit code of a drive state (10_state R27). -/
def DriveState.code : DriveState → BitVec 2
  | .stop => 0
  | .brake => 1
  | .forward => 2
  | .reverse => 3

/-- CFG.FAULT_STOP_STATE as a drive state. -/
def stopState : FaultStop → DriveState
  | .stop => .stop
  | .brake => .brake

/-- The origin of a fault raised inside the block by channel c (42_fault R161). -/
def channelOrigin (cfg : Config) (c : Nat) : Origin := ⟨cfg.deviceIndex, BitVec.ofNat 4 c⟩

/-! ### Drive lines, 41_motor R130 -/

/-- The two direction lines of a drive state. -/
def driveLines : DriveState → Bool × Bool
  | .stop => (false, false)
  | .brake => (true, true)
  | .forward => (true, false)
  | .reverse => (false, true)

/-- The PWM duty of a drive state under a control. -/
def drivePwm (maxDuty : Nat) (st : DriveState) (control : Number) : Nat :=
  match st with
  | .stop => 0
  | .brake => maxDuty
  | .forward => floorNat |control|
  | .reverse => floorNat |control|

end Sys2Proof.Machine
end

