-- ==== Sys2Proof/Machine/Flags.lean ====
section
/-! DEFINITION. The block's one flag, `flt.active` (10_state R38), the mask that gates it (42_fault R160, R165) and
the two registers that show the fault register (42_fault R167, R168). No command computes a condition code. -/

namespace Sys2Proof.Machine

open Sys2Proof

/-- `flt.mask[type] = 1`: the type is disabled (42_fault R162). -/
def FaultReg.masked (f : FaultReg) (t : FaultType) : Bool := f.mask.getLsbD t.code.toNat

/-- The status register: bit 0 is `flt.active`, bits 7:1 read 0 (42_fault R167). -/
def FaultReg.statusByte (f : FaultReg) : Byte := if f.active then 1 else 0

/-- `originId`, {dev[3:0], mot[3:0]} (42_fault R161). -/
def originId (o : Origin) : Byte := o.dev ++ o.mot

/-- The exception-data register, {type[7:0], dev[3:0], mot[3:0]} (42_fault R168). -/
def FaultReg.dataWord (f : FaultReg) : Word16 := f.ftype.code ++ originId f.origin

end Sys2Proof.Machine
end

