-- ==== Sys2Proof/Machine/Ops.lean ====
section
/-! DEFINITION. The operations every meaning shares: the banks of a channel, the storage of the plain registers,
the record of outputs and responses, a refused command, and fault entry and fault return with their callbacks
(42_fault R162, R164, R169; 41_motor R141, R142). -/

namespace Sys2Proof.Machine

open Sys2Proof

/-! ### Configuration and banks of a channel

A command reaches a bank only for a channel of the block (30_encoding R87), and the banks are as many as the
channels, so the value given for a missing bank is never read (notes/assumptions/14.md). -/

/-- The channel-indexed fields of CFG for channel c. -/
def chanCfg (cfg : Config) (c : Nat) : ChanCfg := cfg.chan.getD c (ChanCfg.standard .position)

def motAt (s : State) (c : Nat) : MotBank := s.ch.getD c MotBank.reset
def pidAt (s : State) (c : Nat) : PidBank := s.pid.getD c (PidBank.reset ⟨0, 0, 0, 0, 0, 0⟩)
def posAt (s : State) (c : Nat) : PosBank := s.pos.getD c PosBank.reset
def encAt (s : State) (c : Nat) : EncBank := s.enc.getD c EncBank.reset

def setMot (s : State) (c : Nat) (b : MotBank) : State := { s with ch := s.ch.set c b }
def setPid (s : State) (c : Nat) (b : PidBank) : State := { s with pid := s.pid.set c b }
def setPos (s : State) (c : Nat) (b : PosBank) : State := { s with pos := s.pos.set c b }
def setEnc (s : State) (c : Nat) (b : EncBank) : State := { s with enc := s.enc.set c b }

/-- The value a state field holds after a Number is assigned to it (00_scope R9). -/
def stored (s : State) (v : Number) : Number := fmtApply s.cfg.fmt v

/-! ### The plain registers, 10_state R39 -/

/-- The value of plain register `id`. -/
def Memory.read (m : Memory) (id : Nat) : Word16 :=
  match m with
  | [] => Memory.unlisted
  | (k, v) :: rest => if k = id then v else Memory.read rest id

/-- The storage with plain register `id` holding `v`, in the canonical form. -/
def Memory.write (m : Memory) (id : Nat) (v : Word16) : Memory :=
  match m with
  | [] => if v = Memory.unlisted then [] else [(id, v)]
  | (k, x) :: rest =>
    if id < k then
      if v = Memory.unlisted then (k, x) :: rest else (id, v) :: (k, x) :: rest
    else if id = k then
      if v = Memory.unlisted then rest else (id, v) :: rest
    else (k, x) :: Memory.write rest id v

def setPlain (s : State) (id : Nat) (v : Word16) : State := { s with plain := s.plain.write id v }

/-! ### The record of a run, 70_reset R295 -/

/-- `emit <Output>(args)` (00_scope R10). -/
def emit (s : State) (e : Event) : State := { s with events := s.events ++ [e] }

/-- `return v` on the port (00_scope R10). -/
def respond (s : State) (r : Response) : State := { s with responses := s.responses ++ [r] }

/-! ### The command port -/

/-- An agent presents a command (00_scope R15). -/
def present (s : State) (cmd : Command) : State := { s with pending := s.pending ++ [cmd] }

/-- `refuse(reason)`: no state of the block changes and the model records the refusal (00_scope R10,
10_state R37, 30_encoding R87). -/
def refuseCommand (s : State) (r : DecodeRefusal) : State :=
  { s with refused := true, refusals := s.refusals ++ [r] }

/-! ### Fault entry and return -/

/-- Runs a callback on every channel, in channel order 0..NCH−1 (42_fault R169). -/
def forChannels (f : Nat → State → State) (s : State) : State :=
  (List.range s.cfg.nch).foldl (fun u c => f c u) s

/-- `MOT_FAULTSTOP(c)`, 41_motor R141. -/
def motFaultstop (c : Nat) (s : State) : State :=
  let st := stopState s.cfg.faultStopState
  let lines := driveLines st
  let b := motAt s c
  emit
    (setMot s c { b with
      state := st
      control := stored s 0
      dirA := lines.1
      dirB := lines.2
      pwm := drivePwm s.cfg.maxDuty st 0
      stallCnt := 0 })
    (.dir c lines.1 lines.2)

/-- `MOT_FAULTRESET(c)`, 41_motor R142. -/
def motFaultreset (c : Nat) (s : State) : State :=
  setMot s c { motAt s c with stallCnt := 0 }

/-- `FLT_RAISE(origin, type)`: fault entry, 42_fault R162 and 60_exceptions R256. -/
def fltRaise (origin : Origin) (t : FaultType) (s : State) : State :=
  if s.flt.active then s
  else if s.flt.masked t then s
  else
    forChannels motFaultstop
      { s with flt := { s.flt with active := true, ftype := t, origin := origin } }

/-- `FLT_RESET()`: fault return, 42_fault R164 and 60_exceptions R258. -/
def fltReset (s : State) : State :=
  let u := forChannels motFaultreset s
  { u with flt := { u.flt with active := false } }

end Sys2Proof.Machine
end

