-- ==== Sys2Proof/Machine/Motor.lean ====
section
/-! DEFINITION. The motor drive state machine, the current filter and the fault classifiers (41_motor). -/

namespace Sys2Proof.Machine

open Sys2Proof

/-- The drive state MOT_SETSPEED selects for a clamped control (41_motor R131). -/
def targetState (ctl : Number) : DriveState :=
  if 0 < ctl then .forward
  else if ctl < 0 then .reverse
  else .stop

/-- `MOT_SETSPEED(c, v)`, 41_motor R131 and R132. -/
def motSetspeed (c : Nat) (v : Number) (s : State) : State :=
  if s.flt.active then s
  else
    let ctl := clamp v (-(s.cfg.maxDuty : Number)) s.cfg.maxDuty
    let target := targetState ctl
    let lines := driveLines target
    let b := motAt s c
    if target ≠ b.state then
      setMot
        (emit s (.dir c lines.1 lines.2)) c { b with
          control := stored s ctl
          state := target
          dirA := lines.1
          dirB := lines.2
          pwm := drivePwm s.cfg.maxDuty target ctl }
    else
      setMot s c { b with
        control := stored s ctl
        pwm := drivePwm s.cfg.maxDuty target ctl }

/-- The asymmetric EMA, 41_motor R135. -/
def emaUpdate (k : ChanCfg) (f : Number) (raw : Nat) : Number :=
  if f < (raw : Number) then f + k.alphaRise * ((raw : Number) - f)
  else f + k.alphaFall * ((raw : Number) - f)

/-- The overcurrent classification of a sample above the threshold, 41_motor R136. -/
def currentClass (k : ChanCfg) (control : Number) : FaultType :=
  if k.highControl < |control| then .overcurrent else .short

/-- `MOT_SETCURRENT(c, raw)`, 41_motor R134. -/
def motSetcurrent (c raw : Nat) (s : State) : State :=
  let k := chanCfg s.cfg c
  let b := motAt s c
  let u := setMot s c { b with filtered := stored s (emaUpdate k b.filtered raw), lastRaw := raw }
  if k.ocThreshold < raw then fltRaise (channelOrigin s.cfg c) (currentClass k b.control) u else u

/-- `MOT_SETSTALLEN(c, en)`, 41_motor R137. -/
def motSetstallen (c : Nat) (en : Bool) (s : State) : State :=
  setMot s c { motAt s c with stallEn := en, stallCnt := 0 }

/-- `stallClass(c, raw)`, 41_motor R139. -/
def stallClass (k : ChanCfg) (raw : Nat) : FaultType :=
  if k.iNominal ≤ raw then .stall
  else if k.iZero ≤ raw then .encoderFault
  else .driveFault

/-- The stall condition of 41_motor R138 for a measured speed. -/
def stallCondition (k : ChanCfg) (b : MotBank) (speed : Number) : Bool :=
  decide (speed < k.stallSpeedEps) && decide (k.stallCtrl < |b.control|)

/-- `STALL_CHECK(c, s)`, 41_motor R138 and R140. -/
def stallCheck (c : Nat) (speed : Number) (s : State) : State :=
  let k := chanCfg s.cfg c
  let b := motAt s c
  if b.stallEn = false then s
  else if stallCondition k b speed then
    if k.stallDebounce < b.stallCnt + 1 then
      fltRaise (channelOrigin s.cfg c) (stallClass k b.lastRaw) (setMot s c { b with stallCnt := 0 })
    else setMot s c { b with stallCnt := b.stallCnt + 1 }
  else setMot s c { b with stallCnt := 0 }

/-- The snapshot MOT_RDSTATE returns, 41_motor R143. -/
def motSnapshot (b : MotBank) : MotSnapshot where
  state := b.state.code
  control := b.control
  pwm := b.pwm
  dirA := b.dirA
  dirB := b.dirB
  filtered := b.filtered
  lastRaw := b.lastRaw
  stallEn := b.stallEn

/-- MOT_SETSPEED, 41_motor R131. -/
def execMotSetspeed (c : Chan) (v : Number) (s : State) : Result := .next (motSetspeed c.val v s)

/-- MOT_SETCURRENT, 41_motor R134. -/
def execMotSetcurrent (c : Chan) (raw : Nat) (s : State) : Result := .next (motSetcurrent c.val raw s)

/-- MOT_SETSTALLEN, 41_motor R137. -/
def execMotSetstallen (c : Chan) (en : Bool) (s : State) : Result := .next (motSetstallen c.val en s)

/-- MOT_RDSTATE, 41_motor R143. -/
def execMotRdstate (c : Chan) (s : State) : Result :=
  .next (respond s (.motState (motSnapshot (motAt s c.val))))

end Sys2Proof.Machine
end

