-- ==== Sys2Proof/Machine/Variants.lean ====
section
/-! DEFINITION. The position and speed variants that supply the measured value (44_variants). -/

namespace Sys2Proof.Machine

open Sys2Proof

/-- The linear remap of a potentiometer reading, 44_variants R200. -/
def potRemap (k : ChanCfg) (raw : Nat) : Number :=
  k.engMin + ((raw : Number) - (k.calMin : Number)) * (k.engMax - k.engMin) / ((k.calMax : Number) - (k.calMin : Number))

/-- `POS_SAMPLE(c, raw)`, 44_variants R200. -/
def posSample (c raw : Nat) (s : State) : State :=
  setPos s c { actual := stored s (potRemap (chanCfg s.cfg c) raw) }

/-- `measured(c)`, 43_pid R183 and 44_variants R201. -/
def measured (c : Nat) (s : State) : Number :=
  match (chanCfg s.cfg c).role with
  | .position => (posAt s c).actual
  | .speed => (encAt s c).freq

/-- POS_SAMPLE, 44_variants R200. -/
def execPosSample (c : Chan) (raw : Nat) (s : State) : Result := .next (posSample c.val raw s)

end Sys2Proof.Machine
end

