-- ==== Sys2Proof/Machine/Adc.lean ====
section
/-! DEFINITION. The ADC sample scheduler and the type-tag demultiplexer (46_adc). -/

namespace Sys2Proof.Machine

open Sys2Proof

/-- `ADC_DISPATCH(entry, raw)`, 46_adc R233. -/
def adcDispatch (e : AdcReg) (raw : Nat) (s : State) : State :=
  match e.typeTag with
  | .current => motSetcurrent e.listener raw s
  | .position => posSample e.listener raw s

/-- One poll with registration `e` being serviced, 46_adc R232. -/
def adcService (e : AdcReg) (done : Bool) (raw : Nat) (s : State) : State :=
  match s.adc.phase with
  | .countdown =>
    if s.adc.cnt = 0 then
      emit { s with adc := { s.adc with phase := .waiting } } (.adcStart e.adcChannel)
    else { s with adc := { s.adc with cnt := s.adc.cnt - 1 } }
  | .waiting =>
    if done then
      let u := adcDispatch e raw s
      { u with
        adc := ⟨.countdown, (s.adc.cur + 1) % s.cfg.adcTable.length, s.cfg.adcDelay⟩ }
    else s

/-- `ADC_POLL(done, raw)`, 46_adc R232; with an empty table it does nothing (R234). -/
def adcPoll (done : Bool) (raw : Nat) (s : State) : State :=
  match s.cfg.adcTable[s.adc.cur]? with
  | none => s
  | some e => adcService e done raw s

/-- ADC_POLL, 46_adc R232. -/
def execAdcPoll (done : Bool) (raw : Nat) (s : State) : Result := .next (adcPoll done raw s)

end Sys2Proof.Machine
end

