-- ==== Sys2Proof/Machine/Encoder.lean ====
section
/-! DEFINITION. The quadrature encoder front-end (45_encoder). -/

namespace Sys2Proof.Machine

open Sys2Proof

/-- `ENC_EDGE(c, level)`, 45_encoder R210; the counters wrap at their widths (R217). -/
def encEdge (c : Nat) (level : Bool) (s : State) : State :=
  let e := encAt s c
  setEnc s c { e with
    ticks := wrap s.cfg.encCntW (e.ticks + 1)
    negTicks :=
      if level = (chanCfg s.cfg c).encReverseLevel then wrap s.cfg.encCntW (e.negTicks + 1)
      else e.negTicks
    odometry := wrap s.cfg.odoW (e.odometry + 1) }

/-- The signed frequency of a completed window, 45_encoder R212 and R213. -/
def windowFreq (e : EncBank) (elapsed : Nat) : Number :=
  let f := (e.ticks : Number) * 1000000 / (elapsed : Number)
  if 3 * e.negTicks > e.ticks then -f else f

/-- `ENC_POLL(c, now)`, 45_encoder R211 and R214. -/
def encPoll (c now : Nat) (s : State) : State :=
  let e := encAt s c
  if now < e.winStart then setEnc s c { e with winStart := now, ticks := 0, negTicks := 0 }
  else
    let elapsed := now - e.winStart
    if elapsed < (chanCfg s.cfg c).encWindowUs then s
    else
      setEnc s c { e with
        freq := stored s (windowFreq e elapsed)
        ticks := 0
        negTicks := 0
        winStart := now }

/-- `ENC_ODORESET(c)`, 45_encoder R215. -/
def encOdoreset (c : Nat) (s : State) : State := setEnc s c { encAt s c with odometry := 0 }

/-- ENC_EDGE, 45_encoder R210. -/
def execEncEdge (c : Chan) (level : Bool) (s : State) : Result := .next (encEdge c.val level s)

/-- ENC_POLL, 45_encoder R211. -/
def execEncPoll (c : Chan) (now : Nat) (s : State) : Result := .next (encPoll c.val now s)

/-- ENC_ODORESET, 45_encoder R215. -/
def execEncOdoreset (c : Chan) (s : State) : Result := .next (encOdoreset c.val s)

/-- ENC_RDFREQ, 45_encoder R216. -/
def execEncRdfreq (c : Chan) (s : State) : Result :=
  .next (respond s (.encFreq (encAt s c.val).freq (encAt s c.val).odometry))

end Sys2Proof.Machine
end

