-- ==== Sys2Proof/Machine/Fault.lean ====
section
/-! DEFINITION. The fault register's commands (42_fault). -/

namespace Sys2Proof.Machine

open Sys2Proof

/-- `flt.mask <- mask`. -/
def fltSetmask (mask : Byte) (s : State) : State := { s with flt := { s.flt with mask := mask } }

/-- FLT_RAISE, 42_fault R162. -/
def execFltRaise (t : FaultType) (dev mot : BitVec 4) (s : State) : Result :=
  .next (fltRaise ⟨dev, mot⟩ t s)

/-- FLT_RESET, 42_fault R164. -/
def execFltReset (s : State) : Result := .next (fltReset s)

/-- FLT_SETMASK, 42_fault R165. -/
def execFltSetmask (mask : Byte) (s : State) : Result := .next (fltSetmask mask s)

/-- FLT_RDMASK, 42_fault R166. -/
def execFltRdmask (s : State) : Result := .next (respond s (.mask s.flt.mask))

/-- FLT_RDSTATUS, 42_fault R167. -/
def execFltRdstatus (s : State) : Result := .next (respond s (.status s.flt.statusByte))

/-- FLT_RDDATA, 42_fault R168. -/
def execFltRddata (s : State) : Result := .next (respond s (.data s.flt.dataWord))

end Sys2Proof.Machine
end

