-- ==== Sys2Proof/Machine/Pid.lean ====
section
/-! DEFINITION. The PID controller with anti-windup and dead zone (43_pid). -/

namespace Sys2Proof.Machine

open Sys2Proof

/-- `PID_SETREQ(c, v)`, 43_pid R180. -/
def pidSetreq (c : Nat) (v : Number) (s : State) : State :=
  setPid s c { pidAt s c with required := stored s v }

/-- The parameters as a bank holds them after their assignment (00_scope R9). -/
def storedParams (s : State) (q : PidParams) : PidParams where
  pGain := stored s q.pGain
  iGain := stored s q.iGain
  dGain := stored s q.dGain
  iCap := stored s q.iCap
  decay := stored s q.decay
  deadZone := stored s q.deadZone

/-- `PID_SETPARAMS(c, …)`, 43_pid R181; the cap of the re-clamp is the operand (notes/assumptions/10.md). -/
def pidSetparams (c : Nat) (q : PidParams) (s : State) : State :=
  let p := pidAt s c
  setPid s c { p with
    params := storedParams s q
    integral := stored s (clamp p.integral (-q.iCap) q.iCap) }

/-- The error after the dead zone, 43_pid R185. -/
def pidError (p : PidBank) (a : Number) : Number :=
  let e := p.required - a
  if |e| < p.params.deadZone then 0 else e

/-- The integral: add, then decay, then clamp (43_pid R186). -/
def pidIntegral (p : PidBank) (e : Number) : Number :=
  clamp ((p.integral + e) * p.params.decay) (-p.params.iCap) p.params.iCap

/-- The derivative on the measurement, 43_pid R187. -/
def pidDerivative (p : PidBank) (a : Number) : Number := -(a - p.prevActual)

/-- The output, 43_pid R188. -/
def pidOutput (p : PidBank) (e i d : Number) : Number :=
  p.params.pGain * e + p.params.iGain * i + p.params.dGain * d

/-- The bookkeeping of a tick whose time went backwards, 43_pid R184. -/
def pidBackwards (c now : Nat) (s : State) : State :=
  let a := measured c s
  setPid s c { pidAt s c with prevTime := now, prevActual := stored s a, actual := stored s a }

/-- The estimator of a correcting tick: what 43_pid R182 writes into the bank before STALL_CHECK. -/
def pidEstimate (c now : Nat) (s : State) : State :=
  let a := measured c s
  let p := pidAt s c
  let e := pidError p a
  let i := pidIntegral p e
  let d := pidDerivative p a
  setPid s c { p with
    actual := stored s a
    error := stored s e
    integral := stored s i
    derivative := stored s d
    output := stored s (pidOutput p e i d)
    prevActual := stored s a
    prevTime := now }

/-- The end of a correcting tick: the fault gate of 43_pid R189. -/
def pidDrive (c : Nat) (a out : Number) (s : State) : State :=
  if s.flt.active then setPid s c { pidAt s c with required := stored s a }
  else motSetspeed c out s

/-- `PID_TICK(c, now)`, 43_pid R182. -/
def pidTick (c now : Nat) (s : State) : State :=
  let a := measured c s
  let p := pidAt s c
  if now < p.prevTime then pidBackwards c now s
  else
    let e := pidError p a
    let out := pidOutput p e (pidIntegral p e) (pidDerivative p a)
    pidDrive c a out (stallCheck c |a - p.prevActual| (pidEstimate c now s))

/-- The snapshot PID_RDSNAP returns, 43_pid R190. -/
def pidSnapshot (p : PidBank) : PidSnapshot where
  required := p.required
  actual := p.actual
  error := p.error
  integral := p.integral
  derivative := p.derivative
  output := p.output
  params := p.params

/-- PID_SETREQ, 43_pid R180. -/
def execPidSetreq (c : Chan) (v : Number) (s : State) : Result := .next (pidSetreq c.val v s)

/-- PID_SETPARAMS, 43_pid R181. -/
def execPidSetparams (c : Chan) (pGain iGain dGain iCap decay deadZone : Number) (s : State) : Result :=
  .next (pidSetparams c.val ⟨pGain, iGain, dGain, iCap, decay, deadZone⟩ s)

/-- PID_TICK, 43_pid R182. -/
def execPidTick (c : Chan) (now : Nat) (s : State) : Result := .next (pidTick c.val now s)

/-- PID_RDSNAP, 43_pid R190. -/
def execPidRdsnap (c : Chan) (s : State) : Result :=
  .next (respond s (.pidSnap (pidSnapshot (pidAt s c.val))))

end Sys2Proof.Machine
end

