-- ==== Sys2Proof/Machine/RegPort.lean ====
section
/-! DEFINITION. The host register port (40_regport). -/

namespace Sys2Proof.Machine

open Sys2Proof

/-- What the access check answers, 40_regport R116. -/
inductive Access where
  | ok (d : RegDesc)
  | noSuchRegister
  | readOnlyViolation
  deriving DecidableEq, Repr

/-- The status byte of an answer, 40_regport R116 and R119. -/
def accessCode : Access → Byte
  | .ok _ => 0
  | .noSuchRegister => 1
  | .readOnlyViolation => 2

/-- `checkAndLoadRegister(id, writeRequested)`, 40_regport R116. -/
def checkAndLoadRegister (cfg : Config) (id : Nat) (writeRequested : Bool) : Access :=
  match cfg.regmap[id]? with
  | none => .noSuchRegister
  | some d => if writeRequested && !d.writable then .readOnlyViolation else .ok d

/-- One of the six parameters, 40_regport R121. -/
def paramOf (q : PidParams) : PidParamName → Number
  | .pGain => q.pGain
  | .iGain => q.iGain
  | .dGain => q.dGain
  | .iCap => q.iCap
  | .decay => q.decay
  | .deadZone => q.deadZone

/-- The parameters with one of them replaced, the other five unchanged (40_regport R121). -/
def withParam (q : PidParams) (k : PidParamName) (v : Number) : PidParams :=
  match k with
  | .pGain => { q with pGain := v }
  | .iGain => { q with iGain := v }
  | .dGain => { q with dGain := v }
  | .iCap => { q with iCap := v }
  | .decay => { q with decay := v }
  | .deadZone => { q with deadZone := v }

/-- The raw value a Number binding is read as: clamped into the domain, then mapped (40_regport R117). -/
def mappedRead (d : RegDesc) (v : Number) : Nat := mapRaw d (clamp v d.min d.max)

/-- The raw value a read of register `id` answers, by its binding (40_regport R117, R121). The exception-data word is
the one raw value that need not fit its register: every other one is at most 8 bits wide, is taken modulo
2^(8·size) or was stored through the register itself. -/
def regGet (d : RegDesc) (id : Nat) (s : State) : Nat :=
  match d.binding with
  | .faultStatus => s.flt.statusByte.toNat
  | .faultData => saturateRaw d s.flt.dataWord.toNat
  | .faultMask => s.flt.mask.toNat
  | .faultResetTrigger => 0
  | .pidRequired c => mappedRead d (pidAt s c).required
  | .pidActual c => mappedRead d (pidAt s c).actual
  | .pidParam c k => mappedRead d (paramOf (pidAt s c).params k)
  | .motorState c => (motAt s c).state.code.toNat
  | .motorControl c => mappedRead d (motAt s c).control
  | .motorFiltered c => mappedRead d (motAt s c).filtered
  | .stallEnable c => (motAt s c).stallEn.toNat
  | .encFreq c => mappedRead d (encAt s c).freq
  | .encOdometry c => (encAt s c).odometry % 2 ^ (8 * d.size)
  | .plain => (s.plain.read id).toNat

/-- `FLT_SETMASK v` as a FaultMask binding performs it. The mask is 8 bits wide; what a wider value leaves in it
the spec does not say, so it is a free value (notes/assumptions/8.md). -/
def setMaskRegister (raw : Nat) (s : State) : State :=
  if raw < 256 then fltSetmask (BitVec.ofNat 8 raw) s
  else { fltSetmask (Config.freeMask s.freeDraws) s with freeDraws := s.freeDraws + 1 }

/-- The setter of register `id`, by its binding (40_regport R118, R121). A binding that must be read-only has no
setter, and no well-formed table makes it writable. -/
def regSet (d : RegDesc) (id raw : Nat) (s : State) : State :=
  match d.binding with
  | .faultMask => setMaskRegister raw s
  | .faultResetTrigger => fltReset s
  | .pidRequired c => pidSetreq c (unmapRaw d raw) s
  | .pidParam c k => pidSetparams c (withParam (pidAt s c).params k (unmapRaw d raw)) s
  | .stallEnable c => motSetstallen c (raw.testBit 0) s
  | .encOdometry c => encOdoreset c s
  | .plain => setPlain s id (BitVec.ofNat 16 raw)
  | .faultStatus => s
  | .faultData => s
  | .pidActual _ => s
  | .motorState _ => s
  | .motorControl _ => s
  | .motorFiltered _ => s
  | .encFreq _ => s

/-- The raw value a write moves: a 1-byte register takes the low byte only (40_regport R118). -/
def writtenRaw (d : RegDesc) (raw : Word16) : Nat :=
  if d.size = 1 then (lowByte raw).toNat else raw.toNat

/-- `REG_READ(id)`, 40_regport R117. -/
def regRead (id : Nat) (s : State) : State :=
  match checkAndLoadRegister s.cfg id false with
  | .ok d => respond s (.regRead 0 (BitVec.ofNat 16 (regGet d id s)))
  | .noSuchRegister => respond s (.regRead (accessCode .noSuchRegister) 0)
  | .readOnlyViolation => respond s (.regRead (accessCode .readOnlyViolation) 0)

/-- `REG_WRITE(id, raw)`, 40_regport R118. -/
def regWrite (id : Nat) (raw : Word16) (s : State) : State :=
  match checkAndLoadRegister s.cfg id true with
  | .ok d => respond (regSet d id (writtenRaw d raw) s) (.regWrite 0)
  | .noSuchRegister => respond s (.regWrite (accessCode .noSuchRegister))
  | .readOnlyViolation => respond s (.regWrite (accessCode .readOnlyViolation))

/-- REG_READ, 40_regport R117. -/
def execRegRead (id : Byte) (s : State) : Result := .next (regRead id.toNat s)

/-- REG_WRITE, 40_regport R118. -/
def execRegWrite (id : Byte) (raw : Word16) (s : State) : Result := .next (regWrite id.toNat raw s)

end Sys2Proof.Machine
end

