-- ==== Sys2Proof/Machine/Dispatch.lean ====
section
/-! DEFINITION. The dispatch: one arm per constructor of `Instr`. -/

namespace Sys2Proof.Machine

open Sys2Proof

def exec (i : Instr) (s : State) : Host.Outcome State Fault Refusal :=
  match i with
  -- fault register, 42_fault
  | .fltRaise t dev mot => Sys2Proof.Machine.execFltRaise t dev mot s
  | .fltReset => Sys2Proof.Machine.execFltReset s
  | .fltSetmask mask => Sys2Proof.Machine.execFltSetmask mask s
  | .fltRdmask => Sys2Proof.Machine.execFltRdmask s
  | .fltRdstatus => Sys2Proof.Machine.execFltRdstatus s
  | .fltRddata => Sys2Proof.Machine.execFltRddata s
  -- motor, 41_motor
  | .motSetspeed c v => Sys2Proof.Machine.execMotSetspeed c v s
  | .motSetcurrent c raw => Sys2Proof.Machine.execMotSetcurrent c raw s
  | .motSetstallen c en => Sys2Proof.Machine.execMotSetstallen c en s
  | .motRdstate c => Sys2Proof.Machine.execMotRdstate c s
  -- PID, 43_pid
  | .pidSetreq c v => Sys2Proof.Machine.execPidSetreq c v s
  | .pidSetparams c pGain iGain dGain iCap decay deadZone => Sys2Proof.Machine.execPidSetparams c pGain iGain dGain iCap decay deadZone s
  | .pidTick c now => Sys2Proof.Machine.execPidTick c now s
  | .pidRdsnap c => Sys2Proof.Machine.execPidRdsnap c s
  -- position variant, 44_variants
  | .posSample c raw => Sys2Proof.Machine.execPosSample c raw s
  -- encoder, 45_encoder
  | .encEdge c level => Sys2Proof.Machine.execEncEdge c level s
  | .encPoll c now => Sys2Proof.Machine.execEncPoll c now s
  | .encOdoreset c => Sys2Proof.Machine.execEncOdoreset c s
  | .encRdfreq c => Sys2Proof.Machine.execEncRdfreq c s
  -- ADC scheduler, 46_adc
  | .adcPoll done raw => Sys2Proof.Machine.execAdcPoll done raw s
  -- register port, 40_regport
  | .regRead id => Sys2Proof.Machine.execRegRead id s
  | .regWrite id raw => Sys2Proof.Machine.execRegWrite id raw s

end Sys2Proof.Machine
end

