-- ==== Sys2Proof/Machine/Step.lean ====
section
/-! DEFINITION. One step: the block performs the first command the agents have presented (00_scope R11, R15), and
does nothing without one (R16). -/

namespace Sys2Proof.Machine

open Sys2Proof

def step (s : State) : Host.Outcome State Fault Refusal :=
  match s.pending with
  | [] => .next s
  | cmd :: rest =>
    match decode s.cfg cmd with
    | .ok i => exec i { s with pending := rest }
    | .refuse r => .next (refuseCommand { s with pending := rest } r)

/-- `s` with the command of an opcode-table word presented before every other (notes/assumptions/4.md, 6.md). -/
def State.withFetchWord (s : State) (nbits w : Nat) : State :=
  { s with pending := commandOfWord (w % 2 ^ nbits) :: s.pending }

end Sys2Proof.Machine
end

