-- ==== Sys2Proof/Safety.lean ====
section
/-! DEFINITION. What counts as a good state of a block: the invariants the obligations speak of. -/

namespace Sys2Proof.Machine

open Sys2Proof

/-- A block is built from a well-formed configuration and holds one bank of each kind per channel (00_scope R7,
10_state R26 to R32). -/
abbrev State.Shaped (s : State) : Prop :=
  s.cfg.WellFormed ∧
  s.ch.length = s.cfg.nch ∧ s.pid.length = s.cfg.nch ∧
  s.pos.length = s.cfg.nch ∧ s.enc.length = s.cfg.nch

/-- A motor bank's integers are in their ranges (10_state R26). A command leaves the debounce count at most
STALL_DEBOUNCE: reaching STALL_DEBOUNCE + 1 restarts it within the command (41_motor R138). -/
abbrev MotBank.InRange (cfg : Config) (k : ChanCfg) (b : MotBank) : Prop :=
  b.pwm ≤ cfg.maxDuty ∧ b.lastRaw ≤ cfg.adcRawMax ∧ b.stallCnt ≤ k.stallDebounce

/-- An encoder bank's counters and time stamp fit their widths (10_state R32). -/
abbrev EncBank.InRange (cfg : Config) (e : EncBank) : Prop :=
  e.ticks < 2 ^ cfg.encCntW ∧ e.negTicks < 2 ^ cfg.encCntW ∧
  e.winStart < 2 ^ cfg.timeW ∧ e.odometry < 2 ^ cfg.odoW

/-- The scheduler points into its table, at 0 when the table is empty, and its delay is in range (10_state R34). -/
abbrev AdcSched.InRange (cfg : Config) (a : AdcSched) : Prop :=
  (a.cur < cfg.adcTable.length ∨ cfg.adcTable.length = 0 ∧ a.cur = 0) ∧ a.cnt ≤ cfg.adcDelay

/-- The register storage is in its canonical form and holds values of `Plain` registers only, each within its
register's width (10_state R39, 20_memory R62). -/
abbrev State.PlainInRange (s : State) : Prop :=
  s.plain.wf = true ∧
  ∀ e ∈ s.plain,
    (s.cfg.regmap[e.1]?.any fun d => decide (d.binding = .plain ∧ e.2.toNat ≤ rawMax d)) = true

/-- A well-formed state: the shape of a block with every field in the range 10_state gives it. -/
abbrev State.WellFormed (s : State) : Prop :=
  s.Shaped ∧
  (∀ c, c < s.cfg.nch → (motAt s c).InRange s.cfg (chanCfg s.cfg c)) ∧
  (∀ c, c < s.cfg.nch → (pidAt s c).prevTime < 2 ^ s.cfg.timeW) ∧
  (∀ c, c < s.cfg.nch → (encAt s c).InRange s.cfg) ∧
  s.adc.InRange s.cfg ∧
  s.PlainInRange

/-- The lines and the duty a bank drives are those of its drive state (41_motor R130); the duty of FORWARD and
REVERSE, which follows the control, is `MotBank.ControlMatches`. -/
abbrev MotBank.LinesMatch (maxDuty : Nat) (b : MotBank) : Prop :=
  (b.dirA, b.dirB) = driveLines b.state ∧
  (b.state = .stop → b.pwm = 0) ∧
  (b.state = .brake → b.pwm = maxDuty)

abbrev State.LinesMatch (s : State) : Prop :=
  ∀ c, c < s.cfg.nch → (motAt s c).LinesMatch s.cfg.maxDuty

/-- While a fault is latched no channel drives: each is in STOP, where reset puts it, or in the fault state
(42_fault R169, 60_exceptions R257). -/
abbrev State.HeldWhileFaulted (s : State) : Prop :=
  s.flt.active = true →
    ∀ c, c < s.cfg.nch →
      (motAt s c).state = .stop ∨ (motAt s c).state = stopState s.cfg.faultStopState

/-- The anti-windup bound (43_pid R191). -/
abbrev State.AntiWindup (s : State) : Prop :=
  ∀ c, c < s.cfg.nch → |(pidAt s c).integral| ≤ (pidAt s c).params.iCap

/-- The control is within ±MAX_DUTY and agrees with the drive state and its duty (10_state R26, 41_motor R130,
R131). -/
abbrev MotBank.ControlMatches (maxDuty : Nat) (b : MotBank) : Prop :=
  |b.control| ≤ (maxDuty : Number) ∧
  (b.state = .forward ↔ 0 < b.control) ∧
  (b.state = .reverse ↔ b.control < 0) ∧
  (b.state = .forward ∨ b.state = .reverse → b.pwm = floorNat |b.control|)

abbrev State.ControlMatches (s : State) : Prop :=
  ∀ c, c < s.cfg.nch → (motAt s c).ControlMatches s.cfg.maxDuty

end Sys2Proof.Machine
end

