-- ==== Sys2Proof/Certificates/Slice0/Obligations.lean ====
section
/-! DEFINITION. The statements about the block, one `Prop` each. In a frame, `t = { s with f := t.f }` says that t is s
but for the field f. -/

open Sys2Proof Sys2Proof.Machine

/-! ### Stepping and decoding -/

/-- The first presented command, when it decodes, is what the step performs, with that command taken from the order
of commands and nothing else changed before it. -/
def Obligations.StepRunsTheDecodedCommand : Prop :=
  ∀ (s : State) (cmd : Command) (rest : List Command) (i : Instr),
    s.pending = cmd :: rest → decode s.cfg cmd = .ok i →
    step s = exec i { s with pending := rest }

/-- A refused command changes no state of the block: the model's mark is set, the reason is recorded, and the next
command follows. -/
def Obligations.RefusedCommandChangesNoState : Prop :=
  ∀ (s : State) (cmd : Command) (rest : List Command) (r : DecodeRefusal),
    s.pending = cmd :: rest → decode s.cfg cmd = .refuse r →
    ∃ t, step s = .next t ∧ t.refused = true ∧ t.refusals = s.refusals ++ [r] ∧
      t = { s with pending := rest, refused := t.refused, refusals := t.refusals }

/-- Without a command the block does nothing. -/
def Obligations.NoStepWithoutCommand : Prop :=
  ∀ s : State, s.pending = [] → ∃ t, step s = .next t ∧ t = s

/-- One step performs at most one command, the first of the order. -/
def Obligations.StepConsumesTheFirstCommand : Prop :=
  ∀ s t : State, step s = .next t → t.pending = s.pending.tail

/-- The opcode values outside the map are refused, and so is every header with a reserved bit set. -/
def Obligations.ReservedEncodingsRefused : Prop :=
  ∀ (cfg : Config) (h : Word16) (operands : List Number),
    ((h.toNat / 256 % 16 ≠ 0) → decode cfg ⟨h, operands⟩ = .refuse .reservedBits) ∧
    (h.toNat / 256 % 16 = 0 →
      (let op := h.toNat % 256
       op ≤ 0x0F ∨ (0x16 ≤ op ∧ op ≤ 0x1F) ∨ (0x24 ≤ op ∧ op ≤ 0x2F) ∨ (0x34 ≤ op ∧ op ≤ 0x3F) ∨
       (0x41 ≤ op ∧ op ≤ 0x4F) ∨ (0x54 ≤ op ∧ op ≤ 0x5F) ∨ (0x61 ≤ op ∧ op ≤ 0x6F) ∨ 0x72 ≤ op) →
      decode cfg ⟨h, operands⟩ = .refuse .unknownOpcode)

/-- The two channel checks, in the header's own numbers: a global command with a channel, a channel command
whose channel the block does not have. -/
def Obligations.ChannelFieldChecked : Prop :=
  ∀ (cfg : Config) (o : Op) (c : Chan) (operands : List Number),
    (o.format = .global → c ≠ 0 → decode cfg ⟨headerOf o c, operands⟩ = .refuse .channelOnGlobal) ∧
    (o.format = .channel → cfg.nch ≤ c.val → decode cfg ⟨headerOf o c, operands⟩ = .refuse .noSuchChannel)

/-- The operand check, for every row of the opcode map (written out: code, channel command or not, operand types), on a
header whose channel the row admits. Operands of another number than the row's, or one of them out of its type's range,
are refused as BadOperand. Operands that fit are refused as BadFaultType in FLT_RAISE when the type is outside 1..7, as
BadParam in PID_SETPARAMS when the cap or the dead zone is negative, and otherwise give a command. -/
def Obligations.OperandsChecked : Prop :=
  let rows : List (Nat × Bool × List OperandType) :=
    [(0x10, false, [.ftype, .u 4, .u 4]), (0x11, false, []), (0x12, false, [.u 8]),
     (0x13, false, []), (0x14, false, []), (0x15, false, [])] ++
    [(0x20, true, [.num]), (0x21, true, [.raw]), (0x22, true, [.bit]), (0x23, true, [])] ++
    [(0x30, true, [.num]), (0x31, true, [.num, .num, .num, .num, .num, .num]), (0x32, true, [.time]), (0x33, true, [])] ++
    [(0x40, true, [.raw])] ++
    [(0x50, true, [.bit]), (0x51, true, [.time]), (0x52, true, []), (0x53, true, [])] ++
    [(0x60, false, [.bit, .raw])] ++
    [(0x70, false, [.u 8]), (0x71, false, [.u 8, .u 16])]
  let inType := fun (cfg : Config) (t : OperandType) (v : Number) =>
    match t with
    | .u bits => ∃ n : Nat, v = n ∧ n ≤ 2 ^ bits - 1
    | .bit => v = 0 ∨ v = 1
    | .raw => ∃ n : Nat, v = n ∧ n ≤ cfg.adcRawMax
    | .time => ∃ n : Nat, v = n ∧ n < 2 ^ cfg.timeW
    | .num => True
    | .ftype => ∃ n : Nat, v = n ∧ n ≤ 255
  ∀ (cfg : Config) (code : Nat) (channel : Bool) (types : List OperandType), (code, channel, types) ∈ rows →
  ∀ (c : Chan) (operands : List Number), (if channel then c.val < cfg.nch else c = 0) →
    let answer := decode cfg ⟨BitVec.ofNat 16 (c.val * 4096 + code), operands⟩
    let fits := operands.length = types.length ∧
      ∀ (k : Nat) (t : OperandType) (v : Number), types[k]? = some t → operands[k]? = some v → inType cfg t v
    let badType := code = 0x10 ∧ ∃ v, operands[0]? = some v ∧ (v = 0 ∨ 8 ≤ v)
    let badParam := code = 0x31 ∧ ∃ cap deadZone, operands[3]? = some cap ∧ operands[5]? = some deadZone ∧
      (cap < 0 ∨ deadZone < 0)
    (¬ fits → answer = .refuse .badOperand) ∧
    (fits → badType → answer = .refuse .badFaultType) ∧
    (fits → badParam → answer = .refuse .badParam) ∧
    (fits → ¬ badType → ¬ badParam → ∃ i, answer = .ok i)

/-- The words of one command of each family, written out from the opcode map: fault, motor, PID, position, encoder, ADC
and register port. -/
def Obligations.HeaderWordsDecode : Prop :=
  ∀ (cfg : Config) (v : Number), cfg.nch = 16 →
    decode cfg ⟨0x0011, []⟩ = .ok .fltReset ∧
    decode cfg ⟨0x1020, [v]⟩ = .ok (.motSetspeed 1 v) ∧
    decode cfg ⟨0xF030, [v]⟩ = .ok (.pidSetreq 15 v) ∧
    decode cfg ⟨0xC040, [0]⟩ = .ok (.posSample 12 0) ∧
    decode cfg ⟨0x2052, []⟩ = .ok (.encOdoreset 2) ∧
    decode cfg ⟨0x0060, [1, 0]⟩ = .ok (.adcPoll true 0) ∧
    decode cfg ⟨0x0070, [7]⟩ = .ok (.regRead 7)

/-- Decoding an encoded command of a block gives the command back, every operand at every value its type admits. -/
def Obligations.DecodeOfEncode : Prop :=
  ∀ (cfg : Config) (i : Instr), i.WellFormed cfg → decode cfg (encode i) = .ok i

/-- A command that decodes is the encoding of what it decodes to, which the block accepts: no header or operand has
two meanings and none is dropped. -/
def Obligations.EncodeOfDecode : Prop :=
  ∀ (cfg : Config) (cmd : Command) (i : Instr),
    decode cfg cmd = .ok i → encode i = cmd ∧ i.WellFormed cfg

/-! ### The whole machine -/

/-- Every command completes, and so does every step: nothing stops the block. -/
def Obligations.NothingStopsTheBlock : Prop :=
  (∀ (i : Instr) (s : State), ∃ t, exec i s = .next t) ∧ ∀ s : State, ∃ t, step s = .next t

/-- The configuration never changes. -/
def Obligations.ConfigurationNeverChanges : Prop :=
  ∀ s t : State, step s = .next t → t.cfg = s.cfg

/-- The refused mark is false after reset, set by every refused command and by nothing else, and never cleared. -/
def Obligations.RefusedMarkIsSticky : Prop :=
  (∀ cfg : Config, (State.resetOf cfg).refused = false) ∧
  ∀ s t : State, step s = .next t →
    (s.refused = true → t.refused = true) ∧
    (s.refused = false →
      (t.refused = true ↔ ∃ cmd rest r, s.pending = cmd :: rest ∧ decode s.cfg cmd = .refuse r))

/-- Outputs and responses are recorded in order: what is recorded stays, and at most one response is added. -/
def Obligations.RecordOnlyGrows : Prop :=
  ∀ s t : State, step s = .next t →
    (∃ l, t.events = s.events ++ l) ∧
    (∃ l, t.responses = s.responses ++ l ∧ l.length ≤ 1)

/-! ### Reset -/

/-- The state right after reset, for every configuration. -/
def Obligations.ResetValues : Prop :=
  ∀ cfg : Config,
    let s := State.resetOf cfg
    (s.flt.active = true ∧ s.flt.ftype.code = 1 ∧ s.flt.origin = cfg.bootOrigin ∧ s.flt.mask = 0) ∧
    (∀ c, c < cfg.nch →
      (motAt s c).state.code = 0 ∧ (motAt s c).control = 0 ∧ (motAt s c).pwm = 0 ∧
      (motAt s c).dirA = false ∧ (motAt s c).dirB = false ∧
      (motAt s c).filtered = 0 ∧ (motAt s c).lastRaw = 0 ∧ (motAt s c).stallCnt = 0 ∧
      (motAt s c).stallEn = false) ∧
    (∀ c, c < cfg.nch →
      (pidAt s c).required = 0 ∧ (pidAt s c).actual = 0 ∧ (pidAt s c).error = 0 ∧
      (pidAt s c).integral = 0 ∧ (pidAt s c).derivative = 0 ∧ (pidAt s c).prevActual = 0 ∧
      (pidAt s c).output = 0 ∧ (pidAt s c).prevTime = 0 ∧
      (pidAt s c).params = (chanCfg cfg c).pidInit) ∧
    (∀ c, c < cfg.nch → (posAt s c).actual = 0) ∧
    (∀ c, c < cfg.nch →
      (encAt s c).ticks = 0 ∧ (encAt s c).negTicks = 0 ∧ (encAt s c).winStart = 0 ∧
      (encAt s c).freq = 0 ∧ (encAt s c).odometry = 0) ∧
    (s.adc.phase = .countdown ∧ s.adc.cur = 0 ∧ s.adc.cnt = 0) ∧
    (∀ id, s.plain.read id = 0) ∧
    s.refused = false

/-- Reset of a well-formed configuration gives a well-formed state that meets every invariant below. -/
def Obligations.ResetMeetsTheInvariants : Prop :=
  ∀ cfg : Config, cfg.WellFormed →
    (State.resetOf cfg).WellFormed ∧ (State.resetOf cfg).LinesMatch ∧ (State.resetOf cfg).HeldWhileFaulted ∧
    (State.resetOf cfg).AntiWindup ∧ (State.resetOf cfg).ControlMatches

/-! ### Fault register -/

/-- FLT_RAISE: a no-op while a fault is latched or for a disabled type; otherwise it latches type and origin and
stops every channel, in channel order, with one Dir event each (MOT_FAULTSTOP). That the control is FMT(0), where FMT is
not the identity, is the model's reading (notes/assumptions/10.md). -/
def Obligations.FltRaiseLatchesAndStopsEveryChannel : Prop :=
  ∀ (s : State) (ty : FaultType) (dev mot : BitVec 4), s.ch.length = s.cfg.nch →
    (encode (.fltRaise ty dev mot)).header = 0x0010 ∧
    ∃ t, exec (.fltRaise ty dev mot) s = .next t ∧
      (s.flt.active = true → t = s) ∧
      (s.flt.mask.getLsbD ty.code.toNat = true → t = s) ∧
      (s.flt.active = false → s.flt.mask.getLsbD ty.code.toNat = false →
        let brake := s.cfg.faultStopState = .brake
        t.flt = { active := true, ftype := ty, origin := ⟨dev, mot⟩, mask := s.flt.mask } ∧
        t.events = s.events ++ (List.range s.cfg.nch).map (fun c => .dir c (decide brake) (decide brake)) ∧
        t.ch.length = s.ch.length ∧
        (∀ c, c < s.cfg.nch →
          motAt t c =
            { motAt s c with
              state := if brake then .brake else .stop
              control := stored s 0
              dirA := decide brake
              dirB := decide brake
              pwm := if brake then s.cfg.maxDuty else 0
              stallCnt := 0 }) ∧
        t = { s with flt := t.flt, ch := t.ch, events := t.events })

/-- FLT_RESET: every channel's reset callback clears its stall count, then the fault is no longer active; type and origin
stay, no motor restarts, nothing is emitted. It is the only return: a command that leaves no fault latched where one was
is FLT_RESET itself or a write of a writable FaultResetTrigger register. -/
def Obligations.FltResetIsTheOnlyReturn : Prop :=
  (∀ s : State, s.ch.length = s.cfg.nch →
    (encode .fltReset).header = 0x0011 ∧
    ∃ t, exec .fltReset s = .next t ∧
      t.flt = { s.flt with active := false } ∧
      t.ch.length = s.ch.length ∧
      (∀ c, c < s.cfg.nch → motAt t c = { motAt s c with stallCnt := 0 }) ∧
      t = { s with flt := t.flt, ch := t.ch }) ∧
  ∀ (i : Instr) (s t : State), exec i s = .next t → s.flt.active = true → t.flt.active = false →
    i = .fltReset ∨
    ∃ id raw d, i = .regWrite id raw ∧ s.cfg.regmap[id.toNat]? = some d ∧
      d.writable = true ∧ d.binding = .faultResetTrigger

/-- FLT_SETMASK writes the mask and nothing else; a latched fault stays latched. Bit 0 of a mask disables no type. -/
def Obligations.FltSetmaskWritesTheMask : Prop :=
  ∀ (s : State) (m : Byte),
    (encode (.fltSetmask m)).header = 0x0012 ∧
    (∀ ty : FaultType, (m ||| 1).getLsbD ty.code.toNat = m.getLsbD ty.code.toNat) ∧
    ∃ t, exec (.fltSetmask m) s = .next t ∧ t.flt.mask = m ∧
      t.flt = { s.flt with mask := t.flt.mask } ∧ t = { s with flt := t.flt }

/-- The three getters of the fault register: the mask; the status byte, bit 0 the active flag and bits 7:1 zero,
the same byte through a FaultStatus register; the exception-data word type·256 + dev·16 + mot. They change no state. -/
def Obligations.FaultGetters : Prop :=
  ∀ s : State,
    ((encode .fltRdmask).header = 0x0013 ∧ (encode .fltRdstatus).header = 0x0014 ∧
      (encode .fltRddata).header = 0x0015) ∧
    (∃ t, exec .fltRdmask s = .next t ∧
      t.responses = s.responses ++ [.mask s.flt.mask] ∧ t = { s with responses := t.responses }) ∧
    (∃ t b, exec .fltRdstatus s = .next t ∧ t.responses = s.responses ++ [.status b] ∧
      b.getLsbD 0 = s.flt.active ∧ (∀ k, 0 < k → b.getLsbD k = false) ∧
      t = { s with responses := t.responses } ∧
      ∀ (id : Byte) (d : RegDesc), s.cfg.regmap[id.toNat]? = some d → d.binding = .faultStatus →
        ∃ u, exec (.regRead id) s = .next u ∧
          u.responses = s.responses ++ [.regRead 0 (b.setWidth 16)]) ∧
    (∃ t w, exec .fltRddata s = .next t ∧ t.responses = s.responses ++ [.data w] ∧
      w.toNat = s.flt.ftype.code.toNat * 256 + s.flt.origin.dev.toNat * 16 + s.flt.origin.mot.toNat ∧
      t = { s with responses := t.responses })

/-- First fault wins: a raise of a type that is not disabled, with none latched, fixes type and origin; while one is latched
every raise is a no-op, and no command replaces the type or the origin of a fault that stays latched. -/
def Obligations.FirstFaultWins : Prop :=
  ∀ s : State,
    (∀ (ty : FaultType) (dev mot : BitVec 4),
      s.flt.active = false → s.flt.mask.getLsbD ty.code.toNat = false →
      ∃ t, exec (.fltRaise ty dev mot) s = .next t ∧
        t.flt.active = true ∧ t.flt.ftype = ty ∧ t.flt.origin = ⟨dev, mot⟩) ∧
    (s.flt.active = true →
      (∀ (ty : FaultType) (dev mot : BitVec 4), exec (.fltRaise ty dev mot) s = .next s) ∧
      ∀ (i : Instr) (t : State), exec i s = .next t → t.flt.active = true →
        t.flt.ftype = s.flt.ftype ∧ t.flt.origin = s.flt.origin)

/-- Each fault has its cause: which command raises it, on which condition, as which type and with which origin; and
its type is not disabled. -/
def Obligations.EveryFaultHasItsCause : Prop :=
  ∀ (i : Instr) (s t : State), exec i s = .next t → s.flt.active = false → t.flt.active = true →
    let dev := s.cfg.deviceIndex
    let currentFault := fun (c raw : Nat) =>
      (chanCfg s.cfg c).ocThreshold < raw ∧ t.flt.origin = ⟨dev, BitVec.ofNat 4 c⟩ ∧
      t.flt.ftype =
        (if (chanCfg s.cfg c).highControl < |(motAt s c).control| then FaultType.overcurrent else .short)
    let measuredValue := fun (c : Nat) =>
      match (chanCfg s.cfg c).role with
      | .position => (posAt s c).actual
      | .speed => (encAt s c).freq
    let stallFault := fun (c : Nat) =>
      (motAt s c).stallEn = true ∧
      |measuredValue c - (pidAt s c).prevActual| < (chanCfg s.cfg c).stallSpeedEps ∧
      (chanCfg s.cfg c).stallCtrl < |(motAt s c).control| ∧
      (chanCfg s.cfg c).stallDebounce ≤ (motAt s c).stallCnt ∧
      t.flt.origin = ⟨dev, BitVec.ofNat 4 c⟩ ∧
      t.flt.ftype =
        (if (chanCfg s.cfg c).iNominal ≤ (motAt s c).lastRaw then FaultType.stall
         else if (chanCfg s.cfg c).iZero ≤ (motAt s c).lastRaw then .encoderFault
         else .driveFault)
    s.flt.mask.getLsbD t.flt.ftype.code.toNat = false ∧
    ((∃ ty d m, i = .fltRaise ty d m ∧ t.flt.ftype = ty ∧ t.flt.origin = ⟨d, m⟩) ∨
     (∃ c raw, i = .motSetcurrent c raw ∧ currentFault c.val raw) ∨
     (∃ raw e, i = .adcPoll true raw ∧ s.adc.phase = .waiting ∧ s.cfg.adcTable[s.adc.cur]? = some e ∧
        e.typeTag = .current ∧ currentFault e.listener raw) ∨
     (∃ c now, i = .pidTick c now ∧ (pidAt s c.val).prevTime ≤ now ∧ stallFault c.val))

/-! ### Motor -/

/-- MOT_SETSPEED while no fault is latched: the control is the clamped command; the drive state follows its sign, with
STOP for 0; the duty is the floor of its magnitude (0 for STOP); the lines are rewritten, with one Dir event, only when the drive
state changes. While a fault is latched the command has no effect. That the drive state and the duty follow the exact clamped
command and not FMT of it, which the control holds, is the model's reading (notes/assumptions/10.md). -/
def Obligations.MotSetspeedDrivesBySign : Prop :=
  ∀ (s : State) (c : Chan) (v : Number), c.val < s.ch.length →
    (encode (.motSetspeed c v)).header = BitVec.ofNat 16 (c.val * 4096 + 0x20) ∧
    ∃ t, exec (.motSetspeed c v) s = .next t ∧
      (s.flt.active = true → t = s) ∧
      (s.flt.active = false →
        let ctl := min (max v (-(s.cfg.maxDuty : Number))) (s.cfg.maxDuty : Number)
        let target := if 0 < ctl then DriveState.forward else if ctl < 0 then .reverse else .stop
        let changed := target ≠ (motAt s c.val).state
        let a := decide (0 < ctl)
        let b := decide (ctl < 0)
        motAt t c.val =
          { motAt s c.val with
            control := stored s ctl
            state := target
            pwm := if ctl = 0 then 0 else (Rat.floor |ctl|).toNat
            dirA := if changed then a else (motAt s c.val).dirA
            dirB := if changed then b else (motAt s c.val).dirB } ∧
        t.events = (if changed then s.events ++ [.dir c.val a b] else s.events) ∧
        (∀ d, d ≠ c.val → motAt t d = motAt s d) ∧ t.ch.length = s.ch.length ∧
        t = { s with ch := t.ch, events := t.events })

/-- MOT_SETSPEED never enters BRAKE. A step that puts a channel in BRAKE latches a fault in a block whose fault state is
BRAKE, and no channel is in BRAKE after reset: so in a block whose fault state is STOP none ever is. -/
def Obligations.BrakeOnlyByFaultResponse : Prop :=
  (∀ (s t : State) (c : Chan) (v : Number) (d : Nat), exec (.motSetspeed c v) s = .next t →
    (motAt t d).state = .brake → (motAt s d).state = .brake) ∧
  (∀ (s t : State) (d : Nat), step s = .next t →
    (motAt t d).state = .brake → (motAt s d).state ≠ .brake →
    s.cfg.faultStopState = .brake ∧ s.flt.active = false ∧ t.flt.active = true) ∧
  ∀ (cfg : Config) (d : Nat), (motAt (State.resetOf cfg) d).state ≠ .brake

/-- MOT_SETCURRENT: the filter moves by the rising or the falling coefficient and the raw sample is kept; a sample above
the threshold then performs FLT_RAISE with origin (DEVICE_INDEX, c), OVERCURRENT under a high control and SHORT
otherwise; a sample at or below it raises nothing. -/
def Obligations.MotSetcurrentFiltersAndClassifies : Prop :=
  ∀ (s : State) (c : Chan) (raw : Nat), c.val < s.ch.length →
    (encode (.motSetcurrent c raw)).header = BitVec.ofNat 16 (c.val * 4096 + 0x21) ∧
    ∃ t u, exec (.motSetcurrent c raw) s = .next t ∧
      (let b := motAt s c.val
       let k := chanCfg s.cfg c.val
       let alpha := if b.filtered < (raw : Number) then k.alphaRise else k.alphaFall
       motAt u c.val =
          { b with filtered := stored s (b.filtered + alpha * ((raw : Number) - b.filtered)), lastRaw := raw } ∧
        (∀ d, d ≠ c.val → motAt u d = motAt s d) ∧ u.ch.length = s.ch.length ∧ u = { s with ch := u.ch } ∧
        (raw ≤ k.ocThreshold → t = u) ∧
        (k.ocThreshold < raw → k.highControl < |b.control| →
          exec (.fltRaise .overcurrent s.cfg.deviceIndex (BitVec.ofNat 4 c.val)) u = .next t) ∧
        (k.ocThreshold < raw → |b.control| ≤ k.highControl →
          exec (.fltRaise .short s.cfg.deviceIndex (BitVec.ofNat 4 c.val)) u = .next t))

/-- MOT_SETSTALLEN writes the enable and restarts the debounce. -/
def Obligations.MotSetstallenRestartsTheDebounce : Prop :=
  ∀ (s : State) (c : Chan) (en : Bool), c.val < s.ch.length →
    (encode (.motSetstallen c en)).header = BitVec.ofNat 16 (c.val * 4096 + 0x22) ∧
    ∃ t, exec (.motSetstallen c en) s = .next t ∧
      motAt t c.val = { motAt s c.val with stallEn := en, stallCnt := 0 } ∧
      (∀ d, d ≠ c.val → motAt t d = motAt s d) ∧ t.ch.length = s.ch.length ∧ t = { s with ch := t.ch }

/-- STALL_CHECK: nothing when disabled; the count restarts when the condition fails and counts a tick when it holds; past
the debounce it restarts and FLT_RAISE is performed with the type of the current band of the last raw sample. -/
def Obligations.StallCheckCountsAndClassifies : Prop :=
  ∀ (s : State) (c : Chan) (speed : Number), c.val < s.ch.length →
    let b := motAt s c.val
    let k := chanCfg s.cfg c.val
    let u := stallCheck c.val speed s
    let holds := speed < k.stallSpeedEps ∧ k.stallCtrl < |b.control|
    (b.stallEn = false → u = s) ∧
    (b.stallEn = true → ¬ holds → u = setMot s c.val { b with stallCnt := 0 }) ∧
    (b.stallEn = true → holds → b.stallCnt + 1 ≤ k.stallDebounce →
      u = setMot s c.val { b with stallCnt := b.stallCnt + 1 }) ∧
    (b.stallEn = true → holds → k.stallDebounce < b.stallCnt + 1 →
      exec
        (.fltRaise
          (if k.iNominal ≤ b.lastRaw then .stall else if k.iZero ≤ b.lastRaw then .encoderFault else .driveFault)
          s.cfg.deviceIndex (BitVec.ofNat 4 c.val))
        (setMot s c.val { b with stallCnt := 0 }) = .next u)

/-- The debounce: from a count of 0, checks that meet the condition count up without a fault for STALL_DEBOUNCE ticks, and
the next one latches the fault of the current band, unless its type is disabled. -/
def Obligations.StallLatchesAfterTheDebounce : Prop :=
  ∀ (s : State) (c : Chan) (speed : Number), c.val < s.cfg.nch → s.ch.length = s.cfg.nch →
    let b := motAt s c.val
    let k := chanCfg s.cfg c.val
    let ty := if k.iNominal ≤ b.lastRaw then FaultType.stall else if k.iZero ≤ b.lastRaw then .encoderFault else .driveFault
    b.stallEn = true → b.stallCnt = 0 → speed < k.stallSpeedEps → k.stallCtrl < |b.control| →
    s.flt.active = false → s.flt.mask.getLsbD ty.code.toNat = false →
    (∀ n, n ≤ k.stallDebounce →
      (stallCheck c.val speed)^[n] s = setMot s c.val { b with stallCnt := n }) ∧
    (let t := (stallCheck c.val speed)^[k.stallDebounce + 1] s
     t.flt.active = true ∧ t.flt.ftype = ty ∧ t.flt.origin = ⟨s.cfg.deviceIndex, BitVec.ofNat 4 c.val⟩ ∧
     (motAt t c.val).stallCnt = 0)

/-- The three getters of a channel: the motor bank with the 2-bit state code, the PID snapshot, the frequency and the
odometry. They change no state. -/
def Obligations.ChannelGetters : Prop :=
  ∀ (s : State) (c : Chan), c.val < s.cfg.nch →
    ((encode (.motRdstate c)).header = BitVec.ofNat 16 (c.val * 4096 + 0x23) ∧
      (encode (.pidRdsnap c)).header = BitVec.ofNat 16 (c.val * 4096 + 0x33) ∧
      (encode (.encRdfreq c)).header = BitVec.ofNat 16 (c.val * 4096 + 0x53)) ∧
    (∃ t r, exec (.motRdstate c) s = .next t ∧ t.responses = s.responses ++ [.motState r] ∧
      t = { s with responses := t.responses } ∧
      r.state.toNat =
        (match (motAt s c.val).state with | .stop => 0 | .brake => 1 | .forward => 2 | .reverse => 3) ∧
      r.control = (motAt s c.val).control ∧ r.pwm = (motAt s c.val).pwm ∧
      r.dirA = (motAt s c.val).dirA ∧ r.dirB = (motAt s c.val).dirB ∧
      r.filtered = (motAt s c.val).filtered ∧ r.lastRaw = (motAt s c.val).lastRaw ∧
      r.stallEn = (motAt s c.val).stallEn) ∧
    (∃ t r, exec (.pidRdsnap c) s = .next t ∧ t.responses = s.responses ++ [.pidSnap r] ∧
      t = { s with responses := t.responses } ∧
      r.required = (pidAt s c.val).required ∧ r.actual = (pidAt s c.val).actual ∧
      r.error = (pidAt s c.val).error ∧ r.integral = (pidAt s c.val).integral ∧
      r.derivative = (pidAt s c.val).derivative ∧ r.output = (pidAt s c.val).output ∧
      r.params = (pidAt s c.val).params) ∧
    (∃ t, exec (.encRdfreq c) s = .next t ∧
      t.responses = s.responses ++ [.encFreq (encAt s c.val).freq (encAt s c.val).odometry] ∧
      t = { s with responses := t.responses })

/-! ### PID -/

/-- PID_SETREQ writes the setpoint of its channel and nothing else, whether or not a fault is latched. -/
def Obligations.PidSetreqWritesTheSetpoint : Prop :=
  ∀ (s : State) (c : Chan) (v : Number), c.val < s.pid.length →
    (encode (.pidSetreq c v)).header = BitVec.ofNat 16 (c.val * 4096 + 0x30) ∧
    ∃ t, exec (.pidSetreq c v) s = .next t ∧
      pidAt t c.val = { pidAt s c.val with required := stored s v } ∧
      (∀ d, d ≠ c.val → pidAt t d = pidAt s d) ∧ t.pid.length = s.pid.length ∧ t = { s with pid := t.pid }

/-- PID_SETPARAMS writes the six parameters and clamps the integral to the new cap, which is the operand (the model's reading
where FMT is not the identity, notes/assumptions/10.md). -/
def Obligations.PidSetparamsWritesAndReclamps : Prop :=
  ∀ (s : State) (c : Chan) (pGain iGain dGain iCap decay deadZone : Number), c.val < s.pid.length →
    (encode (.pidSetparams c pGain iGain dGain iCap decay deadZone)).header =
      BitVec.ofNat 16 (c.val * 4096 + 0x31) ∧
    ∃ t, exec (.pidSetparams c pGain iGain dGain iCap decay deadZone) s = .next t ∧
      pidAt t c.val =
        { pidAt s c.val with
          params := ⟨stored s pGain, stored s iGain, stored s dGain, stored s iCap, stored s decay, stored s deadZone⟩
          integral := stored s (min (max (pidAt s c.val).integral (-iCap)) iCap) } ∧
      (∀ d, d ≠ c.val → pidAt t d = pidAt s d) ∧ t.pid.length = s.pid.length ∧ t = { s with pid := t.pid }

/-- PID_TICK on a time below the previous tick's: bookkeeping only. The time stamp, the previous measurement and the
recorded measurement are updated; nothing else of the block changes. -/
def Obligations.PidTickBackwardsTimeIsBookkeeping : Prop :=
  ∀ (s : State) (c : Chan) (now : Nat), c.val < s.pid.length → now < (pidAt s c.val).prevTime →
    ∃ t, exec (.pidTick c now) s = .next t ∧
      (let a := match (chanCfg s.cfg c.val).role with
        | .position => (posAt s c.val).actual
        | .speed => (encAt s c.val).freq
       pidAt t c.val = { pidAt s c.val with prevTime := now, prevActual := stored s a, actual := stored s a }) ∧
      (∀ d, d ≠ c.val → pidAt t d = pidAt s d) ∧ t.pid.length = s.pid.length ∧ t = { s with pid := t.pid }

/-- PID_TICK. The measured value a is chosen by the role. A time below the previous tick's is bookkeeping only; any other
corrects: u is the state with the bank updated (error with its dead zone, integral added to, decayed and clamped,
derivative on the measurement, output); w is u after STALL_CHECK on |Δactual|; if a fault is then latched the setpoint is
snapped to a and nothing is driven, and otherwise MOT_SETSPEED takes the output. That the locals are exact where FMT is not
the identity is the model's reading (notes/assumptions/10.md). -/
def Obligations.PidTickRunsTheController : Prop :=
  ∀ (s : State) (c : Chan) (now : Nat), c.val < s.pid.length →
    (encode (.pidTick c now)).header = BitVec.ofNat 16 (c.val * 4096 + 0x32) ∧
    ∃ t u w, exec (.pidTick c now) s = .next t ∧
      (let p := pidAt s c.val
       let a := match (chanCfg s.cfg c.val).role with
        | .position => (posAt s c.val).actual
        | .speed => (encAt s c.val).freq
       let e := if |p.required - a| < p.params.deadZone then 0 else p.required - a
       let i := min (max ((p.integral + e) * p.params.decay) (-p.params.iCap)) p.params.iCap
       let d := -(a - p.prevActual)
       let out := p.params.pGain * e + p.params.iGain * i + p.params.dGain * d
       (now < p.prevTime →
         t = setPid s c.val { p with prevTime := now, prevActual := stored s a, actual := stored s a }) ∧
       (p.prevTime ≤ now →
         pidAt u c.val =
           { p with
             actual := stored s a
             error := stored s e
             integral := stored s i
             derivative := stored s d
             output := stored s out
             prevActual := stored s a
             prevTime := now } ∧
         (∀ x, x ≠ c.val → pidAt u x = pidAt s x) ∧ u.pid.length = s.pid.length ∧ u = { s with pid := u.pid } ∧
         w = stallCheck c.val |a - p.prevActual| u ∧
         (w.flt.active = true → t = setPid w c.val { pidAt w c.val with required := stored s a }) ∧
         (w.flt.active = false → exec (.motSetspeed c out) w = .next t)))

/-- A correcting tick while a fault is latched: the estimator runs, the setpoint is snapped to the measured value, the
fault stays as it is, no output is emitted and no drive changes. Exact locals: notes/assumptions/10.md. -/
def Obligations.PidTickHoldsTheDriveWhileFaulted : Prop :=
  ∀ (s : State) (c : Chan) (now : Nat), c.val < s.pid.length → (pidAt s c.val).prevTime ≤ now →
    s.flt.active = true →
    ∃ t, exec (.pidTick c now) s = .next t ∧
      (let p := pidAt s c.val
       let a := match (chanCfg s.cfg c.val).role with
        | .position => (posAt s c.val).actual
        | .speed => (encAt s c.val).freq
       let e := if |p.required - a| < p.params.deadZone then 0 else p.required - a
       let i := min (max ((p.integral + e) * p.params.decay) (-p.params.iCap)) p.params.iCap
       let d := -(a - p.prevActual)
       pidAt t c.val =
         { p with
           required := stored s a
           actual := stored s a
           error := stored s e
           integral := stored s i
           derivative := stored s d
           output := stored s (p.params.pGain * e + p.params.iGain * i + p.params.dGain * d)
           prevActual := stored s a
           prevTime := now }) ∧
      (∀ x, x ≠ c.val → pidAt t x = pidAt s x) ∧
      (∀ x, motAt t x = { motAt s x with stallCnt := (motAt t x).stallCnt }) ∧
      (∀ x, x ≠ c.val → motAt t x = motAt s x) ∧
      t = { s with pid := t.pid, ch := t.ch }

/-- No derivative kick: two states that differ only in the setpoint of a channel leave the same derivative, and the same
measurement, after one tick. -/
def Obligations.SetpointDoesNotKickTheDerivative : Prop :=
  ∀ (s t t' : State) (c : Chan) (now : Nat) (v : Number), c.val < s.pid.length →
    exec (.pidTick c now) s = .next t →
    exec (.pidTick c now) (setPid s c.val { pidAt s c.val with required := v }) = .next t' →
    (pidAt t' c.val).derivative = (pidAt t c.val).derivative ∧ (pidAt t' c.val).actual = (pidAt t c.val).actual

/-- Anti-windup: with the identity FMT, the integral of a block with well-formed configuration is within ±iCap after reset,
and no step takes it out. -/
def Obligations.StepKeepsAntiWindup : Prop :=
  (∀ cfg : Config, cfg.WellFormed → (State.resetOf cfg).AntiWindup) ∧
  ∀ s t : State, s.cfg.WellFormed → s.cfg.fmt = .identity → s.AntiWindup → step s = .next t → t.AntiWindup

/-! ### Position and encoder -/

/-- POS_SAMPLE: the linear remap through the two calibration points, not clamped, stored whatever the role. -/
def Obligations.PosSampleRemaps : Prop :=
  ∀ (s : State) (c : Chan) (raw : Nat), c.val < s.pos.length →
    (encode (.posSample c raw)).header = BitVec.ofNat 16 (c.val * 4096 + 0x40) ∧
    ∃ t, exec (.posSample c raw) s = .next t ∧
      (let k := chanCfg s.cfg c.val
       (posAt t c.val).actual =
        stored s (k.engMin + ((raw : Number) - k.calMin) * (k.engMax - k.engMin) / ((k.calMax : Number) - k.calMin))) ∧
      (∀ d, d ≠ c.val → posAt t d = posAt s d) ∧ t.pos.length = s.pos.length ∧ t = { s with pos := t.pos }

/-- With the identity FMT, the remap takes the two calibration points to their engineering values, in either
order. -/
def Obligations.PotentiometerMeetsItsCalibration : Prop :=
  ∀ (s t t' : State) (c : Chan), c.val < s.pos.length → s.cfg.fmt = .identity →
    (chanCfg s.cfg c.val).calMin ≠ (chanCfg s.cfg c.val).calMax →
    exec (.posSample c (chanCfg s.cfg c.val).calMin) s = .next t →
    exec (.posSample c (chanCfg s.cfg c.val).calMax) s = .next t' →
    (posAt t c.val).actual = (chanCfg s.cfg c.val).engMin ∧ (posAt t' c.val).actual = (chanCfg s.cfg c.val).engMax

/-- ENC_EDGE counts the edge, counts it as reversed at the reverse level, and counts it in the odometry; each counter
wraps at its width. -/
def Obligations.EncEdgeCounts : Prop :=
  ∀ (s : State) (c : Chan) (level : Bool), c.val < s.enc.length →
    (encode (.encEdge c level)).header = BitVec.ofNat 16 (c.val * 4096 + 0x50) ∧
    ∃ t, exec (.encEdge c level) s = .next t ∧
      (let e := encAt s c.val
       encAt t c.val =
        { e with
          ticks := (e.ticks + 1) % 2 ^ s.cfg.encCntW
          negTicks :=
            if level = (chanCfg s.cfg c.val).encReverseLevel then (e.negTicks + 1) % 2 ^ s.cfg.encCntW else e.negTicks
          odometry := (e.odometry + 1) % 2 ^ s.cfg.odoW }) ∧
      (∀ d, d ≠ c.val → encAt t d = encAt s d) ∧ t.enc.length = s.enc.length ∧ t = { s with enc := t.enc }

/-- ENC_POLL: a backwards time restarts the window and keeps the frequency; before the window has elapsed nothing
changes; a completed window gives ticks·10^6/elapsed, negative when more than a third of the edges were reversed, and
restarts. The odometry is never written. -/
def Obligations.EncPollMeasuresTheWindow : Prop :=
  ∀ (s : State) (c : Chan) (now : Nat), c.val < s.enc.length →
    (encode (.encPoll c now)).header = BitVec.ofNat 16 (c.val * 4096 + 0x51) ∧
    ∃ t, exec (.encPoll c now) s = .next t ∧
      (let e := encAt s c.val
       let el := now - e.winStart
       let f := (e.ticks : Number) * 1000000 / (el : Number)
       (now < e.winStart → encAt t c.val = { e with winStart := now, ticks := 0, negTicks := 0 }) ∧
       (e.winStart ≤ now → el < (chanCfg s.cfg c.val).encWindowUs → t = s) ∧
       (e.winStart ≤ now → (chanCfg s.cfg c.val).encWindowUs ≤ el →
          encAt t c.val =
            { e with
              freq := stored s (if (e.ticks : Number) / 3 < (e.negTicks : Number) then -f else f)
              ticks := 0
              negTicks := 0
              winStart := now })) ∧
      (∀ d, d ≠ c.val → encAt t d = encAt s d) ∧ t.enc.length = s.enc.length ∧ t = { s with enc := t.enc }

/-- ENC_ODORESET clears the odometry and touches neither the window nor the frequency. Nothing else clears it: a command that
changes the odometry of a channel is an edge of that channel, which counts it, or its ENC_ODORESET, directly or through a
write of a register bound to it. -/
def Obligations.EncOdoresetIsTheOnlyClear : Prop :=
  (∀ (s : State) (c : Chan), c.val < s.enc.length →
    (encode (.encOdoreset c)).header = BitVec.ofNat 16 (c.val * 4096 + 0x52) ∧
    ∃ t, exec (.encOdoreset c) s = .next t ∧
      encAt t c.val = { encAt s c.val with odometry := 0 } ∧
      (∀ d, d ≠ c.val → encAt t d = encAt s d) ∧ t.enc.length = s.enc.length ∧ t = { s with enc := t.enc }) ∧
  ∀ (i : Instr) (s t : State) (d : Nat), exec i s = .next t → (encAt t d).odometry ≠ (encAt s d).odometry →
    (∃ c level, i = .encEdge c level ∧ c.val = d ∧ (encAt t d).odometry = ((encAt s d).odometry + 1) % 2 ^ s.cfg.odoW) ∨
    ((encAt t d).odometry = 0 ∧
      ((∃ c, i = .encOdoreset c ∧ c.val = d) ∨
       ∃ id raw r, i = .regWrite id raw ∧ s.cfg.regmap[id.toNat]? = some r ∧ r.writable = true ∧
         r.binding = .encOdometry d))

/-! ### ADC scheduler -/

/-- ADC_POLL: nothing with an empty table; in COUNTDOWN it counts the delay down and then starts the conversion of the
registration being serviced; in WAITING it waits for done, then performs MOT_SETCURRENT or POS_SAMPLE on the listener as
the tag says, and moves on to the next registration in table order. -/
def Obligations.AdcPollServicesTheTable : Prop :=
  ∀ (s : State) (done : Bool) (raw : Nat),
    (encode (.adcPoll done raw)).header = 0x0060 ∧
    ∃ t, exec (.adcPoll done raw) s = .next t ∧
      (s.cfg.adcTable = [] → t = s) ∧
      ∀ e, s.cfg.adcTable[s.adc.cur]? = some e →
        (s.adc.phase = .countdown → s.adc.cnt = 0 →
          t = { s with
            adc := { phase := .waiting, cur := s.adc.cur, cnt := 0 }
            events := s.events ++ [.adcStart e.adcChannel] }) ∧
        (s.adc.phase = .countdown → 0 < s.adc.cnt →
          t = { s with adc := { phase := .countdown, cur := s.adc.cur, cnt := s.adc.cnt - 1 } }) ∧
        (s.adc.phase = .waiting → done = false → t = s) ∧
        (s.adc.phase = .waiting → done = true →
          t.adc =
            { phase := .countdown
              cur := if s.adc.cur + 1 = s.cfg.adcTable.length then 0 else s.adc.cur + 1
              cnt := s.cfg.adcDelay } ∧
          ∀ c : Chan, c.val = e.listener →
            ∃ u, t = { u with adc := t.adc } ∧
              (e.typeTag = .current → exec (.motSetcurrent c raw) s = .next u) ∧
              (e.typeTag = .position → exec (.posSample c raw) s = .next u))

/-! ### Register port -/

/-- The two scales of a register; its ends map to the ends of the raw range; every v of the domain comes back from unmap within
one quantization step below v. -/
def Obligations.MapUnmapWithinOneStep : Prop :=
  ∀ d : RegDesc, (d.size = 1 ∨ d.size = 2) → d.min < d.max →
    mapRaw d d.min = 0 ∧ mapRaw d d.max = 2 ^ (8 * d.size) - 1 ∧
    (∀ raw : Nat, unmapRaw d raw =
      d.min + (raw : Number) * (d.max - d.min) / ((2 ^ (8 * d.size) - 1 : Nat) : Number)) ∧
    ∀ v : Number, d.min ≤ v → v ≤ d.max →
      (mapRaw d v : Int) =
        Rat.floor ((v - d.min) * ((2 ^ (8 * d.size) - 1 : Nat) : Number) / (d.max - d.min)) ∧
      mapRaw d v ≤ 2 ^ (8 * d.size) - 1 ∧
      0 ≤ v - unmapRaw d (mapRaw d v) ∧
      v - unmapRaw d (mapRaw d v) < (d.max - d.min) / ((2 ^ (8 * d.size) - 1 : Nat) : Number)

/-- The bytes of a 2-byte raw value travel low byte first and give the value back as high·256 + low; a 1-byte register has
one byte. -/
def Obligations.PortIsLittleEndian : Prop :=
  ∀ (d : RegDesc) (raw : Word16),
    (d.size = 2 → ∃ low high, portBytes d raw = [low, high] ∧ raw.toNat = high.toNat * 256 + low.toNat ∧
      rawOfBytes (portBytes d raw) = raw) ∧
    (d.size = 1 → ∃ low, portBytes d raw = [low] ∧ low.toNat = raw.toNat % 256 ∧
      (raw.toNat < 256 → rawOfBytes (portBytes d raw) = raw))

/-- REG_READ answers (1, 0) for an id outside the table and otherwise status 0 with the raw value of its binding: a raw
kind unmapped, where the exception-data word saturates in a register it does not fit, a Number clamped into the domain and
mapped, rounding down. It changes no state. The saturation of the word is R117's corner case (notes/assumptions/9.md). -/
def Obligations.RegReadAnswersTheBinding : Prop :=
  ∀ (s : State) (id : Byte),
    (encode (.regRead id)).header = 0x0070 ∧
    ∃ t status raw, exec (.regRead id) s = .next t ∧
      t.responses = s.responses ++ [.regRead status raw] ∧ t = { s with responses := t.responses } ∧
      (s.cfg.regmap.length ≤ id.toNat → status = 1 ∧ raw = 0) ∧
      ∀ d, s.cfg.regmap[id.toNat]? = some d → status = 0 ∧
        (d.binding = .faultStatus → raw.toNat = if s.flt.active then 1 else 0) ∧
        (d.binding = .faultData →
          let word := s.flt.ftype.code.toNat * 256 + s.flt.origin.dev.toNat * 16 + s.flt.origin.mot.toNat
          (d.size = 2 → raw.toNat = word) ∧
          (d.size = 1 → raw.toNat = if word ≤ 255 then word else 255)) ∧
        (d.binding = .faultMask → raw.toNat = s.flt.mask.toNat) ∧
        (d.binding = .faultResetTrigger → raw.toNat = 0) ∧
        (∀ c, d.binding = .motorState c → raw.toNat = (motAt s c).state.code.toNat) ∧
        (∀ c, d.binding = .stallEnable c → raw.toNat = if (motAt s c).stallEn then 1 else 0) ∧
        (∀ c, d.binding = .encOdometry c → d.size ≤ 2 → raw.toNat = (encAt s c).odometry % 2 ^ (8 * d.size)) ∧
        (d.binding = .plain → raw = s.plain.read id.toNat) ∧
        (∀ c v, ((d.binding = .pidRequired c ∧ v = (pidAt s c).required) ∨
                 (d.binding = .pidActual c ∧ v = (pidAt s c).actual) ∨
                 (d.binding = .pidParam c .pGain ∧ v = (pidAt s c).params.pGain) ∨
                 (d.binding = .pidParam c .iGain ∧ v = (pidAt s c).params.iGain) ∨
                 (d.binding = .pidParam c .dGain ∧ v = (pidAt s c).params.dGain) ∨
                 (d.binding = .pidParam c .iCap ∧ v = (pidAt s c).params.iCap) ∨
                 (d.binding = .pidParam c .decay ∧ v = (pidAt s c).params.decay) ∨
                 (d.binding = .pidParam c .deadZone ∧ v = (pidAt s c).params.deadZone) ∨
                 (d.binding = .motorControl c ∧ v = (motAt s c).control) ∨
                 (d.binding = .motorFiltered c ∧ v = (motAt s c).filtered) ∨
                 (d.binding = .encFreq c ∧ v = (encAt s c).freq)) →
          (d.size = 1 ∨ d.size = 2) → d.min < d.max →
          (raw.toNat : Int) =
            Rat.floor
              ((min (max v d.min) d.max - d.min) * ((2 ^ (8 * d.size) - 1 : Nat) : Number) / (d.max - d.min)))

/-- REG_WRITE outside the table answers 1, on a register that is not writable 2, and changes nothing; otherwise it
answers 0 after the setter of its binding, on the low byte only for a 1-byte register. -/
def Obligations.RegWriteSetsTheBinding : Prop :=
  ∀ (s : State) (id : Byte) (raw : Word16),
    (encode (.regWrite id raw)).header = 0x0071 ∧
    ∃ t status, exec (.regWrite id raw) s = .next t ∧
      (s.cfg.regmap.length ≤ id.toNat → status = 1 ∧ t = { s with responses := t.responses }) ∧
      (∃ u, t = { u with responses := t.responses } ∧ t.responses = s.responses ++ [.regWrite status] ∧
        ∀ d, s.cfg.regmap[id.toNat]? = some d →
          (d.writable = false → status = 2 ∧ u = s) ∧
          (d.writable = true → status = 0 ∧
            let r := if d.size = 1 then raw.toNat % 256 else raw.toNat
            let v := d.min + (r : Number) * (d.max - d.min) / ((2 ^ (8 * d.size) - 1 : Nat) : Number)
            (d.binding = .faultMask → r < 256 → exec (.fltSetmask (BitVec.ofNat 8 r)) s = .next u) ∧
            (d.binding = .faultResetTrigger → exec .fltReset s = .next u) ∧
            (∀ c : Chan, d.binding = .pidRequired c.val → exec (.pidSetreq c v) s = .next u) ∧
            (∀ (c : Chan) (k : PidParamName), d.binding = .pidParam c.val k →
              let q := (pidAt s c.val).params
              exec
                (.pidSetparams c
                  (if k = .pGain then v else q.pGain) (if k = .iGain then v else q.iGain)
                  (if k = .dGain then v else q.dGain) (if k = .iCap then v else q.iCap)
                  (if k = .decay then v else q.decay) (if k = .deadZone then v else q.deadZone)) s = .next u) ∧
            (∀ c : Chan, d.binding = .stallEnable c.val →
              exec (.motSetstallen c (decide (r % 2 = 1))) s = .next u) ∧
            (∀ c : Chan, d.binding = .encOdometry c.val → exec (.encOdoreset c) s = .next u) ∧
            (d.binding = .plain → s.plain.wf = true →
              u.plain.read id.toNat = BitVec.ofNat 16 r ∧
              (∀ other, other ≠ id.toNat → u.plain.read other = s.plain.read other) ∧
              u = { s with plain := u.plain })))

/-- The model's own choice (notes/assumptions/8.md): a value that does not fit the 8-bit mask, written to a 2-byte
FaultMask register, leaves a free value in the mask and draws it; nothing else changes. -/
def Obligations.WideMaskWriteIsFree : Prop :=
  ∀ (s : State) (id : Byte) (raw : Word16) (d : RegDesc),
    s.cfg.regmap[id.toNat]? = some d → d.writable = true → d.binding = .faultMask → d.size = 2 → 256 ≤ raw.toNat →
    ∃ t m, exec (.regWrite id raw) s = .next t ∧ t.flt = { s.flt with mask := m } ∧
      t.responses = s.responses ++ [.regWrite 0] ∧
      t = { s with flt := t.flt, responses := t.responses, freeDraws := s.freeDraws + 1 }

/-- A plain register reads 0 after reset and reads back what was written to it, and only it changed. The raw value is one its
width holds. -/
def Obligations.PlainRegisterReadsBack : Prop :=
  (∀ (cfg : Config) (id : Byte) (d : RegDesc), cfg.regmap[id.toNat]? = some d → d.binding = .plain →
    ∃ u, exec (.regRead id) (State.resetOf cfg) = .next u ∧ u.responses = [.regRead 0 0]) ∧
  ∀ (s : State) (id other : Byte) (raw : Word16) (d e : RegDesc),
    s.plain.wf = true →
    s.cfg.regmap[id.toNat]? = some d → d.binding = .plain → d.writable = true →
    (d.size = 2 ∨ d.size = 1 ∧ raw.toNat < 256) →
    s.cfg.regmap[other.toNat]? = some e → e.binding = .plain →
    ∃ t, exec (.regWrite id raw) s = .next t ∧
      (∃ u, exec (.regRead id) t = .next u ∧ u.responses = t.responses ++ [.regRead 0 raw]) ∧
      (other ≠ id → ∃ u w v, exec (.regRead other) t = .next u ∧ exec (.regRead other) s = .next w ∧
        u.responses = t.responses ++ [.regRead 0 v] ∧ w.responses = s.responses ++ [.regRead 0 v])

/-- Writing a trigger register twice has the effect of writing it once: the fault reset and the odometry reset. -/
def Obligations.TriggerWritesAreIdempotent : Prop :=
  ∀ (s t u : State) (id : Byte) (raw raw' : Word16) (d : RegDesc),
    s.cfg.regmap[id.toNat]? = some d →
    (d.binding = .faultResetTrigger ∨ ∃ c, d.binding = .encOdometry c) →
    exec (.regWrite id raw) s = .next t → exec (.regWrite id raw') t = .next u →
    u = { t with responses := u.responses }

/-! ### Invariants and isolation -/

/-- Every step keeps the state well formed: as many banks as channels, every integer in its range, the counters and time
stamps within their widths, the scheduler inside its table, the register storage canonical and within its widths. -/
def Obligations.StepKeepsWellFormed : Prop :=
  ∀ s t : State, s.WellFormed → step s = .next t → t.WellFormed

/-- Every step keeps the direction lines and the STOP and BRAKE duties those of the drive state. -/
def Obligations.StepKeepsLinesMatch : Prop :=
  ∀ s t : State, s.LinesMatch → step s = .next t → t.LinesMatch

/-- No command sees a state in which the fault is latched and some channel still drives: every step keeps each channel in
STOP or the fault state while a fault is latched. -/
def Obligations.StepKeepsChannelsHeldWhileFaulted : Prop :=
  ∀ s t : State, s.HeldWhileFaulted → step s = .next t → t.HeldWhileFaulted

/-- With the identity FMT every step keeps the control within ±MAX_DUTY, of the sign of the drive state, and the duty its
floor. -/
def Obligations.StepKeepsControlMatches : Prop :=
  ∀ s t : State, s.cfg.fmt = .identity → s.ControlMatches → step s = .next t → t.ControlMatches

/-- A channel command leaves the PID, position and encoder banks of every other channel alone; and their motor banks too,
unless it latches a fault. -/
def Obligations.ChannelsAreIsolated : Prop :=
  ∀ (i : Instr) (s t : State) (d : Nat), i.op.format = .channel → exec i s = .next t → d ≠ i.chan.val →
    pidAt t d = pidAt s d ∧ posAt t d = posAt s d ∧ encAt t d = encAt s d ∧
    (t.flt.active = s.flt.active → motAt t d = motAt s d)

/-- What a read answers is a raw value of its register, 0 to 2^(8·size) − 1, and the register's own bytes on the port, as
many as its size, carry all of it. -/
def Obligations.ReadsMoveTheRegistersOwnSize : Prop :=
  ∀ (s : State) (id : Byte) (d : RegDesc), s.WellFormed → s.cfg.regmap[id.toNat]? = some d →
    ∃ t raw, exec (.regRead id) s = .next t ∧ t.responses = s.responses ++ [.regRead 0 raw] ∧
      raw.toNat ≤ 2 ^ (8 * d.size) - 1 ∧
      (portBytes d raw).length = d.size ∧ rawOfBytes (portBytes d raw) = raw
end

