-- ==== Sys2Proof/Laws/Decode.lean ====
section
/-! SUPPORT. The fields of a header, the opcode map as a bijection, and the ranges of operand values. -/

namespace Sys2Proof

set_option Elab.async false

/-! ### Header fields as numbers -/

theorem headerRsv_toNat (h : Word16) : (headerRsv h).toNat = h.toNat / 256 % 16 := by
  simp [headerRsv, BitVec.extractLsb'_toNat, Nat.shiftRight_eq_div_pow]

theorem headerOp_toNat (h : Word16) : (headerOp h).toNat = h.toNat % 256 := by
  simp [headerOp, lowByte]

theorem headerChan_val (h : Word16) : (headerChan h).val = h.toNat / 4096 := by
  have := h.isLt
  simp only [headerChan, BitVec.extractLsb'_toNat, Nat.shiftRight_eq_div_pow, Fin.val_ofNat]
  omega

/-! ### Headers of the map -/

theorem Op.mem_all (o : Op) : o ∈ Op.all := by cases o <;> decide

theorem Chan.headers (o : Op) : ∀ c : Chan,
    headerRsv (headerOf o c) = 0 ∧ headerChan (headerOf o c) = c ∧ headerOp (headerOf o c) = o.code := by
  cases o <;> decide +kernel

@[simp] theorem headerRsv_headerOf (o : Op) (c : Chan) : headerRsv (headerOf o c) = 0 := (Chan.headers o c).1
@[simp] theorem headerChan_headerOf (o : Op) (c : Chan) : headerChan (headerOf o c) = c := (Chan.headers o c).2.1
@[simp] theorem headerOp_headerOf (o : Op) (c : Chan) : headerOp (headerOf o c) = o.code := (Chan.headers o c).2.2

@[simp] theorem Op.ofCode_code (o : Op) : Op.ofCode o.code = some o := by cases o <;> decide

theorem Op.code_of_ofCode {b : Byte} {o : Op} (h : Op.ofCode b = some o) : b = o.code := by
  have := List.find?_some (p := fun o : Op => o.code == b) h
  exact (eq_of_beq this).symm

/-- The header as a number, `c · 4096 + OP`. -/
theorem headerOf_eq (o : Op) : ∀ c : Chan, headerOf o c = BitVec.ofNat 16 (c.val * 4096 + o.code.toNat) := by
  cases o <;> decide +kernel

/-- A header is the one of its own fields when its reserved bits are 0. -/
theorem headerOf_fields (h : Word16) (o : Op) (hr : headerRsv h = 0) (ho : headerOp h = o.code) :
    headerOf o (headerChan h) = h := by
  have h1 : h.toNat / 256 % 16 = 0 := by rw [← headerRsv_toNat, hr]; rfl
  have h2 : h.toNat % 256 = o.code.toNat := by rw [← headerOp_toNat, ho]
  have h3 := headerChan_val h
  have h4 := (Chan.headers o (headerChan h))
  have e1 : (headerOf o (headerChan h)).toNat / 256 % 16 = 0 := by rw [← headerRsv_toNat, h4.1]; rfl
  have e2 : (headerOf o (headerChan h)).toNat % 256 = o.code.toNat := by rw [← headerOp_toNat, h4.2.2]
  have e3 : (headerChan h).val = (headerOf o (headerChan h)).toNat / 4096 := by
    rw [← headerChan_val, h4.2.1]
  refine BitVec.eq_of_toNat_eq ?_
  omega

/-! ### Fault type codes -/

@[simp] theorem FaultType.ofCode_code (t : FaultType) : FaultType.ofCode t.code.toNat = some t := by
  cases t <;> decide

theorem FaultType.code_of_ofCode {n : Nat} {t : FaultType} (h : FaultType.ofCode n = some t) :
    n = t.code.toNat := by
  have := List.find?_some (p := fun t : FaultType => t.code.toNat == n) h
  exact (eq_of_beq this).symm

theorem FaultType.ofCode_of_not {n : Nat} (h : n = 0 ∨ 8 ≤ n) : FaultType.ofCode n = none := by
  rw [FaultType.ofCode, List.find?_eq_none]
  intro t ht
  have : t.code.toNat ≠ 0 ∧ t.code.toNat < 8 := by cases t <;> decide
  simp only [beq_iff_eq]
  omega

/-! ### Operand values -/

@[simp] theorem natOf_natCast (n : Nat) : natOf (n : Number) = n := by simp [natOf]

@[simp] theorem natOf_zero : natOf 0 = 0 := rfl
@[simp] theorem natOf_one : natOf 1 = 1 := rfl

@[simp] theorem natOf_bitNum (b : Bool) : natOf (bitNum b) = b.toNat := by cases b <;> rfl

/-- A type with a bound admits a natural number exactly below the bound. -/
theorem OperandType.admits_natCast {cfg : Config} {t : OperandType} {b : Nat} (hb : t.bound cfg = some b) (n : Nat) :
    t.admits cfg (n : Number) = decide (n < b) := by
  simp [OperandType.admits, hb]

theorem OperandType.admits_bitNum (cfg : Config) (b : Bool) : OperandType.bit.admits cfg (bitNum b) = true := by
  cases b <;> rfl

/-- A value that a bounded type admits is the natural number it is read as, below the bound. -/
theorem OperandType.natOf_of_admits {cfg : Config} {t : OperandType} {b : Nat} {v : Number}
    (hb : t.bound cfg = some b) (h : t.admits cfg v = true) : (natOf v : Number) = v ∧ natOf v < b := by
  simp only [OperandType.admits, hb, Bool.and_eq_true, beq_iff_eq, decide_eq_true_eq] at h
  obtain ⟨⟨hden, hnn⟩, hlt⟩ := h
  refine ⟨?_, by unfold natOf; omega⟩
  have h1 : ((natOf v : Int)) = v.num := Int.toNat_of_nonneg hnn
  have h2 : (v.num : Number) = v := Rat.coe_int_num_of_den_eq_one hden
  calc (natOf v : Number) = ((natOf v : Int) : Number) := by simp
    _ = v := by rw [h1, h2]

/-- A bounded type admits the natural numbers below its bound and nothing else. -/
theorem OperandType.admits_iff {cfg : Config} {t : OperandType} {b : Nat} (hb : t.bound cfg = some b) (v : Number) :
    t.admits cfg v = true ↔ ∃ n : Nat, v = n ∧ n < b := by
  constructor
  · intro h
    exact ⟨natOf v, (natOf_of_admits hb h).1.symm, (natOf_of_admits hb h).2⟩
  · rintro ⟨n, rfl, hn⟩
    simpa [admits_natCast hb] using hn

@[simp] theorem operandsMatch_nil (cfg : Config) (vs : List Number) :
    operandsMatch cfg [] vs = vs.isEmpty := by cases vs <;> rfl

@[simp] theorem operandsMatch_cons (cfg : Config) (t : OperandType) (ts : List OperandType) (v : Number)
    (vs : List Number) : operandsMatch cfg (t :: ts) (v :: vs) = (t.admits cfg v && operandsMatch cfg ts vs) := rfl

@[simp] theorem operandsMatch_cons_nil (cfg : Config) (t : OperandType) (ts : List OperandType) :
    operandsMatch cfg (t :: ts) [] = false := rfl

/-- Operands match a row when they are as many as its types and each is in its type's range. -/
theorem operandsMatch_iff (cfg : Config) (ts : List OperandType) (vs : List Number) :
    operandsMatch cfg ts vs = true ↔
      vs.length = ts.length ∧
        ∀ (k : Nat) (t : OperandType) (v : Number), ts[k]? = some t → vs[k]? = some v → t.admits cfg v = true := by
  induction ts generalizing vs with
  | nil => cases vs <;> simp [operandsMatch]
  | cons t ts ih =>
    cases vs with
    | nil => simp
    | cons v vs =>
      rw [operandsMatch_cons, Bool.and_eq_true, ih]
      simp only [List.length_cons, Nat.add_right_cancel_iff]
      constructor
      · rintro ⟨h0, hl, h⟩
        refine ⟨hl, fun k t' v' ht hv => ?_⟩
        cases k with
        | zero => cases ht; cases hv; exact h0
        | succ k => exact h k t' v' ht hv
      · rintro ⟨hl, h⟩
        exact ⟨h 0 t v rfl rfl, hl, fun k t' v' ht hv => h (k + 1) t' v' ht hv⟩

/-! ### Decoding a header of the map -/

/-- What is left of decoding once the header is one of the map's. -/
theorem decode_headerOf (cfg : Config) (o : Op) (c : Chan) (vs : List Number) :
    decode cfg ⟨headerOf o c, vs⟩ =
      if o.format = .global ∧ c ≠ 0 then .refuse .channelOnGlobal
      else if o.format = .channel ∧ cfg.nch ≤ c.val then .refuse .noSuchChannel
      else if operandsMatch cfg o.operandTypes vs = false then .refuse .badOperand
      else o.build c vs := by
  simp [decode]

/-- Everything a command that decodes has passed. -/
theorem decode_ok {cfg : Config} {cmd : Command} {i : Instr} (h : decode cfg cmd = .ok i) :
    ∃ o : Op, headerRsv cmd.header = 0 ∧ headerOp cmd.header = o.code ∧
      (o.format = .global → headerChan cmd.header = 0) ∧
      (o.format = .channel → (headerChan cmd.header).val < cfg.nch) ∧
      operandsMatch cfg o.operandTypes cmd.operands = true ∧
      o.build (headerChan cmd.header) cmd.operands = .ok i := by
  unfold decode at h
  split at h
  · cases h
  · rename_i hr
    split at h
    · cases h
    · rename_i o ho
      split at h
      · cases h
      · rename_i hg
        split at h
        · cases h
        · rename_i hc
          split at h
          · cases h
          · rename_i hm
            refine ⟨o, by simpa using hr, Op.code_of_ofCode ho, ?_, ?_, by simpa using hm, h⟩
            · intro hf
              by_contra hne
              exact hg ⟨hf, hne⟩
            · intro hf
              by_contra hle
              exact hc ⟨hf, Nat.le_of_not_lt hle⟩

end Sys2Proof
end

