-- ==== Sys2Proof/Laws/Memory.lean ====
section
/-! SUPPORT. The laws of the plain-register storage: reading after a write, and the canonical form. -/

namespace Sys2Proof.Machine

open Sys2Proof

set_option Elab.async false

@[simp] theorem Memory.read_nil (id : Nat) : Memory.read [] id = Memory.unlisted := rfl

/-- An id that is not above a lower bound of the list is not listed. -/
theorem Memory.read_of_wfAbove {m : Memory} {lo id : Nat} (h : m.wfAbove (some lo) = true) (hid : id ≤ lo) :
    m.read id = Memory.unlisted := by
  induction m generalizing lo with
  | nil => rfl
  | cons e rest ih =>
    obtain ⟨k, v⟩ := e
    simp only [Memory.wfAbove, Option.all_some, Bool.and_eq_true, decide_eq_true_eq] at h
    have hk : k ≠ id := by omega
    simp only [Memory.read, hk, if_false]
    exact ih h.2 (by omega)

theorem Memory.wfAbove_weaken {m : Memory} {lo : Option Nat} {k : Nat} (h : m.wfAbove (some k) = true)
    (hlo : ∀ l, lo = some l → l ≤ k) : m.wfAbove lo = true := by
  cases m with
  | nil => rfl
  | cons e rest =>
    cases lo with
    | none =>
      simp only [Memory.wfAbove, Option.all_some, Option.all_none, Bool.true_and, Bool.and_eq_true,
        decide_eq_true_eq] at h ⊢
      exact ⟨h.1.2, h.2⟩
    | some l =>
      have hl := hlo l rfl
      simp only [Memory.wfAbove, Option.all_some, Bool.and_eq_true, decide_eq_true_eq] at h ⊢
      exact ⟨⟨by omega, h.1.2⟩, h.2⟩

/-- A write above a lower bound keeps the form above it. -/
theorem Memory.wfAbove_write {m : Memory} {lo : Option Nat} {id : Nat} (v : Word16) (h : m.wfAbove lo = true)
    (hlo : ∀ l, lo = some l → l < id) : (m.write id v).wfAbove lo = true := by
  induction m generalizing lo with
  | nil =>
    by_cases hv : v = Memory.unlisted
    · simp [Memory.write, hv, Memory.wfAbove]
    · cases lo with
      | none => simp [Memory.write, hv, Memory.wfAbove]
      | some l => simp [Memory.write, hv, Memory.wfAbove, hlo l rfl]
  | cons e rest ih =>
    obtain ⟨k, x⟩ := e
    simp only [Memory.wfAbove, Bool.and_eq_true] at h
    obtain ⟨⟨hk, hx⟩, hrest⟩ := h
    have hidlo : lo.all (· < id) = true := by
      cases lo with
      | none => rfl
      | some l => simp [hlo l rfl]
    unfold Memory.write
    by_cases h1 : id < k
    · by_cases hv : v = Memory.unlisted
      · simp [h1, hv, Memory.wfAbove, hk, hx, hrest]
      · simp [h1, hv, Memory.wfAbove, hidlo, hx, hrest]
    · by_cases h2 : id = k
      · subst h2
        by_cases hv : v = Memory.unlisted
        · simp only [h1, hv, if_false, if_true]
          refine Memory.wfAbove_weaken hrest fun l hl => ?_
          subst hl
          simp at hk
          omega
        · simp [hv, Memory.wfAbove, hidlo, hrest]
      · simp only [h1, h2, if_false, Memory.wfAbove, Bool.and_eq_true]
        refine ⟨⟨hk, hx⟩, ih hrest fun l hl => ?_⟩
        obtain rfl : k = l := by simpa using hl
        omega

/-- A write keeps the canonical form. -/
theorem Memory.wf_write {m : Memory} (id : Nat) (v : Word16) (h : m.wf = true) : (m.write id v).wf = true :=
  Memory.wfAbove_write v h (by simp)

theorem Memory.wf_nil : Memory.wf [] = true := rfl

theorem Memory.read_write_same_above {m : Memory} {lo : Option Nat} (id : Nat) (v : Word16)
    (h : m.wfAbove lo = true) : (m.write id v).read id = v := by
  induction m generalizing lo with
  | nil =>
    by_cases hv : v = Memory.unlisted <;> simp [Memory.write, Memory.read, hv]
  | cons e rest ih =>
    obtain ⟨k, x⟩ := e
    simp only [Memory.wfAbove, Bool.and_eq_true] at h
    unfold Memory.write
    by_cases h1 : id < k
    · by_cases hv : v = Memory.unlisted
      · have hk : k ≠ id := by omega
        simp only [h1, hv, if_true, Memory.read, hk, if_false]
        exact Memory.read_of_wfAbove h.2 (by omega)
      · simp [h1, hv, Memory.read]
    · by_cases h2 : id = k
      · subst h2
        by_cases hv : v = Memory.unlisted
        · simp only [h1, hv, if_false, if_true]
          exact Memory.read_of_wfAbove h.2 (le_refl _)
        · simp [hv, Memory.read]
      · simp only [h1, h2, if_false, Memory.read, Ne.symm h2]
        exact ih h.2

/-- A plain register reads as what was written to it. -/
theorem Memory.read_write_same {m : Memory} (id : Nat) (v : Word16) (h : m.wf = true) :
    (m.write id v).read id = v :=
  Memory.read_write_same_above id v h

/-- A write leaves every other plain register alone. -/
theorem Memory.read_write_other (m : Memory) (id other : Nat) (v : Word16) (h : other ≠ id) :
    (m.write id v).read other = m.read other := by
  induction m with
  | nil => by_cases hv : v = Memory.unlisted <;> simp [Memory.write, Memory.read, hv, Ne.symm h]
  | cons e rest ih =>
    obtain ⟨k, x⟩ := e
    unfold Memory.write
    by_cases h1 : id < k
    · by_cases hv : v = Memory.unlisted <;> simp [h1, hv, Memory.read, Ne.symm h]
    · by_cases h2 : id = k
      · subst h2
        by_cases hv : v = Memory.unlisted <;> simp [hv, Memory.read, Ne.symm h]
      · simp only [h1, h2, if_false, Memory.read]
        rw [ih]

/-- An entry of the list after a write is the written one or an old one. -/
theorem Memory.mem_write {m : Memory} {id : Nat} {v : Word16} {e : Nat × Word16} (h : e ∈ m.write id v) :
    e = (id, v) ∨ e ∈ m := by
  induction m with
  | nil =>
    by_cases hv : v = Memory.unlisted
    · simp [Memory.write, hv] at h
    · simpa [Memory.write, hv] using h
  | cons x rest ih =>
    obtain ⟨k, w⟩ := x
    unfold Memory.write at h
    by_cases h1 : id < k
    · by_cases hv : v = Memory.unlisted
      · simp only [h1, hv, if_true] at h
        exact .inr h
      · simp only [h1, hv, if_true, if_false, List.mem_cons] at h
        rcases h with h | h
        · exact .inl h
        · exact .inr (by simpa using h)
    · by_cases h2 : id = k
      · by_cases hv : v = Memory.unlisted
        · simp only [h2, hv, if_true, if_false, lt_irrefl] at h
          exact .inr (List.mem_cons_of_mem _ h)
        · simp only [h2, hv, if_true, if_false, lt_irrefl, List.mem_cons] at h
          rcases h with h | h
          · exact .inl (by rw [h, h2])
          · exact .inr (List.mem_cons_of_mem _ h)
      · simp only [h1, h2, if_false, List.mem_cons] at h
        rcases h with h | h
        · exact .inr (by simp [h])
        · rcases ih h with h | h
          · exact .inl h
          · exact .inr (List.mem_cons_of_mem _ h)

end Sys2Proof.Machine
end

