-- ==== Sys2Proof/Laws/State.lean ====
section
/-! SUPPORT. One lemma per field per update, and reading a bank after an update. -/

namespace Sys2Proof.Machine

open Sys2Proof

set_option Elab.async false

variable (s : State)

/-! ### setMot -/

@[simp] theorem setMot_cfg (c : Nat) (b : MotBank) : (setMot s c b).cfg = s.cfg := rfl
@[simp] theorem setMot_flt (c : Nat) (b : MotBank) : (setMot s c b).flt = s.flt := rfl
@[simp] theorem setMot_ch (c : Nat) (b : MotBank) : (setMot s c b).ch = s.ch.set c b := rfl
@[simp] theorem setMot_pid (c : Nat) (b : MotBank) : (setMot s c b).pid = s.pid := rfl
@[simp] theorem setMot_pos (c : Nat) (b : MotBank) : (setMot s c b).pos = s.pos := rfl
@[simp] theorem setMot_enc (c : Nat) (b : MotBank) : (setMot s c b).enc = s.enc := rfl
@[simp] theorem setMot_adc (c : Nat) (b : MotBank) : (setMot s c b).adc = s.adc := rfl
@[simp] theorem setMot_plain (c : Nat) (b : MotBank) : (setMot s c b).plain = s.plain := rfl
@[simp] theorem setMot_refused (c : Nat) (b : MotBank) : (setMot s c b).refused = s.refused := rfl
@[simp] theorem setMot_pending (c : Nat) (b : MotBank) : (setMot s c b).pending = s.pending := rfl
@[simp] theorem setMot_events (c : Nat) (b : MotBank) : (setMot s c b).events = s.events := rfl
@[simp] theorem setMot_responses (c : Nat) (b : MotBank) : (setMot s c b).responses = s.responses := rfl
@[simp] theorem setMot_refusals (c : Nat) (b : MotBank) : (setMot s c b).refusals = s.refusals := rfl
@[simp] theorem setMot_freeDraws (c : Nat) (b : MotBank) : (setMot s c b).freeDraws = s.freeDraws := rfl

/-! ### setPid -/

@[simp] theorem setPid_cfg (c : Nat) (b : PidBank) : (setPid s c b).cfg = s.cfg := rfl
@[simp] theorem setPid_flt (c : Nat) (b : PidBank) : (setPid s c b).flt = s.flt := rfl
@[simp] theorem setPid_ch (c : Nat) (b : PidBank) : (setPid s c b).ch = s.ch := rfl
@[simp] theorem setPid_pid (c : Nat) (b : PidBank) : (setPid s c b).pid = s.pid.set c b := rfl
@[simp] theorem setPid_pos (c : Nat) (b : PidBank) : (setPid s c b).pos = s.pos := rfl
@[simp] theorem setPid_enc (c : Nat) (b : PidBank) : (setPid s c b).enc = s.enc := rfl
@[simp] theorem setPid_adc (c : Nat) (b : PidBank) : (setPid s c b).adc = s.adc := rfl
@[simp] theorem setPid_plain (c : Nat) (b : PidBank) : (setPid s c b).plain = s.plain := rfl
@[simp] theorem setPid_refused (c : Nat) (b : PidBank) : (setPid s c b).refused = s.refused := rfl
@[simp] theorem setPid_pending (c : Nat) (b : PidBank) : (setPid s c b).pending = s.pending := rfl
@[simp] theorem setPid_events (c : Nat) (b : PidBank) : (setPid s c b).events = s.events := rfl
@[simp] theorem setPid_responses (c : Nat) (b : PidBank) : (setPid s c b).responses = s.responses := rfl
@[simp] theorem setPid_refusals (c : Nat) (b : PidBank) : (setPid s c b).refusals = s.refusals := rfl
@[simp] theorem setPid_freeDraws (c : Nat) (b : PidBank) : (setPid s c b).freeDraws = s.freeDraws := rfl

/-! ### setPos -/

@[simp] theorem setPos_cfg (c : Nat) (b : PosBank) : (setPos s c b).cfg = s.cfg := rfl
@[simp] theorem setPos_flt (c : Nat) (b : PosBank) : (setPos s c b).flt = s.flt := rfl
@[simp] theorem setPos_ch (c : Nat) (b : PosBank) : (setPos s c b).ch = s.ch := rfl
@[simp] theorem setPos_pid (c : Nat) (b : PosBank) : (setPos s c b).pid = s.pid := rfl
@[simp] theorem setPos_pos (c : Nat) (b : PosBank) : (setPos s c b).pos = s.pos.set c b := rfl
@[simp] theorem setPos_enc (c : Nat) (b : PosBank) : (setPos s c b).enc = s.enc := rfl
@[simp] theorem setPos_adc (c : Nat) (b : PosBank) : (setPos s c b).adc = s.adc := rfl
@[simp] theorem setPos_plain (c : Nat) (b : PosBank) : (setPos s c b).plain = s.plain := rfl
@[simp] theorem setPos_refused (c : Nat) (b : PosBank) : (setPos s c b).refused = s.refused := rfl
@[simp] theorem setPos_pending (c : Nat) (b : PosBank) : (setPos s c b).pending = s.pending := rfl
@[simp] theorem setPos_events (c : Nat) (b : PosBank) : (setPos s c b).events = s.events := rfl
@[simp] theorem setPos_responses (c : Nat) (b : PosBank) : (setPos s c b).responses = s.responses := rfl
@[simp] theorem setPos_refusals (c : Nat) (b : PosBank) : (setPos s c b).refusals = s.refusals := rfl
@[simp] theorem setPos_freeDraws (c : Nat) (b : PosBank) : (setPos s c b).freeDraws = s.freeDraws := rfl

/-! ### setEnc -/

@[simp] theorem setEnc_cfg (c : Nat) (b : EncBank) : (setEnc s c b).cfg = s.cfg := rfl
@[simp] theorem setEnc_flt (c : Nat) (b : EncBank) : (setEnc s c b).flt = s.flt := rfl
@[simp] theorem setEnc_ch (c : Nat) (b : EncBank) : (setEnc s c b).ch = s.ch := rfl
@[simp] theorem setEnc_pid (c : Nat) (b : EncBank) : (setEnc s c b).pid = s.pid := rfl
@[simp] theorem setEnc_pos (c : Nat) (b : EncBank) : (setEnc s c b).pos = s.pos := rfl
@[simp] theorem setEnc_enc (c : Nat) (b : EncBank) : (setEnc s c b).enc = s.enc.set c b := rfl
@[simp] theorem setEnc_adc (c : Nat) (b : EncBank) : (setEnc s c b).adc = s.adc := rfl
@[simp] theorem setEnc_plain (c : Nat) (b : EncBank) : (setEnc s c b).plain = s.plain := rfl
@[simp] theorem setEnc_refused (c : Nat) (b : EncBank) : (setEnc s c b).refused = s.refused := rfl
@[simp] theorem setEnc_pending (c : Nat) (b : EncBank) : (setEnc s c b).pending = s.pending := rfl
@[simp] theorem setEnc_events (c : Nat) (b : EncBank) : (setEnc s c b).events = s.events := rfl
@[simp] theorem setEnc_responses (c : Nat) (b : EncBank) : (setEnc s c b).responses = s.responses := rfl
@[simp] theorem setEnc_refusals (c : Nat) (b : EncBank) : (setEnc s c b).refusals = s.refusals := rfl
@[simp] theorem setEnc_freeDraws (c : Nat) (b : EncBank) : (setEnc s c b).freeDraws = s.freeDraws := rfl

/-! ### setPlain -/

@[simp] theorem setPlain_cfg (id : Nat) (v : Word16) : (setPlain s id v).cfg = s.cfg := rfl
@[simp] theorem setPlain_flt (id : Nat) (v : Word16) : (setPlain s id v).flt = s.flt := rfl
@[simp] theorem setPlain_ch (id : Nat) (v : Word16) : (setPlain s id v).ch = s.ch := rfl
@[simp] theorem setPlain_pid (id : Nat) (v : Word16) : (setPlain s id v).pid = s.pid := rfl
@[simp] theorem setPlain_pos (id : Nat) (v : Word16) : (setPlain s id v).pos = s.pos := rfl
@[simp] theorem setPlain_enc (id : Nat) (v : Word16) : (setPlain s id v).enc = s.enc := rfl
@[simp] theorem setPlain_adc (id : Nat) (v : Word16) : (setPlain s id v).adc = s.adc := rfl
@[simp] theorem setPlain_plain (id : Nat) (v : Word16) : (setPlain s id v).plain = s.plain.write id v := rfl
@[simp] theorem setPlain_refused (id : Nat) (v : Word16) : (setPlain s id v).refused = s.refused := rfl
@[simp] theorem setPlain_pending (id : Nat) (v : Word16) : (setPlain s id v).pending = s.pending := rfl
@[simp] theorem setPlain_events (id : Nat) (v : Word16) : (setPlain s id v).events = s.events := rfl
@[simp] theorem setPlain_responses (id : Nat) (v : Word16) : (setPlain s id v).responses = s.responses := rfl
@[simp] theorem setPlain_refusals (id : Nat) (v : Word16) : (setPlain s id v).refusals = s.refusals := rfl
@[simp] theorem setPlain_freeDraws (id : Nat) (v : Word16) : (setPlain s id v).freeDraws = s.freeDraws := rfl

/-! ### emit -/

@[simp] theorem emit_cfg (e : Event) : (emit s e).cfg = s.cfg := rfl
@[simp] theorem emit_flt (e : Event) : (emit s e).flt = s.flt := rfl
@[simp] theorem emit_ch (e : Event) : (emit s e).ch = s.ch := rfl
@[simp] theorem emit_pid (e : Event) : (emit s e).pid = s.pid := rfl
@[simp] theorem emit_pos (e : Event) : (emit s e).pos = s.pos := rfl
@[simp] theorem emit_enc (e : Event) : (emit s e).enc = s.enc := rfl
@[simp] theorem emit_adc (e : Event) : (emit s e).adc = s.adc := rfl
@[simp] theorem emit_plain (e : Event) : (emit s e).plain = s.plain := rfl
@[simp] theorem emit_refused (e : Event) : (emit s e).refused = s.refused := rfl
@[simp] theorem emit_pending (e : Event) : (emit s e).pending = s.pending := rfl
@[simp] theorem emit_events (e : Event) : (emit s e).events = s.events ++ [e] := rfl
@[simp] theorem emit_responses (e : Event) : (emit s e).responses = s.responses := rfl
@[simp] theorem emit_refusals (e : Event) : (emit s e).refusals = s.refusals := rfl
@[simp] theorem emit_freeDraws (e : Event) : (emit s e).freeDraws = s.freeDraws := rfl

/-! ### respond -/

@[simp] theorem respond_cfg (r : Response) : (respond s r).cfg = s.cfg := rfl
@[simp] theorem respond_flt (r : Response) : (respond s r).flt = s.flt := rfl
@[simp] theorem respond_ch (r : Response) : (respond s r).ch = s.ch := rfl
@[simp] theorem respond_pid (r : Response) : (respond s r).pid = s.pid := rfl
@[simp] theorem respond_pos (r : Response) : (respond s r).pos = s.pos := rfl
@[simp] theorem respond_enc (r : Response) : (respond s r).enc = s.enc := rfl
@[simp] theorem respond_adc (r : Response) : (respond s r).adc = s.adc := rfl
@[simp] theorem respond_plain (r : Response) : (respond s r).plain = s.plain := rfl
@[simp] theorem respond_refused (r : Response) : (respond s r).refused = s.refused := rfl
@[simp] theorem respond_pending (r : Response) : (respond s r).pending = s.pending := rfl
@[simp] theorem respond_events (r : Response) : (respond s r).events = s.events := rfl
@[simp] theorem respond_responses (r : Response) : (respond s r).responses = s.responses ++ [r] := rfl
@[simp] theorem respond_refusals (r : Response) : (respond s r).refusals = s.refusals := rfl
@[simp] theorem respond_freeDraws (r : Response) : (respond s r).freeDraws = s.freeDraws := rfl

/-! ### refuseCommand -/

@[simp] theorem refuseCommand_cfg (r : DecodeRefusal) : (refuseCommand s r).cfg = s.cfg := rfl
@[simp] theorem refuseCommand_flt (r : DecodeRefusal) : (refuseCommand s r).flt = s.flt := rfl
@[simp] theorem refuseCommand_ch (r : DecodeRefusal) : (refuseCommand s r).ch = s.ch := rfl
@[simp] theorem refuseCommand_pid (r : DecodeRefusal) : (refuseCommand s r).pid = s.pid := rfl
@[simp] theorem refuseCommand_pos (r : DecodeRefusal) : (refuseCommand s r).pos = s.pos := rfl
@[simp] theorem refuseCommand_enc (r : DecodeRefusal) : (refuseCommand s r).enc = s.enc := rfl
@[simp] theorem refuseCommand_adc (r : DecodeRefusal) : (refuseCommand s r).adc = s.adc := rfl
@[simp] theorem refuseCommand_plain (r : DecodeRefusal) : (refuseCommand s r).plain = s.plain := rfl
@[simp] theorem refuseCommand_refused (r : DecodeRefusal) : (refuseCommand s r).refused = true := rfl
@[simp] theorem refuseCommand_pending (r : DecodeRefusal) : (refuseCommand s r).pending = s.pending := rfl
@[simp] theorem refuseCommand_events (r : DecodeRefusal) : (refuseCommand s r).events = s.events := rfl
@[simp] theorem refuseCommand_responses (r : DecodeRefusal) : (refuseCommand s r).responses = s.responses := rfl
@[simp] theorem refuseCommand_refusals (r : DecodeRefusal) : (refuseCommand s r).refusals = s.refusals ++ [r] := rfl
@[simp] theorem refuseCommand_freeDraws (r : DecodeRefusal) : (refuseCommand s r).freeDraws = s.freeDraws := rfl

/-! ### present -/

@[simp] theorem present_cfg (cmd : Command) : (present s cmd).cfg = s.cfg := rfl
@[simp] theorem present_flt (cmd : Command) : (present s cmd).flt = s.flt := rfl
@[simp] theorem present_ch (cmd : Command) : (present s cmd).ch = s.ch := rfl
@[simp] theorem present_pid (cmd : Command) : (present s cmd).pid = s.pid := rfl
@[simp] theorem present_pos (cmd : Command) : (present s cmd).pos = s.pos := rfl
@[simp] theorem present_enc (cmd : Command) : (present s cmd).enc = s.enc := rfl
@[simp] theorem present_adc (cmd : Command) : (present s cmd).adc = s.adc := rfl
@[simp] theorem present_plain (cmd : Command) : (present s cmd).plain = s.plain := rfl
@[simp] theorem present_refused (cmd : Command) : (present s cmd).refused = s.refused := rfl
@[simp] theorem present_pending (cmd : Command) : (present s cmd).pending = s.pending ++ [cmd] := rfl
@[simp] theorem present_events (cmd : Command) : (present s cmd).events = s.events := rfl
@[simp] theorem present_responses (cmd : Command) : (present s cmd).responses = s.responses := rfl
@[simp] theorem present_refusals (cmd : Command) : (present s cmd).refusals = s.refusals := rfl
@[simp] theorem present_freeDraws (cmd : Command) : (present s cmd).freeDraws = s.freeDraws := rfl

/-! ### Reading a bank after an update -/

theorem getD_set_same {α : Type} (l : List α) (c : Nat) (b d : α) (h : c < l.length) :
    (l.set c b).getD c d = b := by
  simp [List.getD_eq_getElem?_getD, h]

theorem getD_set_other {α : Type} (l : List α) (c e : Nat) (b d : α) (h : e ≠ c) :
    (l.set c b).getD e d = l.getD e d := by
  simp [List.getD_eq_getElem?_getD, Ne.symm h]

theorem motAt_setMot_same (c : Nat) (b : MotBank) (h : c < s.ch.length) : motAt (setMot s c b) c = b :=
  getD_set_same _ _ _ _ h

theorem motAt_setMot_other (c d : Nat) (b : MotBank) (h : d ≠ c) : motAt (setMot s c b) d = motAt s d :=
  getD_set_other _ _ _ _ _ h

/-- A bank after an update is the written one or the old one. -/
theorem motAt_setMot_cases (c d : Nat) (b : MotBank) :
    motAt (setMot s c b) d = b ∧ d = c ∨ motAt (setMot s c b) d = motAt s d := by
  by_cases h : d = c
  · subst h
    by_cases hl : d < s.ch.length
    · exact .inl ⟨motAt_setMot_same s d b hl, rfl⟩
    · exact .inr (by simp [motAt, setMot, List.set_eq_of_length_le (Nat.le_of_not_lt hl)])
  · exact .inr (motAt_setMot_other s c d b h)

theorem pidAt_setPid_same (c : Nat) (b : PidBank) (h : c < s.pid.length) : pidAt (setPid s c b) c = b :=
  getD_set_same _ _ _ _ h

theorem pidAt_setPid_other (c d : Nat) (b : PidBank) (h : d ≠ c) : pidAt (setPid s c b) d = pidAt s d :=
  getD_set_other _ _ _ _ _ h

/-- A bank after an update is the written one or the old one. -/
theorem pidAt_setPid_cases (c d : Nat) (b : PidBank) :
    pidAt (setPid s c b) d = b ∧ d = c ∨ pidAt (setPid s c b) d = pidAt s d := by
  by_cases h : d = c
  · subst h
    by_cases hl : d < s.pid.length
    · exact .inl ⟨pidAt_setPid_same s d b hl, rfl⟩
    · exact .inr (by simp [pidAt, setPid, List.set_eq_of_length_le (Nat.le_of_not_lt hl)])
  · exact .inr (pidAt_setPid_other s c d b h)

theorem posAt_setPos_same (c : Nat) (b : PosBank) (h : c < s.pos.length) : posAt (setPos s c b) c = b :=
  getD_set_same _ _ _ _ h

theorem posAt_setPos_other (c d : Nat) (b : PosBank) (h : d ≠ c) : posAt (setPos s c b) d = posAt s d :=
  getD_set_other _ _ _ _ _ h

/-- A bank after an update is the written one or the old one. -/
theorem posAt_setPos_cases (c d : Nat) (b : PosBank) :
    posAt (setPos s c b) d = b ∧ d = c ∨ posAt (setPos s c b) d = posAt s d := by
  by_cases h : d = c
  · subst h
    by_cases hl : d < s.pos.length
    · exact .inl ⟨posAt_setPos_same s d b hl, rfl⟩
    · exact .inr (by simp [posAt, setPos, List.set_eq_of_length_le (Nat.le_of_not_lt hl)])
  · exact .inr (posAt_setPos_other s c d b h)

theorem encAt_setEnc_same (c : Nat) (b : EncBank) (h : c < s.enc.length) : encAt (setEnc s c b) c = b :=
  getD_set_same _ _ _ _ h

theorem encAt_setEnc_other (c d : Nat) (b : EncBank) (h : d ≠ c) : encAt (setEnc s c b) d = encAt s d :=
  getD_set_other _ _ _ _ _ h

/-- A bank after an update is the written one or the old one. -/
theorem encAt_setEnc_cases (c d : Nat) (b : EncBank) :
    encAt (setEnc s c b) d = b ∧ d = c ∨ encAt (setEnc s c b) d = encAt s d := by
  by_cases h : d = c
  · subst h
    by_cases hl : d < s.enc.length
    · exact .inl ⟨encAt_setEnc_same s d b hl, rfl⟩
    · exact .inr (by simp [encAt, setEnc, List.set_eq_of_length_le (Nat.le_of_not_lt hl)])
  · exact .inr (encAt_setEnc_other s c d b h)

@[simp] theorem motAt_setPid (c : Nat) (b : PidBank) (x : Nat) : motAt (setPid s c b) x = motAt s x := rfl
@[simp] theorem motAt_setPos (c : Nat) (b : PosBank) (x : Nat) : motAt (setPos s c b) x = motAt s x := rfl
@[simp] theorem motAt_setEnc (c : Nat) (b : EncBank) (x : Nat) : motAt (setEnc s c b) x = motAt s x := rfl
@[simp] theorem motAt_setPlain (id : Nat) (v : Word16) (x : Nat) : motAt (setPlain s id v) x = motAt s x := rfl
@[simp] theorem motAt_emit (e : Event) (x : Nat) : motAt (emit s e) x = motAt s x := rfl
@[simp] theorem motAt_respond (r : Response) (x : Nat) : motAt (respond s r) x = motAt s x := rfl
@[simp] theorem motAt_refuseCommand (r : DecodeRefusal) (x : Nat) : motAt (refuseCommand s r) x = motAt s x := rfl
@[simp] theorem motAt_present (cmd : Command) (x : Nat) : motAt (present s cmd) x = motAt s x := rfl

@[simp] theorem pidAt_setMot (c : Nat) (b : MotBank) (x : Nat) : pidAt (setMot s c b) x = pidAt s x := rfl
@[simp] theorem pidAt_setPos (c : Nat) (b : PosBank) (x : Nat) : pidAt (setPos s c b) x = pidAt s x := rfl
@[simp] theorem pidAt_setEnc (c : Nat) (b : EncBank) (x : Nat) : pidAt (setEnc s c b) x = pidAt s x := rfl
@[simp] theorem pidAt_setPlain (id : Nat) (v : Word16) (x : Nat) : pidAt (setPlain s id v) x = pidAt s x := rfl
@[simp] theorem pidAt_emit (e : Event) (x : Nat) : pidAt (emit s e) x = pidAt s x := rfl
@[simp] theorem pidAt_respond (r : Response) (x : Nat) : pidAt (respond s r) x = pidAt s x := rfl
@[simp] theorem pidAt_refuseCommand (r : DecodeRefusal) (x : Nat) : pidAt (refuseCommand s r) x = pidAt s x := rfl
@[simp] theorem pidAt_present (cmd : Command) (x : Nat) : pidAt (present s cmd) x = pidAt s x := rfl

@[simp] theorem posAt_setMot (c : Nat) (b : MotBank) (x : Nat) : posAt (setMot s c b) x = posAt s x := rfl
@[simp] theorem posAt_setPid (c : Nat) (b : PidBank) (x : Nat) : posAt (setPid s c b) x = posAt s x := rfl
@[simp] theorem posAt_setEnc (c : Nat) (b : EncBank) (x : Nat) : posAt (setEnc s c b) x = posAt s x := rfl
@[simp] theorem posAt_setPlain (id : Nat) (v : Word16) (x : Nat) : posAt (setPlain s id v) x = posAt s x := rfl
@[simp] theorem posAt_emit (e : Event) (x : Nat) : posAt (emit s e) x = posAt s x := rfl
@[simp] theorem posAt_respond (r : Response) (x : Nat) : posAt (respond s r) x = posAt s x := rfl
@[simp] theorem posAt_refuseCommand (r : DecodeRefusal) (x : Nat) : posAt (refuseCommand s r) x = posAt s x := rfl
@[simp] theorem posAt_present (cmd : Command) (x : Nat) : posAt (present s cmd) x = posAt s x := rfl

@[simp] theorem encAt_setMot (c : Nat) (b : MotBank) (x : Nat) : encAt (setMot s c b) x = encAt s x := rfl
@[simp] theorem encAt_setPid (c : Nat) (b : PidBank) (x : Nat) : encAt (setPid s c b) x = encAt s x := rfl
@[simp] theorem encAt_setPos (c : Nat) (b : PosBank) (x : Nat) : encAt (setPos s c b) x = encAt s x := rfl
@[simp] theorem encAt_setPlain (id : Nat) (v : Word16) (x : Nat) : encAt (setPlain s id v) x = encAt s x := rfl
@[simp] theorem encAt_emit (e : Event) (x : Nat) : encAt (emit s e) x = encAt s x := rfl
@[simp] theorem encAt_respond (r : Response) (x : Nat) : encAt (respond s r) x = encAt s x := rfl
@[simp] theorem encAt_refuseCommand (r : DecodeRefusal) (x : Nat) : encAt (refuseCommand s r) x = encAt s x := rfl
@[simp] theorem encAt_present (cmd : Command) (x : Nat) : encAt (present s cmd) x = encAt s x := rfl

@[simp] theorem stored_setMot (c : Nat) (b : MotBank) (x : Number) : stored (setMot s c b) x = stored s x := rfl
@[simp] theorem stored_setPid (c : Nat) (b : PidBank) (x : Number) : stored (setPid s c b) x = stored s x := rfl
@[simp] theorem stored_setPos (c : Nat) (b : PosBank) (x : Number) : stored (setPos s c b) x = stored s x := rfl
@[simp] theorem stored_setEnc (c : Nat) (b : EncBank) (x : Number) : stored (setEnc s c b) x = stored s x := rfl
@[simp] theorem stored_setPlain (id : Nat) (v : Word16) (x : Number) : stored (setPlain s id v) x = stored s x := rfl
@[simp] theorem stored_emit (e : Event) (x : Number) : stored (emit s e) x = stored s x := rfl
@[simp] theorem stored_respond (r : Response) (x : Number) : stored (respond s r) x = stored s x := rfl
@[simp] theorem stored_refuseCommand (r : DecodeRefusal) (x : Number) : stored (refuseCommand s r) x = stored s x := rfl
@[simp] theorem stored_present (cmd : Command) (x : Number) : stored (present s cmd) x = stored s x := rfl

end Sys2Proof.Machine
end

