-- ==== Sys2Proof/Laws/Ops.lean ====
section
/-! SUPPORT. What each shared operation can do, said once: the callbacks over all channels, fault entry and fault
return. -/

namespace Sys2Proof.Machine

open Sys2Proof

set_option Elab.async false

/-! ### Numbers -/

@[simp] theorem fmtApply_identity (v : Number) : fmtApply .identity v = v := rfl

theorem stored_of_identity (s : State) (v : Number) (h : s.cfg.fmt = .identity) : stored s v = v := by
  simp [stored, h]

/-- `stored` reads the configuration only. -/
theorem stored_congr {s t : State} (h : t.cfg = s.cfg) (v : Number) : stored t v = stored s v := by
  simp [stored, h]

theorem clamp_le {v lo hi : Number} : clamp v lo hi ≤ hi := min_le_right _ _

theorem le_clamp {v lo hi : Number} (h : lo ≤ hi) : lo ≤ clamp v lo hi := le_min (le_max_right _ _) h

/-- A symmetric clamp bounds the magnitude. -/
theorem abs_clamp_le {v b : Number} (h : 0 ≤ b) : |clamp v (-b) b| ≤ b :=
  abs_le.mpr ⟨le_clamp (by linarith), clamp_le⟩

/-- `floorNat` is the floor of a number that is not negative. -/
theorem floorNat_eq {v : Number} (h : 0 ≤ v) : (floorNat v : Int) = Rat.floor v :=
  Int.toNat_of_nonneg (Rat.le_floor_iff.mpr (by simpa using h))

theorem floorNat_le {v : Number} {n : Nat} (h : v ≤ n) : floorNat v ≤ n := by
  have h1 : (Rat.floor v : Number) ≤ v := Rat.floor_le v
  have h2 : Rat.floor v ≤ (n : Int) := by exact_mod_cast le_trans h1 h
  exact Int.toNat_le.mpr h2

@[simp] theorem floorNat_zero : floorNat 0 = 0 := by decide +kernel

/-! ### Fields of a word -/

theorem originId_toNat (o : Origin) : (originId o).toNat = o.dev.toNat * 16 + o.mot.toNat := by
  rw [originId, BitVec.toNat_append, ← Nat.shiftLeft_add_eq_or_of_lt o.mot.isLt, Nat.shiftLeft_eq]

/-- The exception-data word as a number (42_fault R168). -/
theorem dataWord_toNat (f : FaultReg) :
    f.dataWord.toNat = f.ftype.code.toNat * 256 + f.origin.dev.toNat * 16 + f.origin.mot.toNat := by
  rw [FaultReg.dataWord, BitVec.toNat_append, ← Nat.shiftLeft_add_eq_or_of_lt (originId f.origin).isLt,
    Nat.shiftLeft_eq, originId_toNat, Nat.add_assoc]

/-- The low byte and the high byte of a word make the word. -/
theorem assembleRaw_bytes (w : Word16) : assembleRaw (lowByte w) (highByte w) = w := by
  apply BitVec.eq_of_getLsbD_eq
  intro i hi
  simp only [assembleRaw, lowByte, highByte, BitVec.getLsbD_append, BitVec.getLsbD_setWidth, BitVec.getLsbD_ushiftRight]
  by_cases h : i < 8
  · simp [h]
  · simp [h, show i - 8 < 8 by omega, show 8 + (i - 8) = i by omega]

/-! ### Callbacks over all channels -/

/-- What every callback keeps, the whole round keeps. -/
theorem forChannels_keeps {f : Nat → State → State} {P : State → Prop} {s : State} (h0 : P s)
    (hf : ∀ c u, P u → P (f c u)) : P (forChannels f s) := by
  unfold forChannels
  generalize List.range s.cfg.nch = l
  induction l generalizing s with
  | nil => exact h0
  | cons c l ih => exact ih (hf c s h0)

/-- The motor bank a stopped channel holds (41_motor R141). -/
def stoppedBank (cfg : Config) (b : MotBank) : MotBank :=
  { b with
    state := stopState cfg.faultStopState
    control := fmtApply cfg.fmt 0
    dirA := (driveLines (stopState cfg.faultStopState)).1
    dirB := (driveLines (stopState cfg.faultStopState)).2
    pwm := drivePwm cfg.maxDuty (stopState cfg.faultStopState) 0
    stallCnt := 0 }

/-- The event of a stopped channel. -/
def stoppedEvent (cfg : Config) (c : Nat) : Event :=
  .dir c (driveLines (stopState cfg.faultStopState)).1 (driveLines (stopState cfg.faultStopState)).2

theorem motFaultstop_eq (c : Nat) (s : State) :
    motFaultstop c s = emit (setMot s c (stoppedBank s.cfg (motAt s c))) (stoppedEvent s.cfg c) := rfl

theorem motFaultreset_eq (c : Nat) (s : State) :
    motFaultreset c s = setMot s c { motAt s c with stallCnt := 0 } := rfl

/-- What a round of per-channel bank updates leaves: each channel of the round holds its update, every other channel
is as before, and nothing but the banks and the events has changed. -/
theorem foldl_banks (g : Config → MotBank → MotBank) (ev : Config → Nat → List Event) (f : Nat → State → State)
    (hf : ∀ c u, f c u =
      { u with ch := u.ch.set c (g u.cfg (motAt u c)), events := u.events ++ ev u.cfg c })
    (l : List Nat) (hl : l.Nodup) (s : State) :
    let t := l.foldl (fun u c => f c u) s
    t = { s with ch := t.ch, events := s.events ++ l.flatMap (ev s.cfg) } ∧ t.ch.length = s.ch.length ∧
      (∀ c, c ∈ l → c < s.ch.length → motAt t c = g s.cfg (motAt s c)) ∧
      (∀ c, c ∉ l → motAt t c = motAt s c) ∧
      (∀ c, s.ch.length ≤ c → motAt t c = motAt s c) := by
  induction l generalizing s with
  | nil => simp
  | cons c l ih =>
    obtain ⟨hc, hl⟩ := List.nodup_cons.mp hl
    have hcfg : (f c s).cfg = s.cfg := by rw [hf]
    have hset : (f c s).ch = s.ch.set c (g s.cfg (motAt s c)) := by rw [hf]
    have hlen' : (f c s).ch.length = s.ch.length := by rw [hset, List.length_set]
    have hother : ∀ d, d ≠ c → motAt (f c s) d = motAt s d := fun d hd => by
      unfold motAt
      rw [hset]
      exact getD_set_other _ _ _ _ _ hd
    have hsame : c < s.ch.length → motAt (f c s) c = g s.cfg (motAt s c) := fun h => by
      show (f c s).ch.getD c MotBank.reset = _
      rw [hset]
      exact getD_set_same _ _ _ _ h
    obtain ⟨e, hlen, hin, hout, hbig⟩ := ih hl (f c s)
    rw [hcfg] at e hin
    simp only [List.foldl_cons]
    generalize List.foldl (fun u c => f c u) (f c s) l = t at e hlen hin hout hbig ⊢
    refine ⟨?_, by rw [hlen, hlen'], ?_, ?_, ?_⟩
    · rw [e, hf c s]
      simp [List.append_assoc]
    · intro d hd hdl
      by_cases hdc : d = c
      · subst hdc
        rw [hout d hc, hsame hdl]
      · rw [hin d (by simpa [hdc] using hd) (by omega), hother d hdc]
    · intro d hd
      simp only [List.mem_cons, not_or] at hd
      rw [hout d hd.2, hother d hd.1]
    · intro d hd
      rw [hbig d (by omega)]
      by_cases hdc : d = c
      · subst hdc
        unfold motAt
        rw [hset, List.set_eq_of_length_le hd]
      · exact hother d hdc

/-- Stopping every channel (42_fault R169, 41_motor R141). -/
theorem forChannels_motFaultstop (s : State) :
    let t := forChannels motFaultstop s
    t = { s with ch := t.ch, events := s.events ++ (List.range s.cfg.nch).map (stoppedEvent s.cfg) } ∧
      t.ch.length = s.ch.length ∧
      (∀ c, c < s.cfg.nch → c < s.ch.length → motAt t c = stoppedBank s.cfg (motAt s c)) ∧
      (∀ c, s.cfg.nch ≤ c → motAt t c = motAt s c) ∧
      (∀ c, s.ch.length ≤ c → motAt t c = motAt s c) := by
  obtain ⟨e, hlen, hin, hout, hbig⟩ := foldl_banks stoppedBank (fun cfg c => [stoppedEvent cfg c]) motFaultstop
    (fun _ _ => rfl) (List.range s.cfg.nch) List.nodup_range s
  refine ⟨?_, hlen, fun c hc hl => hin c (List.mem_range.mpr hc) hl, fun c hc => hout c (by simpa using hc), hbig⟩
  rw [← List.map_eq_flatMap] at e
  exact e

/-- The reset callback on every channel (42_fault R169, 41_motor R142). -/
theorem forChannels_motFaultreset (s : State) :
    let t := forChannels motFaultreset s
    t = { s with ch := t.ch } ∧ t.ch.length = s.ch.length ∧
      (∀ c, c < s.cfg.nch → c < s.ch.length → motAt t c = { motAt s c with stallCnt := 0 }) ∧
      (∀ c, s.cfg.nch ≤ c → motAt t c = motAt s c) ∧
      (∀ c, s.ch.length ≤ c → motAt t c = motAt s c) := by
  obtain ⟨e, hlen, hin, hout, hbig⟩ := foldl_banks (fun _ b => { b with stallCnt := 0 }) (fun _ _ => []) motFaultreset
    (fun _ _ => by rw [List.append_nil]; rfl) (List.range s.cfg.nch) List.nodup_range s
  refine ⟨?_, hlen, fun c hc hl => hin c (List.mem_range.mpr hc) hl, fun c hc => hout c (by simpa using hc), hbig⟩
  have hnil : ∀ l : List Nat, l.flatMap (fun _ => ([] : List Event)) = [] := by simp
  rw [hnil, List.append_nil] at e
  exact e

/-! ### Fault entry and return -/

theorem fltRaise_of_active {s : State} (o : Origin) (t : FaultType) (h : s.flt.active = true) :
    fltRaise o t s = s := by
  simp [fltRaise, h]

theorem fltRaise_of_masked {s : State} (o : Origin) (t : FaultType) (h : s.flt.masked t = true) :
    fltRaise o t s = s := by
  by_cases ha : s.flt.active = true <;> simp [fltRaise, ha, h]

/-- Everything fault entry can do (42_fault R162): nothing, or the latch with every channel stopped. -/
theorem fltRaise_cases (o : Origin) (ty : FaultType) (s : State) :
    (fltRaise o ty s = s ∧ (s.flt.active = true ∨ s.flt.masked ty = true)) ∨
    (s.flt.active = false ∧ s.flt.masked ty = false ∧
      fltRaise o ty s = { s with
        flt := { active := true, ftype := ty, origin := o, mask := s.flt.mask }
        ch := (fltRaise o ty s).ch
        events := s.events ++ (List.range s.cfg.nch).map (stoppedEvent s.cfg) } ∧
      (fltRaise o ty s).ch.length = s.ch.length ∧
      (∀ c, c < s.cfg.nch → c < s.ch.length → motAt (fltRaise o ty s) c = stoppedBank s.cfg (motAt s c)) ∧
      (∀ c, s.cfg.nch ≤ c → motAt (fltRaise o ty s) c = motAt s c) ∧
      (∀ c, s.ch.length ≤ c → motAt (fltRaise o ty s) c = motAt s c)) := by
  by_cases ha : s.flt.active = true
  · exact .inl ⟨fltRaise_of_active o ty ha, .inl ha⟩
  · by_cases hm : s.flt.masked ty = true
    · exact .inl ⟨fltRaise_of_masked o ty hm, .inr hm⟩
    · have hr : fltRaise o ty s = forChannels motFaultstop
          { s with flt := { s.flt with active := true, ftype := ty, origin := o } } := by
        simp [fltRaise, ha, hm]
      obtain ⟨e, hlen, hin, hout, hbig⟩ := forChannels_motFaultstop
        { s with flt := { s.flt with active := true, ftype := ty, origin := o } }
      rw [← hr] at e hlen hin hout hbig
      exact .inr ⟨by simpa using ha, by simpa using hm, e, hlen, hin, hout, hbig⟩

/-- Everything fault return does (42_fault R164). -/
theorem fltReset_spec (s : State) :
    fltReset s = { s with flt := { s.flt with active := false }, ch := (fltReset s).ch } ∧
      (fltReset s).ch.length = s.ch.length ∧
      (∀ c, c < s.cfg.nch → c < s.ch.length → motAt (fltReset s) c = { motAt s c with stallCnt := 0 }) ∧
      (∀ c, s.cfg.nch ≤ c → motAt (fltReset s) c = motAt s c) ∧
      (∀ c, s.ch.length ≤ c → motAt (fltReset s) c = motAt s c) := by
  obtain ⟨e, hlen, hin, hout, hbig⟩ := forChannels_motFaultreset s
  refine ⟨?_, hlen, hin, hout, hbig⟩
  unfold fltReset
  conv_lhs => rw [e]

end Sys2Proof.Machine
end

