-- ==== Sys2Proof/Laws/Frames.lean ====
section
/-! SUPPORT. The frame of every operation: the fields it leaves unchanged, one lemma each. -/

namespace Sys2Proof.Machine

open Sys2Proof

set_option Elab.async false

variable (s : State)

/-! ### fltRaise -/

@[simp] theorem fltRaise_cfg (o : Origin) (ty : FaultType) : (fltRaise o ty s).cfg = s.cfg := by
  rcases fltRaise_cases o ty s with h | h
  · rw [h.1]
  · rw [h.2.2.1]
@[simp] theorem fltRaise_pid (o : Origin) (ty : FaultType) : (fltRaise o ty s).pid = s.pid := by
  rcases fltRaise_cases o ty s with h | h
  · rw [h.1]
  · rw [h.2.2.1]
@[simp] theorem fltRaise_pos (o : Origin) (ty : FaultType) : (fltRaise o ty s).pos = s.pos := by
  rcases fltRaise_cases o ty s with h | h
  · rw [h.1]
  · rw [h.2.2.1]
@[simp] theorem fltRaise_enc (o : Origin) (ty : FaultType) : (fltRaise o ty s).enc = s.enc := by
  rcases fltRaise_cases o ty s with h | h
  · rw [h.1]
  · rw [h.2.2.1]
@[simp] theorem fltRaise_adc (o : Origin) (ty : FaultType) : (fltRaise o ty s).adc = s.adc := by
  rcases fltRaise_cases o ty s with h | h
  · rw [h.1]
  · rw [h.2.2.1]
@[simp] theorem fltRaise_plain (o : Origin) (ty : FaultType) : (fltRaise o ty s).plain = s.plain := by
  rcases fltRaise_cases o ty s with h | h
  · rw [h.1]
  · rw [h.2.2.1]
@[simp] theorem fltRaise_refused (o : Origin) (ty : FaultType) : (fltRaise o ty s).refused = s.refused := by
  rcases fltRaise_cases o ty s with h | h
  · rw [h.1]
  · rw [h.2.2.1]
@[simp] theorem fltRaise_pending (o : Origin) (ty : FaultType) : (fltRaise o ty s).pending = s.pending := by
  rcases fltRaise_cases o ty s with h | h
  · rw [h.1]
  · rw [h.2.2.1]
@[simp] theorem fltRaise_responses (o : Origin) (ty : FaultType) : (fltRaise o ty s).responses = s.responses := by
  rcases fltRaise_cases o ty s with h | h
  · rw [h.1]
  · rw [h.2.2.1]
@[simp] theorem fltRaise_refusals (o : Origin) (ty : FaultType) : (fltRaise o ty s).refusals = s.refusals := by
  rcases fltRaise_cases o ty s with h | h
  · rw [h.1]
  · rw [h.2.2.1]
@[simp] theorem fltRaise_freeDraws (o : Origin) (ty : FaultType) : (fltRaise o ty s).freeDraws = s.freeDraws := by
  rcases fltRaise_cases o ty s with h | h
  · rw [h.1]
  · rw [h.2.2.1]

/-! ### fltReset -/

@[simp] theorem fltReset_cfg  : (fltReset s).cfg = s.cfg := by rw [(fltReset_spec s).1]
@[simp] theorem fltReset_pid  : (fltReset s).pid = s.pid := by rw [(fltReset_spec s).1]
@[simp] theorem fltReset_pos  : (fltReset s).pos = s.pos := by rw [(fltReset_spec s).1]
@[simp] theorem fltReset_enc  : (fltReset s).enc = s.enc := by rw [(fltReset_spec s).1]
@[simp] theorem fltReset_adc  : (fltReset s).adc = s.adc := by rw [(fltReset_spec s).1]
@[simp] theorem fltReset_plain  : (fltReset s).plain = s.plain := by rw [(fltReset_spec s).1]
@[simp] theorem fltReset_refused  : (fltReset s).refused = s.refused := by rw [(fltReset_spec s).1]
@[simp] theorem fltReset_pending  : (fltReset s).pending = s.pending := by rw [(fltReset_spec s).1]
@[simp] theorem fltReset_events  : (fltReset s).events = s.events := by rw [(fltReset_spec s).1]
@[simp] theorem fltReset_responses  : (fltReset s).responses = s.responses := by rw [(fltReset_spec s).1]
@[simp] theorem fltReset_refusals  : (fltReset s).refusals = s.refusals := by rw [(fltReset_spec s).1]
@[simp] theorem fltReset_freeDraws  : (fltReset s).freeDraws = s.freeDraws := by rw [(fltReset_spec s).1]

/-! ### fltSetmask -/

@[simp] theorem fltSetmask_cfg (m : Byte) : (fltSetmask m s).cfg = s.cfg := rfl
@[simp] theorem fltSetmask_ch (m : Byte) : (fltSetmask m s).ch = s.ch := rfl
@[simp] theorem fltSetmask_pid (m : Byte) : (fltSetmask m s).pid = s.pid := rfl
@[simp] theorem fltSetmask_pos (m : Byte) : (fltSetmask m s).pos = s.pos := rfl
@[simp] theorem fltSetmask_enc (m : Byte) : (fltSetmask m s).enc = s.enc := rfl
@[simp] theorem fltSetmask_adc (m : Byte) : (fltSetmask m s).adc = s.adc := rfl
@[simp] theorem fltSetmask_plain (m : Byte) : (fltSetmask m s).plain = s.plain := rfl
@[simp] theorem fltSetmask_refused (m : Byte) : (fltSetmask m s).refused = s.refused := rfl
@[simp] theorem fltSetmask_pending (m : Byte) : (fltSetmask m s).pending = s.pending := rfl
@[simp] theorem fltSetmask_events (m : Byte) : (fltSetmask m s).events = s.events := rfl
@[simp] theorem fltSetmask_responses (m : Byte) : (fltSetmask m s).responses = s.responses := rfl
@[simp] theorem fltSetmask_refusals (m : Byte) : (fltSetmask m s).refusals = s.refusals := rfl
@[simp] theorem fltSetmask_freeDraws (m : Byte) : (fltSetmask m s).freeDraws = s.freeDraws := rfl

/-! ### motSetspeed -/

@[simp] theorem motSetspeed_cfg (c : Nat) (v : Number) : (motSetspeed c v s).cfg = s.cfg := by
  unfold motSetspeed
  dsimp only
  repeat' split
  all_goals simp
@[simp] theorem motSetspeed_flt (c : Nat) (v : Number) : (motSetspeed c v s).flt = s.flt := by
  unfold motSetspeed
  dsimp only
  repeat' split
  all_goals simp
@[simp] theorem motSetspeed_pid (c : Nat) (v : Number) : (motSetspeed c v s).pid = s.pid := by
  unfold motSetspeed
  dsimp only
  repeat' split
  all_goals simp
@[simp] theorem motSetspeed_pos (c : Nat) (v : Number) : (motSetspeed c v s).pos = s.pos := by
  unfold motSetspeed
  dsimp only
  repeat' split
  all_goals simp
@[simp] theorem motSetspeed_enc (c : Nat) (v : Number) : (motSetspeed c v s).enc = s.enc := by
  unfold motSetspeed
  dsimp only
  repeat' split
  all_goals simp
@[simp] theorem motSetspeed_adc (c : Nat) (v : Number) : (motSetspeed c v s).adc = s.adc := by
  unfold motSetspeed
  dsimp only
  repeat' split
  all_goals simp
@[simp] theorem motSetspeed_plain (c : Nat) (v : Number) : (motSetspeed c v s).plain = s.plain := by
  unfold motSetspeed
  dsimp only
  repeat' split
  all_goals simp
@[simp] theorem motSetspeed_refused (c : Nat) (v : Number) : (motSetspeed c v s).refused = s.refused := by
  unfold motSetspeed
  dsimp only
  repeat' split
  all_goals simp
@[simp] theorem motSetspeed_pending (c : Nat) (v : Number) : (motSetspeed c v s).pending = s.pending := by
  unfold motSetspeed
  dsimp only
  repeat' split
  all_goals simp
@[simp] theorem motSetspeed_responses (c : Nat) (v : Number) : (motSetspeed c v s).responses = s.responses := by
  unfold motSetspeed
  dsimp only
  repeat' split
  all_goals simp
@[simp] theorem motSetspeed_refusals (c : Nat) (v : Number) : (motSetspeed c v s).refusals = s.refusals := by
  unfold motSetspeed
  dsimp only
  repeat' split
  all_goals simp
@[simp] theorem motSetspeed_freeDraws (c : Nat) (v : Number) : (motSetspeed c v s).freeDraws = s.freeDraws := by
  unfold motSetspeed
  dsimp only
  repeat' split
  all_goals simp

/-! ### motSetcurrent -/

@[simp] theorem motSetcurrent_cfg (c raw : Nat) : (motSetcurrent c raw s).cfg = s.cfg := by
  unfold motSetcurrent
  dsimp only
  split <;> simp
@[simp] theorem motSetcurrent_pid (c raw : Nat) : (motSetcurrent c raw s).pid = s.pid := by
  unfold motSetcurrent
  dsimp only
  split <;> simp
@[simp] theorem motSetcurrent_pos (c raw : Nat) : (motSetcurrent c raw s).pos = s.pos := by
  unfold motSetcurrent
  dsimp only
  split <;> simp
@[simp] theorem motSetcurrent_enc (c raw : Nat) : (motSetcurrent c raw s).enc = s.enc := by
  unfold motSetcurrent
  dsimp only
  split <;> simp
@[simp] theorem motSetcurrent_adc (c raw : Nat) : (motSetcurrent c raw s).adc = s.adc := by
  unfold motSetcurrent
  dsimp only
  split <;> simp
@[simp] theorem motSetcurrent_plain (c raw : Nat) : (motSetcurrent c raw s).plain = s.plain := by
  unfold motSetcurrent
  dsimp only
  split <;> simp
@[simp] theorem motSetcurrent_refused (c raw : Nat) : (motSetcurrent c raw s).refused = s.refused := by
  unfold motSetcurrent
  dsimp only
  split <;> simp
@[simp] theorem motSetcurrent_pending (c raw : Nat) : (motSetcurrent c raw s).pending = s.pending := by
  unfold motSetcurrent
  dsimp only
  split <;> simp
@[simp] theorem motSetcurrent_responses (c raw : Nat) : (motSetcurrent c raw s).responses = s.responses := by
  unfold motSetcurrent
  dsimp only
  split <;> simp
@[simp] theorem motSetcurrent_refusals (c raw : Nat) : (motSetcurrent c raw s).refusals = s.refusals := by
  unfold motSetcurrent
  dsimp only
  split <;> simp
@[simp] theorem motSetcurrent_freeDraws (c raw : Nat) : (motSetcurrent c raw s).freeDraws = s.freeDraws := by
  unfold motSetcurrent
  dsimp only
  split <;> simp

/-! ### motSetstallen -/

@[simp] theorem motSetstallen_cfg (c : Nat) (en : Bool) : (motSetstallen c en s).cfg = s.cfg := rfl
@[simp] theorem motSetstallen_flt (c : Nat) (en : Bool) : (motSetstallen c en s).flt = s.flt := rfl
@[simp] theorem motSetstallen_pid (c : Nat) (en : Bool) : (motSetstallen c en s).pid = s.pid := rfl
@[simp] theorem motSetstallen_pos (c : Nat) (en : Bool) : (motSetstallen c en s).pos = s.pos := rfl
@[simp] theorem motSetstallen_enc (c : Nat) (en : Bool) : (motSetstallen c en s).enc = s.enc := rfl
@[simp] theorem motSetstallen_adc (c : Nat) (en : Bool) : (motSetstallen c en s).adc = s.adc := rfl
@[simp] theorem motSetstallen_plain (c : Nat) (en : Bool) : (motSetstallen c en s).plain = s.plain := rfl
@[simp] theorem motSetstallen_refused (c : Nat) (en : Bool) : (motSetstallen c en s).refused = s.refused := rfl
@[simp] theorem motSetstallen_pending (c : Nat) (en : Bool) : (motSetstallen c en s).pending = s.pending := rfl
@[simp] theorem motSetstallen_events (c : Nat) (en : Bool) : (motSetstallen c en s).events = s.events := rfl
@[simp] theorem motSetstallen_responses (c : Nat) (en : Bool) : (motSetstallen c en s).responses = s.responses := rfl
@[simp] theorem motSetstallen_refusals (c : Nat) (en : Bool) : (motSetstallen c en s).refusals = s.refusals := rfl
@[simp] theorem motSetstallen_freeDraws (c : Nat) (en : Bool) : (motSetstallen c en s).freeDraws = s.freeDraws := rfl

/-! ### stallCheck -/

@[simp] theorem stallCheck_cfg (c : Nat) (v : Number) : (stallCheck c v s).cfg = s.cfg := by
  unfold stallCheck
  dsimp only
  repeat' split
  all_goals simp
@[simp] theorem stallCheck_pid (c : Nat) (v : Number) : (stallCheck c v s).pid = s.pid := by
  unfold stallCheck
  dsimp only
  repeat' split
  all_goals simp
@[simp] theorem stallCheck_pos (c : Nat) (v : Number) : (stallCheck c v s).pos = s.pos := by
  unfold stallCheck
  dsimp only
  repeat' split
  all_goals simp
@[simp] theorem stallCheck_enc (c : Nat) (v : Number) : (stallCheck c v s).enc = s.enc := by
  unfold stallCheck
  dsimp only
  repeat' split
  all_goals simp
@[simp] theorem stallCheck_adc (c : Nat) (v : Number) : (stallCheck c v s).adc = s.adc := by
  unfold stallCheck
  dsimp only
  repeat' split
  all_goals simp
@[simp] theorem stallCheck_plain (c : Nat) (v : Number) : (stallCheck c v s).plain = s.plain := by
  unfold stallCheck
  dsimp only
  repeat' split
  all_goals simp
@[simp] theorem stallCheck_refused (c : Nat) (v : Number) : (stallCheck c v s).refused = s.refused := by
  unfold stallCheck
  dsimp only
  repeat' split
  all_goals simp
@[simp] theorem stallCheck_pending (c : Nat) (v : Number) : (stallCheck c v s).pending = s.pending := by
  unfold stallCheck
  dsimp only
  repeat' split
  all_goals simp
@[simp] theorem stallCheck_responses (c : Nat) (v : Number) : (stallCheck c v s).responses = s.responses := by
  unfold stallCheck
  dsimp only
  repeat' split
  all_goals simp
@[simp] theorem stallCheck_refusals (c : Nat) (v : Number) : (stallCheck c v s).refusals = s.refusals := by
  unfold stallCheck
  dsimp only
  repeat' split
  all_goals simp
@[simp] theorem stallCheck_freeDraws (c : Nat) (v : Number) : (stallCheck c v s).freeDraws = s.freeDraws := by
  unfold stallCheck
  dsimp only
  repeat' split
  all_goals simp

/-! ### posSample -/

@[simp] theorem posSample_cfg (c raw : Nat) : (posSample c raw s).cfg = s.cfg := rfl
@[simp] theorem posSample_flt (c raw : Nat) : (posSample c raw s).flt = s.flt := rfl
@[simp] theorem posSample_ch (c raw : Nat) : (posSample c raw s).ch = s.ch := rfl
@[simp] theorem posSample_pid (c raw : Nat) : (posSample c raw s).pid = s.pid := rfl
@[simp] theorem posSample_enc (c raw : Nat) : (posSample c raw s).enc = s.enc := rfl
@[simp] theorem posSample_adc (c raw : Nat) : (posSample c raw s).adc = s.adc := rfl
@[simp] theorem posSample_plain (c raw : Nat) : (posSample c raw s).plain = s.plain := rfl
@[simp] theorem posSample_refused (c raw : Nat) : (posSample c raw s).refused = s.refused := rfl
@[simp] theorem posSample_pending (c raw : Nat) : (posSample c raw s).pending = s.pending := rfl
@[simp] theorem posSample_events (c raw : Nat) : (posSample c raw s).events = s.events := rfl
@[simp] theorem posSample_responses (c raw : Nat) : (posSample c raw s).responses = s.responses := rfl
@[simp] theorem posSample_refusals (c raw : Nat) : (posSample c raw s).refusals = s.refusals := rfl
@[simp] theorem posSample_freeDraws (c raw : Nat) : (posSample c raw s).freeDraws = s.freeDraws := rfl

/-! ### pidSetreq -/

@[simp] theorem pidSetreq_cfg (c : Nat) (v : Number) : (pidSetreq c v s).cfg = s.cfg := rfl
@[simp] theorem pidSetreq_flt (c : Nat) (v : Number) : (pidSetreq c v s).flt = s.flt := rfl
@[simp] theorem pidSetreq_ch (c : Nat) (v : Number) : (pidSetreq c v s).ch = s.ch := rfl
@[simp] theorem pidSetreq_pos (c : Nat) (v : Number) : (pidSetreq c v s).pos = s.pos := rfl
@[simp] theorem pidSetreq_enc (c : Nat) (v : Number) : (pidSetreq c v s).enc = s.enc := rfl
@[simp] theorem pidSetreq_adc (c : Nat) (v : Number) : (pidSetreq c v s).adc = s.adc := rfl
@[simp] theorem pidSetreq_plain (c : Nat) (v : Number) : (pidSetreq c v s).plain = s.plain := rfl
@[simp] theorem pidSetreq_refused (c : Nat) (v : Number) : (pidSetreq c v s).refused = s.refused := rfl
@[simp] theorem pidSetreq_pending (c : Nat) (v : Number) : (pidSetreq c v s).pending = s.pending := rfl
@[simp] theorem pidSetreq_events (c : Nat) (v : Number) : (pidSetreq c v s).events = s.events := rfl
@[simp] theorem pidSetreq_responses (c : Nat) (v : Number) : (pidSetreq c v s).responses = s.responses := rfl
@[simp] theorem pidSetreq_refusals (c : Nat) (v : Number) : (pidSetreq c v s).refusals = s.refusals := rfl
@[simp] theorem pidSetreq_freeDraws (c : Nat) (v : Number) : (pidSetreq c v s).freeDraws = s.freeDraws := rfl

/-! ### pidSetparams -/

@[simp] theorem pidSetparams_cfg (c : Nat) (q : PidParams) : (pidSetparams c q s).cfg = s.cfg := rfl
@[simp] theorem pidSetparams_flt (c : Nat) (q : PidParams) : (pidSetparams c q s).flt = s.flt := rfl
@[simp] theorem pidSetparams_ch (c : Nat) (q : PidParams) : (pidSetparams c q s).ch = s.ch := rfl
@[simp] theorem pidSetparams_pos (c : Nat) (q : PidParams) : (pidSetparams c q s).pos = s.pos := rfl
@[simp] theorem pidSetparams_enc (c : Nat) (q : PidParams) : (pidSetparams c q s).enc = s.enc := rfl
@[simp] theorem pidSetparams_adc (c : Nat) (q : PidParams) : (pidSetparams c q s).adc = s.adc := rfl
@[simp] theorem pidSetparams_plain (c : Nat) (q : PidParams) : (pidSetparams c q s).plain = s.plain := rfl
@[simp] theorem pidSetparams_refused (c : Nat) (q : PidParams) : (pidSetparams c q s).refused = s.refused := rfl
@[simp] theorem pidSetparams_pending (c : Nat) (q : PidParams) : (pidSetparams c q s).pending = s.pending := rfl
@[simp] theorem pidSetparams_events (c : Nat) (q : PidParams) : (pidSetparams c q s).events = s.events := rfl
@[simp] theorem pidSetparams_responses (c : Nat) (q : PidParams) : (pidSetparams c q s).responses = s.responses := rfl
@[simp] theorem pidSetparams_refusals (c : Nat) (q : PidParams) : (pidSetparams c q s).refusals = s.refusals := rfl
@[simp] theorem pidSetparams_freeDraws (c : Nat) (q : PidParams) : (pidSetparams c q s).freeDraws = s.freeDraws := rfl

/-! ### pidBackwards -/

@[simp] theorem pidBackwards_cfg (c now : Nat) : (pidBackwards c now s).cfg = s.cfg := rfl
@[simp] theorem pidBackwards_flt (c now : Nat) : (pidBackwards c now s).flt = s.flt := rfl
@[simp] theorem pidBackwards_ch (c now : Nat) : (pidBackwards c now s).ch = s.ch := rfl
@[simp] theorem pidBackwards_pos (c now : Nat) : (pidBackwards c now s).pos = s.pos := rfl
@[simp] theorem pidBackwards_enc (c now : Nat) : (pidBackwards c now s).enc = s.enc := rfl
@[simp] theorem pidBackwards_adc (c now : Nat) : (pidBackwards c now s).adc = s.adc := rfl
@[simp] theorem pidBackwards_plain (c now : Nat) : (pidBackwards c now s).plain = s.plain := rfl
@[simp] theorem pidBackwards_refused (c now : Nat) : (pidBackwards c now s).refused = s.refused := rfl
@[simp] theorem pidBackwards_pending (c now : Nat) : (pidBackwards c now s).pending = s.pending := rfl
@[simp] theorem pidBackwards_events (c now : Nat) : (pidBackwards c now s).events = s.events := rfl
@[simp] theorem pidBackwards_responses (c now : Nat) : (pidBackwards c now s).responses = s.responses := rfl
@[simp] theorem pidBackwards_refusals (c now : Nat) : (pidBackwards c now s).refusals = s.refusals := rfl
@[simp] theorem pidBackwards_freeDraws (c now : Nat) : (pidBackwards c now s).freeDraws = s.freeDraws := rfl

/-! ### pidEstimate -/

@[simp] theorem pidEstimate_cfg (c now : Nat) : (pidEstimate c now s).cfg = s.cfg := rfl
@[simp] theorem pidEstimate_flt (c now : Nat) : (pidEstimate c now s).flt = s.flt := rfl
@[simp] theorem pidEstimate_ch (c now : Nat) : (pidEstimate c now s).ch = s.ch := rfl
@[simp] theorem pidEstimate_pos (c now : Nat) : (pidEstimate c now s).pos = s.pos := rfl
@[simp] theorem pidEstimate_enc (c now : Nat) : (pidEstimate c now s).enc = s.enc := rfl
@[simp] theorem pidEstimate_adc (c now : Nat) : (pidEstimate c now s).adc = s.adc := rfl
@[simp] theorem pidEstimate_plain (c now : Nat) : (pidEstimate c now s).plain = s.plain := rfl
@[simp] theorem pidEstimate_refused (c now : Nat) : (pidEstimate c now s).refused = s.refused := rfl
@[simp] theorem pidEstimate_pending (c now : Nat) : (pidEstimate c now s).pending = s.pending := rfl
@[simp] theorem pidEstimate_events (c now : Nat) : (pidEstimate c now s).events = s.events := rfl
@[simp] theorem pidEstimate_responses (c now : Nat) : (pidEstimate c now s).responses = s.responses := rfl
@[simp] theorem pidEstimate_refusals (c now : Nat) : (pidEstimate c now s).refusals = s.refusals := rfl
@[simp] theorem pidEstimate_freeDraws (c now : Nat) : (pidEstimate c now s).freeDraws = s.freeDraws := rfl

/-! ### pidDrive -/

@[simp] theorem pidDrive_cfg (c : Nat) (a out : Number) : (pidDrive c a out s).cfg = s.cfg := by
  unfold pidDrive
  split <;> simp
@[simp] theorem pidDrive_flt (c : Nat) (a out : Number) : (pidDrive c a out s).flt = s.flt := by
  unfold pidDrive
  split <;> simp
@[simp] theorem pidDrive_pos (c : Nat) (a out : Number) : (pidDrive c a out s).pos = s.pos := by
  unfold pidDrive
  split <;> simp
@[simp] theorem pidDrive_enc (c : Nat) (a out : Number) : (pidDrive c a out s).enc = s.enc := by
  unfold pidDrive
  split <;> simp
@[simp] theorem pidDrive_adc (c : Nat) (a out : Number) : (pidDrive c a out s).adc = s.adc := by
  unfold pidDrive
  split <;> simp
@[simp] theorem pidDrive_plain (c : Nat) (a out : Number) : (pidDrive c a out s).plain = s.plain := by
  unfold pidDrive
  split <;> simp
@[simp] theorem pidDrive_refused (c : Nat) (a out : Number) : (pidDrive c a out s).refused = s.refused := by
  unfold pidDrive
  split <;> simp
@[simp] theorem pidDrive_pending (c : Nat) (a out : Number) : (pidDrive c a out s).pending = s.pending := by
  unfold pidDrive
  split <;> simp
@[simp] theorem pidDrive_responses (c : Nat) (a out : Number) : (pidDrive c a out s).responses = s.responses := by
  unfold pidDrive
  split <;> simp
@[simp] theorem pidDrive_refusals (c : Nat) (a out : Number) : (pidDrive c a out s).refusals = s.refusals := by
  unfold pidDrive
  split <;> simp
@[simp] theorem pidDrive_freeDraws (c : Nat) (a out : Number) : (pidDrive c a out s).freeDraws = s.freeDraws := by
  unfold pidDrive
  split <;> simp

/-! ### pidTick -/

@[simp] theorem pidTick_cfg (c now : Nat) : (pidTick c now s).cfg = s.cfg := by
  unfold pidTick
  dsimp only
  split <;> simp
@[simp] theorem pidTick_pos (c now : Nat) : (pidTick c now s).pos = s.pos := by
  unfold pidTick
  dsimp only
  split <;> simp
@[simp] theorem pidTick_enc (c now : Nat) : (pidTick c now s).enc = s.enc := by
  unfold pidTick
  dsimp only
  split <;> simp
@[simp] theorem pidTick_adc (c now : Nat) : (pidTick c now s).adc = s.adc := by
  unfold pidTick
  dsimp only
  split <;> simp
@[simp] theorem pidTick_plain (c now : Nat) : (pidTick c now s).plain = s.plain := by
  unfold pidTick
  dsimp only
  split <;> simp
@[simp] theorem pidTick_refused (c now : Nat) : (pidTick c now s).refused = s.refused := by
  unfold pidTick
  dsimp only
  split <;> simp
@[simp] theorem pidTick_pending (c now : Nat) : (pidTick c now s).pending = s.pending := by
  unfold pidTick
  dsimp only
  split <;> simp
@[simp] theorem pidTick_responses (c now : Nat) : (pidTick c now s).responses = s.responses := by
  unfold pidTick
  dsimp only
  split <;> simp
@[simp] theorem pidTick_refusals (c now : Nat) : (pidTick c now s).refusals = s.refusals := by
  unfold pidTick
  dsimp only
  split <;> simp
@[simp] theorem pidTick_freeDraws (c now : Nat) : (pidTick c now s).freeDraws = s.freeDraws := by
  unfold pidTick
  dsimp only
  split <;> simp

/-! ### encEdge -/

@[simp] theorem encEdge_cfg (c : Nat) (l : Bool) : (encEdge c l s).cfg = s.cfg := rfl
@[simp] theorem encEdge_flt (c : Nat) (l : Bool) : (encEdge c l s).flt = s.flt := rfl
@[simp] theorem encEdge_ch (c : Nat) (l : Bool) : (encEdge c l s).ch = s.ch := rfl
@[simp] theorem encEdge_pid (c : Nat) (l : Bool) : (encEdge c l s).pid = s.pid := rfl
@[simp] theorem encEdge_pos (c : Nat) (l : Bool) : (encEdge c l s).pos = s.pos := rfl
@[simp] theorem encEdge_adc (c : Nat) (l : Bool) : (encEdge c l s).adc = s.adc := rfl
@[simp] theorem encEdge_plain (c : Nat) (l : Bool) : (encEdge c l s).plain = s.plain := rfl
@[simp] theorem encEdge_refused (c : Nat) (l : Bool) : (encEdge c l s).refused = s.refused := rfl
@[simp] theorem encEdge_pending (c : Nat) (l : Bool) : (encEdge c l s).pending = s.pending := rfl
@[simp] theorem encEdge_events (c : Nat) (l : Bool) : (encEdge c l s).events = s.events := rfl
@[simp] theorem encEdge_responses (c : Nat) (l : Bool) : (encEdge c l s).responses = s.responses := rfl
@[simp] theorem encEdge_refusals (c : Nat) (l : Bool) : (encEdge c l s).refusals = s.refusals := rfl
@[simp] theorem encEdge_freeDraws (c : Nat) (l : Bool) : (encEdge c l s).freeDraws = s.freeDraws := rfl

/-! ### encPoll -/

@[simp] theorem encPoll_cfg (c now : Nat) : (encPoll c now s).cfg = s.cfg := by
  unfold encPoll
  dsimp only
  repeat' split
  all_goals simp
@[simp] theorem encPoll_flt (c now : Nat) : (encPoll c now s).flt = s.flt := by
  unfold encPoll
  dsimp only
  repeat' split
  all_goals simp
@[simp] theorem encPoll_ch (c now : Nat) : (encPoll c now s).ch = s.ch := by
  unfold encPoll
  dsimp only
  repeat' split
  all_goals simp
@[simp] theorem encPoll_pid (c now : Nat) : (encPoll c now s).pid = s.pid := by
  unfold encPoll
  dsimp only
  repeat' split
  all_goals simp
@[simp] theorem encPoll_pos (c now : Nat) : (encPoll c now s).pos = s.pos := by
  unfold encPoll
  dsimp only
  repeat' split
  all_goals simp
@[simp] theorem encPoll_adc (c now : Nat) : (encPoll c now s).adc = s.adc := by
  unfold encPoll
  dsimp only
  repeat' split
  all_goals simp
@[simp] theorem encPoll_plain (c now : Nat) : (encPoll c now s).plain = s.plain := by
  unfold encPoll
  dsimp only
  repeat' split
  all_goals simp
@[simp] theorem encPoll_refused (c now : Nat) : (encPoll c now s).refused = s.refused := by
  unfold encPoll
  dsimp only
  repeat' split
  all_goals simp
@[simp] theorem encPoll_pending (c now : Nat) : (encPoll c now s).pending = s.pending := by
  unfold encPoll
  dsimp only
  repeat' split
  all_goals simp
@[simp] theorem encPoll_events (c now : Nat) : (encPoll c now s).events = s.events := by
  unfold encPoll
  dsimp only
  repeat' split
  all_goals simp
@[simp] theorem encPoll_responses (c now : Nat) : (encPoll c now s).responses = s.responses := by
  unfold encPoll
  dsimp only
  repeat' split
  all_goals simp
@[simp] theorem encPoll_refusals (c now : Nat) : (encPoll c now s).refusals = s.refusals := by
  unfold encPoll
  dsimp only
  repeat' split
  all_goals simp
@[simp] theorem encPoll_freeDraws (c now : Nat) : (encPoll c now s).freeDraws = s.freeDraws := by
  unfold encPoll
  dsimp only
  repeat' split
  all_goals simp

/-! ### encOdoreset -/

@[simp] theorem encOdoreset_cfg (c : Nat) : (encOdoreset c s).cfg = s.cfg := rfl
@[simp] theorem encOdoreset_flt (c : Nat) : (encOdoreset c s).flt = s.flt := rfl
@[simp] theorem encOdoreset_ch (c : Nat) : (encOdoreset c s).ch = s.ch := rfl
@[simp] theorem encOdoreset_pid (c : Nat) : (encOdoreset c s).pid = s.pid := rfl
@[simp] theorem encOdoreset_pos (c : Nat) : (encOdoreset c s).pos = s.pos := rfl
@[simp] theorem encOdoreset_adc (c : Nat) : (encOdoreset c s).adc = s.adc := rfl
@[simp] theorem encOdoreset_plain (c : Nat) : (encOdoreset c s).plain = s.plain := rfl
@[simp] theorem encOdoreset_refused (c : Nat) : (encOdoreset c s).refused = s.refused := rfl
@[simp] theorem encOdoreset_pending (c : Nat) : (encOdoreset c s).pending = s.pending := rfl
@[simp] theorem encOdoreset_events (c : Nat) : (encOdoreset c s).events = s.events := rfl
@[simp] theorem encOdoreset_responses (c : Nat) : (encOdoreset c s).responses = s.responses := rfl
@[simp] theorem encOdoreset_refusals (c : Nat) : (encOdoreset c s).refusals = s.refusals := rfl
@[simp] theorem encOdoreset_freeDraws (c : Nat) : (encOdoreset c s).freeDraws = s.freeDraws := rfl

/-! ### adcDispatch -/

@[simp] theorem adcDispatch_cfg (e : AdcReg) (raw : Nat) : (adcDispatch e raw s).cfg = s.cfg := by
  unfold adcDispatch
  split <;> simp
@[simp] theorem adcDispatch_pid (e : AdcReg) (raw : Nat) : (adcDispatch e raw s).pid = s.pid := by
  unfold adcDispatch
  split <;> simp
@[simp] theorem adcDispatch_enc (e : AdcReg) (raw : Nat) : (adcDispatch e raw s).enc = s.enc := by
  unfold adcDispatch
  split <;> simp
@[simp] theorem adcDispatch_adc (e : AdcReg) (raw : Nat) : (adcDispatch e raw s).adc = s.adc := by
  unfold adcDispatch
  split <;> simp
@[simp] theorem adcDispatch_plain (e : AdcReg) (raw : Nat) : (adcDispatch e raw s).plain = s.plain := by
  unfold adcDispatch
  split <;> simp
@[simp] theorem adcDispatch_refused (e : AdcReg) (raw : Nat) : (adcDispatch e raw s).refused = s.refused := by
  unfold adcDispatch
  split <;> simp
@[simp] theorem adcDispatch_pending (e : AdcReg) (raw : Nat) : (adcDispatch e raw s).pending = s.pending := by
  unfold adcDispatch
  split <;> simp
@[simp] theorem adcDispatch_responses (e : AdcReg) (raw : Nat) : (adcDispatch e raw s).responses = s.responses := by
  unfold adcDispatch
  split <;> simp
@[simp] theorem adcDispatch_refusals (e : AdcReg) (raw : Nat) : (adcDispatch e raw s).refusals = s.refusals := by
  unfold adcDispatch
  split <;> simp
@[simp] theorem adcDispatch_freeDraws (e : AdcReg) (raw : Nat) : (adcDispatch e raw s).freeDraws = s.freeDraws := by
  unfold adcDispatch
  split <;> simp

/-! ### adcPoll -/

@[simp] theorem adcPoll_cfg (done : Bool) (raw : Nat) : (adcPoll done raw s).cfg = s.cfg := by
  unfold adcPoll adcService
  dsimp only
  repeat' split
  all_goals simp
@[simp] theorem adcPoll_pid (done : Bool) (raw : Nat) : (adcPoll done raw s).pid = s.pid := by
  unfold adcPoll adcService
  dsimp only
  repeat' split
  all_goals simp
@[simp] theorem adcPoll_enc (done : Bool) (raw : Nat) : (adcPoll done raw s).enc = s.enc := by
  unfold adcPoll adcService
  dsimp only
  repeat' split
  all_goals simp
@[simp] theorem adcPoll_plain (done : Bool) (raw : Nat) : (adcPoll done raw s).plain = s.plain := by
  unfold adcPoll adcService
  dsimp only
  repeat' split
  all_goals simp
@[simp] theorem adcPoll_refused (done : Bool) (raw : Nat) : (adcPoll done raw s).refused = s.refused := by
  unfold adcPoll adcService
  dsimp only
  repeat' split
  all_goals simp
@[simp] theorem adcPoll_pending (done : Bool) (raw : Nat) : (adcPoll done raw s).pending = s.pending := by
  unfold adcPoll adcService
  dsimp only
  repeat' split
  all_goals simp
@[simp] theorem adcPoll_responses (done : Bool) (raw : Nat) : (adcPoll done raw s).responses = s.responses := by
  unfold adcPoll adcService
  dsimp only
  repeat' split
  all_goals simp
@[simp] theorem adcPoll_refusals (done : Bool) (raw : Nat) : (adcPoll done raw s).refusals = s.refusals := by
  unfold adcPoll adcService
  dsimp only
  repeat' split
  all_goals simp
@[simp] theorem adcPoll_freeDraws (done : Bool) (raw : Nat) : (adcPoll done raw s).freeDraws = s.freeDraws := by
  unfold adcPoll adcService
  dsimp only
  repeat' split
  all_goals simp

/-! ### setMaskRegister -/

@[simp] theorem setMaskRegister_cfg (raw : Nat) : (setMaskRegister raw s).cfg = s.cfg := by
  unfold setMaskRegister
  split <;> rfl
@[simp] theorem setMaskRegister_ch (raw : Nat) : (setMaskRegister raw s).ch = s.ch := by
  unfold setMaskRegister
  split <;> rfl
@[simp] theorem setMaskRegister_pid (raw : Nat) : (setMaskRegister raw s).pid = s.pid := by
  unfold setMaskRegister
  split <;> rfl
@[simp] theorem setMaskRegister_pos (raw : Nat) : (setMaskRegister raw s).pos = s.pos := by
  unfold setMaskRegister
  split <;> rfl
@[simp] theorem setMaskRegister_enc (raw : Nat) : (setMaskRegister raw s).enc = s.enc := by
  unfold setMaskRegister
  split <;> rfl
@[simp] theorem setMaskRegister_adc (raw : Nat) : (setMaskRegister raw s).adc = s.adc := by
  unfold setMaskRegister
  split <;> rfl
@[simp] theorem setMaskRegister_plain (raw : Nat) : (setMaskRegister raw s).plain = s.plain := by
  unfold setMaskRegister
  split <;> rfl
@[simp] theorem setMaskRegister_refused (raw : Nat) : (setMaskRegister raw s).refused = s.refused := by
  unfold setMaskRegister
  split <;> rfl
@[simp] theorem setMaskRegister_pending (raw : Nat) : (setMaskRegister raw s).pending = s.pending := by
  unfold setMaskRegister
  split <;> rfl
@[simp] theorem setMaskRegister_events (raw : Nat) : (setMaskRegister raw s).events = s.events := by
  unfold setMaskRegister
  split <;> rfl
@[simp] theorem setMaskRegister_responses (raw : Nat) : (setMaskRegister raw s).responses = s.responses := by
  unfold setMaskRegister
  split <;> rfl
@[simp] theorem setMaskRegister_refusals (raw : Nat) : (setMaskRegister raw s).refusals = s.refusals := by
  unfold setMaskRegister
  split <;> rfl

/-! ### regSet -/

@[simp] theorem regSet_cfg (d : RegDesc) (id raw : Nat) : (regSet d id raw s).cfg = s.cfg := by
  unfold regSet
  split <;> simp
@[simp] theorem regSet_pos (d : RegDesc) (id raw : Nat) : (regSet d id raw s).pos = s.pos := by
  unfold regSet
  split <;> simp
@[simp] theorem regSet_adc (d : RegDesc) (id raw : Nat) : (regSet d id raw s).adc = s.adc := by
  unfold regSet
  split <;> simp
@[simp] theorem regSet_refused (d : RegDesc) (id raw : Nat) : (regSet d id raw s).refused = s.refused := by
  unfold regSet
  split <;> simp
@[simp] theorem regSet_pending (d : RegDesc) (id raw : Nat) : (regSet d id raw s).pending = s.pending := by
  unfold regSet
  split <;> simp
@[simp] theorem regSet_events (d : RegDesc) (id raw : Nat) : (regSet d id raw s).events = s.events := by
  unfold regSet
  split <;> simp
@[simp] theorem regSet_responses (d : RegDesc) (id raw : Nat) : (regSet d id raw s).responses = s.responses := by
  unfold regSet
  split <;> simp
@[simp] theorem regSet_refusals (d : RegDesc) (id raw : Nat) : (regSet d id raw s).refusals = s.refusals := by
  unfold regSet
  split <;> simp

/-! ### regRead -/

@[simp] theorem regRead_cfg (id : Nat) : (regRead id s).cfg = s.cfg := by
  unfold regRead
  split <;> rfl
@[simp] theorem regRead_flt (id : Nat) : (regRead id s).flt = s.flt := by
  unfold regRead
  split <;> rfl
@[simp] theorem regRead_ch (id : Nat) : (regRead id s).ch = s.ch := by
  unfold regRead
  split <;> rfl
@[simp] theorem regRead_pid (id : Nat) : (regRead id s).pid = s.pid := by
  unfold regRead
  split <;> rfl
@[simp] theorem regRead_pos (id : Nat) : (regRead id s).pos = s.pos := by
  unfold regRead
  split <;> rfl
@[simp] theorem regRead_enc (id : Nat) : (regRead id s).enc = s.enc := by
  unfold regRead
  split <;> rfl
@[simp] theorem regRead_adc (id : Nat) : (regRead id s).adc = s.adc := by
  unfold regRead
  split <;> rfl
@[simp] theorem regRead_plain (id : Nat) : (regRead id s).plain = s.plain := by
  unfold regRead
  split <;> rfl
@[simp] theorem regRead_refused (id : Nat) : (regRead id s).refused = s.refused := by
  unfold regRead
  split <;> rfl
@[simp] theorem regRead_pending (id : Nat) : (regRead id s).pending = s.pending := by
  unfold regRead
  split <;> rfl
@[simp] theorem regRead_events (id : Nat) : (regRead id s).events = s.events := by
  unfold regRead
  split <;> rfl
@[simp] theorem regRead_refusals (id : Nat) : (regRead id s).refusals = s.refusals := by
  unfold regRead
  split <;> rfl
@[simp] theorem regRead_freeDraws (id : Nat) : (regRead id s).freeDraws = s.freeDraws := by
  unfold regRead
  split <;> rfl

/-! ### regWrite -/

@[simp] theorem regWrite_cfg (id : Nat) (raw : Word16) : (regWrite id raw s).cfg = s.cfg := by
  unfold regWrite
  split <;> simp
@[simp] theorem regWrite_pos (id : Nat) (raw : Word16) : (regWrite id raw s).pos = s.pos := by
  unfold regWrite
  split <;> simp
@[simp] theorem regWrite_adc (id : Nat) (raw : Word16) : (regWrite id raw s).adc = s.adc := by
  unfold regWrite
  split <;> simp
@[simp] theorem regWrite_refused (id : Nat) (raw : Word16) : (regWrite id raw s).refused = s.refused := by
  unfold regWrite
  split <;> simp
@[simp] theorem regWrite_pending (id : Nat) (raw : Word16) : (regWrite id raw s).pending = s.pending := by
  unfold regWrite
  split <;> simp
@[simp] theorem regWrite_events (id : Nat) (raw : Word16) : (regWrite id raw s).events = s.events := by
  unfold regWrite
  split <;> simp
@[simp] theorem regWrite_refusals (id : Nat) (raw : Word16) : (regWrite id raw s).refusals = s.refusals := by
  unfold regWrite
  split <;> simp

end Sys2Proof.Machine
end

