-- ==== Sys2Proof/Laws/Exec.lean ====
section
/-! SUPPORT. What `exec` and `step` answer: one equation per command, and the cases of a step. -/

namespace Sys2Proof.Machine

open Sys2Proof

set_option Elab.async false

variable (s : State) (c : Chan)

/-! ### The next state of each command -/

theorem exec_fltRaise (ty : FaultType) (dev mot : BitVec 4) :
    exec (.fltRaise ty dev mot) s = .next (fltRaise ⟨dev, mot⟩ ty s) := rfl
theorem exec_fltReset : exec .fltReset s = .next (fltReset s) := rfl
theorem exec_fltSetmask (m : Byte) : exec (.fltSetmask m) s = .next (fltSetmask m s) := rfl
theorem exec_fltRdmask : exec .fltRdmask s = .next (respond s (.mask s.flt.mask)) := rfl
theorem exec_fltRdstatus : exec .fltRdstatus s = .next (respond s (.status s.flt.statusByte)) := rfl
theorem exec_fltRddata : exec .fltRddata s = .next (respond s (.data s.flt.dataWord)) := rfl
theorem exec_motSetspeed (v : Number) : exec (.motSetspeed c v) s = .next (motSetspeed c.val v s) := rfl
theorem exec_motSetcurrent (raw : Nat) : exec (.motSetcurrent c raw) s = .next (motSetcurrent c.val raw s) := rfl
theorem exec_motSetstallen (en : Bool) : exec (.motSetstallen c en) s = .next (motSetstallen c.val en s) := rfl
theorem exec_motRdstate :
    exec (.motRdstate c) s = .next (respond s (.motState (motSnapshot (motAt s c.val)))) := rfl
theorem exec_pidSetreq (v : Number) : exec (.pidSetreq c v) s = .next (pidSetreq c.val v s) := rfl
theorem exec_pidSetparams (p i d cap dec dz : Number) :
    exec (.pidSetparams c p i d cap dec dz) s = .next (pidSetparams c.val ⟨p, i, d, cap, dec, dz⟩ s) := rfl
theorem exec_pidTick (now : Nat) : exec (.pidTick c now) s = .next (pidTick c.val now s) := rfl
theorem exec_pidRdsnap :
    exec (.pidRdsnap c) s = .next (respond s (.pidSnap (pidSnapshot (pidAt s c.val)))) := rfl
theorem exec_posSample (raw : Nat) : exec (.posSample c raw) s = .next (posSample c.val raw s) := rfl
theorem exec_encEdge (level : Bool) : exec (.encEdge c level) s = .next (encEdge c.val level s) := rfl
theorem exec_encPoll (now : Nat) : exec (.encPoll c now) s = .next (encPoll c.val now s) := rfl
theorem exec_encOdoreset : exec (.encOdoreset c) s = .next (encOdoreset c.val s) := rfl
theorem exec_encRdfreq :
    exec (.encRdfreq c) s = .next (respond s (.encFreq (encAt s c.val).freq (encAt s c.val).odometry)) := rfl
theorem exec_adcPoll (done : Bool) (raw : Nat) : exec (.adcPoll done raw) s = .next (adcPoll done raw s) := rfl
theorem exec_regRead (id : Byte) : exec (.regRead id) s = .next (regRead id.toNat s) := rfl
theorem exec_regWrite (id : Byte) (raw : Word16) :
    exec (.regWrite id raw) s = .next (regWrite id.toNat raw s) := rfl

/-! ### What every command keeps -/

theorem exec_cfg {i : Instr} {s t : State} (h : exec i s = .next t) : t.cfg = s.cfg := by
  cases i <;> (cases h; simp)

theorem exec_pending {i : Instr} {s t : State} (h : exec i s = .next t) : t.pending = s.pending := by
  cases i <;> (cases h; simp)

theorem exec_refused {i : Instr} {s t : State} (h : exec i s = .next t) : t.refused = s.refused := by
  cases i <;> (cases h; simp)

theorem exec_refusals {i : Instr} {s t : State} (h : exec i s = .next t) : t.refusals = s.refusals := by
  cases i <;> (cases h; simp)

/-! ### The cases of a step -/

/-- Everything a step can do: nothing without a command, the decoded command, or a recorded refusal. -/
theorem step_cases {s t : State} (h : step s = .next t) :
    (s.pending = [] ∧ t = s) ∨
    (∃ cmd rest i, s.pending = cmd :: rest ∧ decode s.cfg cmd = .ok i ∧
      exec i { s with pending := rest } = .next t) ∨
    (∃ cmd rest r, s.pending = cmd :: rest ∧ decode s.cfg cmd = .refuse r ∧
      t = refuseCommand { s with pending := rest } r) := by
  unfold step at h
  split at h
  case h_1 hp =>
    cases h
    exact .inl ⟨hp, rfl⟩
  case h_2 cmd rest hp =>
    split at h
    case h_1 i hd => exact .inr (.inl ⟨cmd, rest, i, hp, hd, h⟩)
    case h_2 r hd =>
      cases h
      exact .inr (.inr ⟨cmd, rest, r, hp, hd, rfl⟩)

/-- A property of states that no step can break: it does not read the presented commands or the model's record,
and every command that decodes keeps it. -/
theorem step_keeps {P : State → Prop} (hp : ∀ s l, P s → P { s with pending := l })
    (hr : ∀ s r, P s → P (refuseCommand s r))
    (he : ∀ i s t cmd, decode s.cfg cmd = .ok i → exec i s = .next t → P s → P t)
    {s t : State} (h : step s = .next t) (hs : P s) : P t := by
  rcases step_cases h with ⟨_, rfl⟩ | ⟨cmd, rest, i, _, hd, hx⟩ | ⟨cmd, rest, r, _, _, rfl⟩
  · exact hs
  · exact he i { s with pending := rest } t cmd hd hx (hp s rest hs)
  · exact hr _ r (hp s rest hs)

end Sys2Proof.Machine
end

