-- ==== Sys2Proof/Laws/Motor.lean ====
section
/-! SUPPORT. What a command can do to the drives and to the fault register, said once. -/

namespace Sys2Proof.Machine

open Sys2Proof

set_option Elab.async false

/-! ### Changes of a motor bank -/

/-- The drive of a bank, without its measurements, is unchanged. -/
def DriveKept (b b' : MotBank) : Prop :=
  b'.state = b.state ∧ b'.control = b.control ∧ b'.pwm = b.pwm ∧ b'.dirA = b.dirA ∧ b'.dirB = b.dirB

/-- The drive of a bank as MOT_SETSPEED leaves it under a clamped control (41_motor R131). -/
def Driven (s : State) (b b' : MotBank) : Prop :=
  ∃ ctl : Number, |ctl| ≤ (s.cfg.maxDuty : Number) ∧ b'.control = stored s ctl ∧ b'.state = targetState ctl ∧
    b'.pwm = drivePwm s.cfg.maxDuty (targetState ctl) ctl ∧
    ((b'.dirA, b'.dirB) = driveLines (targetState ctl) ∨
      targetState ctl = b.state ∧ b'.dirA = b.dirA ∧ b'.dirB = b.dirB)

theorem DriveKept.refl (b : MotBank) : DriveKept b b := ⟨rfl, rfl, rfl, rfl, rfl⟩

theorem DriveKept.trans {a b c : MotBank} (h : DriveKept a b) (k : DriveKept b c) : DriveKept a c :=
  ⟨k.1.trans h.1, k.2.1.trans h.2.1, k.2.2.1.trans h.2.2.1, k.2.2.2.1.trans h.2.2.2.1, k.2.2.2.2.trans h.2.2.2.2⟩

theorem driveKept_of_eq {b b' : MotBank} (h : b' = b) : DriveKept b b' := h ▸ DriveKept.refl b

theorem Driven.after_kept {s u : State} {a b c : MotBank} (hcfg : u.cfg = s.cfg) (h : DriveKept a b) (k : Driven u b c) :
    Driven s a c := by
  obtain ⟨ctl, h1, h2, h3, h4, h5⟩ := k
  rw [hcfg] at h1 h4
  refine ⟨ctl, h1, by rw [h2, stored_congr hcfg], h3, h4, ?_⟩
  rcases h5 with h5 | ⟨h5, h6, h7⟩
  · exact .inl h5
  · exact .inr ⟨h5.trans h.1, h6.trans h.2.2.2.1, h7.trans h.2.2.2.2⟩

/-- Writing a bank whose drive is that of the old one. -/
theorem driveKept_setMot (s : State) (c d : Nat) (b : MotBank) (h : DriveKept (motAt s c) b) :
    DriveKept (motAt s d) (motAt (setMot s c b) d) := by
  rcases motAt_setMot_cases s c d b with ⟨e, rfl⟩ | e
  · rw [e]
    exact h
  · exact driveKept_of_eq e

/-! ### MOT_SETSPEED -/

/-- The bank MOT_SETSPEED leaves under a clamped control, with no fault latched. -/
def drivenBank (s : State) (b : MotBank) (ctl : Number) : MotBank :=
  { b with
    control := stored s ctl
    state := targetState ctl
    pwm := drivePwm s.cfg.maxDuty (targetState ctl) ctl
    dirA := if targetState ctl ≠ b.state then (driveLines (targetState ctl)).1 else b.dirA
    dirB := if targetState ctl ≠ b.state then (driveLines (targetState ctl)).2 else b.dirB }

theorem motSetspeed_of_active {s : State} (c : Nat) (v : Number) (h : s.flt.active = true) : motSetspeed c v s = s := by
  simp [motSetspeed, h]

/-- MOT_SETSPEED with no fault latched (41_motor R131, R132). -/
theorem motSetspeed_of_inactive {s : State} (c : Nat) (v : Number) (h : s.flt.active = false) :
    motSetspeed c v s =
      (let ctl := clamp v (-(s.cfg.maxDuty : Number)) s.cfg.maxDuty
       { s with
        ch := s.ch.set c (drivenBank s (motAt s c) ctl)
        events :=
          if targetState ctl ≠ (motAt s c).state then
            s.events ++ [.dir c (driveLines (targetState ctl)).1 (driveLines (targetState ctl)).2]
          else s.events }) := by
  simp only [motSetspeed, h, Bool.false_eq_true, if_false, drivenBank]
  split
  · simp [setMot, emit]
  · rename_i ht
    simp only [setMot]
    rw [not_not.mp ht]

theorem driven_drivenBank (s : State) (b : MotBank) {ctl : Number} (h : |ctl| ≤ (s.cfg.maxDuty : Number)) :
    Driven s b (drivenBank s b ctl) := by
  refine ⟨ctl, h, rfl, rfl, rfl, ?_⟩
  by_cases ht : targetState ctl = b.state
  · exact .inr ⟨ht, by simp [drivenBank, ht], by simp [drivenBank, ht]⟩
  · exact .inl (by simp [drivenBank, ht])

/-- What MOT_SETSPEED leaves in each bank. -/
theorem motSetspeed_motAt (c : Nat) (v : Number) (s : State) (d : Nat) :
    motAt (motSetspeed c v s) d = motAt s d ∨
    (s.flt.active = false ∧ d = c ∧
      motAt (motSetspeed c v s) d =
        drivenBank s (motAt s d) (clamp v (-(s.cfg.maxDuty : Number)) s.cfg.maxDuty)) := by
  by_cases ha : s.flt.active = true
  · exact .inl (by rw [motSetspeed_of_active c v ha])
  · have hf : s.flt.active = false := by simpa using ha
    rcases motAt_setMot_cases s c d (drivenBank s (motAt s c) (clamp v (-(s.cfg.maxDuty : Number)) s.cfg.maxDuty)) with
      ⟨e, rfl⟩ | e
    · refine .inr ⟨hf, rfl, ?_⟩
      rw [motSetspeed_of_inactive d v hf]
      exact e
    · refine .inl ?_
      rw [motSetspeed_of_inactive c v hf]
      exact e

/-! ### STALL_CHECK -/

/-- Everything STALL_CHECK can do (41_motor R138). -/
theorem stallCheck_cases (c : Nat) (speed : Number) (s : State) :
    stallCheck c speed s = s ∨
    (∃ n, n ≤ (chanCfg s.cfg c).stallDebounce ∧
      stallCheck c speed s = setMot s c { motAt s c with stallCnt := n }) ∨
    ((motAt s c).stallEn = true ∧ stallCondition (chanCfg s.cfg c) (motAt s c) speed = true ∧
      (chanCfg s.cfg c).stallDebounce ≤ (motAt s c).stallCnt ∧
      stallCheck c speed s =
        fltRaise (channelOrigin s.cfg c) (stallClass (chanCfg s.cfg c) (motAt s c).lastRaw)
          (setMot s c { motAt s c with stallCnt := 0 })) := by
  by_cases he : (motAt s c).stallEn = true
  · by_cases hc : stallCondition (chanCfg s.cfg c) (motAt s c) speed = true
    · by_cases hn : (chanCfg s.cfg c).stallDebounce < (motAt s c).stallCnt + 1
      · exact .inr (.inr ⟨he, hc, by omega, by simp [stallCheck, he, hc, hn]⟩)
      · exact .inr (.inl ⟨(motAt s c).stallCnt + 1, by omega, by simp [stallCheck, he, hc, hn]⟩)
    · exact .inr (.inl ⟨0, Nat.zero_le _, by simp [stallCheck, he, hc]⟩)
  · exact .inl (by simp [stallCheck, he])

/-! ### Fault entry, seen from one channel -/

/-- What fault entry leaves in one bank. -/
theorem fltRaise_motAt (o : Origin) (ty : FaultType) (s : State) (d : Nat) :
    motAt (fltRaise o ty s) d = motAt s d ∨
    (s.flt.active = false ∧ (fltRaise o ty s).flt.active = true ∧
      motAt (fltRaise o ty s) d = stoppedBank s.cfg (motAt s d)) := by
  rcases fltRaise_cases o ty s with ⟨e, _⟩ | ⟨ha, _, e, _, hin, hout, hbig⟩
  · exact .inl (by rw [e])
  · by_cases h1 : d < s.cfg.nch
    · by_cases h2 : d < s.ch.length
      · exact .inr ⟨ha, by rw [e], hin d h1 h2⟩
      · exact .inl (hbig d (Nat.le_of_not_lt h2))
    · exact .inl (hout d (Nat.le_of_not_lt h1))

/-- What fault entry leaves in the fault register. -/
theorem fltRaise_flt (o : Origin) (ty : FaultType) (s : State) :
    ((fltRaise o ty s).flt = s.flt ∧ (s.flt.active = true ∨ s.flt.masked ty = true)) ∨
    (s.flt.active = false ∧ s.flt.masked ty = false ∧
      (fltRaise o ty s).flt = { active := true, ftype := ty, origin := o, mask := s.flt.mask }) := by
  rcases fltRaise_cases o ty s with ⟨e, h⟩ | ⟨ha, hm, e, _⟩
  · exact .inl ⟨by rw [e], h⟩
  · exact .inr ⟨ha, hm, by rw [e]⟩

/-- A bank the state does not hold reads as a channel in STOP. -/
theorem motAt_of_length_le {s : State} {d : Nat} (h : s.ch.length ≤ d) : motAt s d = MotBank.reset := by
  simp [motAt, List.getD_eq_getElem?_getD, h]

/-- A command that latches a fault leaves every channel of the block in STOP or the fault state. -/
theorem fltRaise_stops (o : Origin) (ty : FaultType) (s : State) (h0 : s.flt.active = false)
    (h1 : (fltRaise o ty s).flt.active = true) (d : Nat) (hd : d < s.cfg.nch) :
    (motAt (fltRaise o ty s) d).state = .stop ∨
      (motAt (fltRaise o ty s) d).state = stopState s.cfg.faultStopState := by
  rcases fltRaise_cases o ty s with ⟨e, _⟩ | ⟨_, _, _, _, hin, _, hbig⟩
  · rw [e, h0] at h1
    cases h1
  · by_cases h2 : d < s.ch.length
    · exact .inr (by rw [hin d hd h2]; rfl)
    · exact .inl (by rw [hbig d (Nat.le_of_not_lt h2), motAt_of_length_le (Nat.le_of_not_lt h2)]; rfl)

/-- What fault return leaves in one bank. -/
theorem fltReset_motAt (s : State) (d : Nat) :
    motAt (fltReset s) d = motAt s d ∨ motAt (fltReset s) d = { motAt s d with stallCnt := 0 } := by
  obtain ⟨_, _, hin, hout, hbig⟩ := fltReset_spec s
  by_cases h1 : d < s.cfg.nch
  · by_cases h2 : d < s.ch.length
    · exact .inr (hin d h1 h2)
    · exact .inl (hbig d (Nat.le_of_not_lt h2))
  · exact .inl (hout d (Nat.le_of_not_lt h1))

/-- What STALL_CHECK leaves in the fault register. -/
theorem stallCheck_flt (c : Nat) (speed : Number) (s : State) :
    (stallCheck c speed s).flt = s.flt ∨ (s.flt.active = false ∧ (stallCheck c speed s).flt.active = true) := by
  rcases stallCheck_cases c speed s with e | ⟨n, _, e⟩ | ⟨_, _, _, e⟩
  · exact .inl (by rw [e])
  · exact .inl (by rw [e]; rfl)
  · rcases fltRaise_flt (channelOrigin s.cfg c) (stallClass (chanCfg s.cfg c) (motAt s c).lastRaw)
      (setMot s c { motAt s c with stallCnt := 0 }) with ⟨h, _⟩ | ⟨h0, _, h⟩
    · exact .inl (by rw [e, h]; rfl)
    · exact .inr ⟨h0, by rw [e, h]⟩

/-! ### The relation a command keeps between the drives before and after it -/

/-- Everything a command can do to the drive of channel d: nothing; MOT_SETSPEED, with no fault latched; the stop of a
fault that the command latches. -/
def DriveStep (s t : State) (d : Nat) : Prop :=
  DriveKept (motAt s d) (motAt t d) ∨
  (s.flt.active = false ∧ t.flt.active = false ∧ Driven s (motAt s d) (motAt t d)) ∨
  (s.flt.active = false ∧ t.flt.active = true ∧ ∃ b, motAt t d = stoppedBank s.cfg b)

theorem driveStep_of_motAt {s t : State} {d : Nat} (h : motAt t d = motAt s d) : DriveStep s t d :=
  .inl (driveKept_of_eq h)

theorem driveStep_fltRaise (o : Origin) (ty : FaultType) (s u : State) (d : Nat) (hf : u.flt = s.flt)
    (hc : u.cfg = s.cfg) (hk : DriveKept (motAt s d) (motAt u d)) : DriveStep s (fltRaise o ty u) d := by
  rcases fltRaise_motAt o ty u d with e | ⟨h0, h1, e⟩
  · exact .inl (by rw [e]; exact hk)
  · exact .inr (.inr ⟨by rw [← hf]; exact h0, h1, motAt u d, by rw [e, hc]⟩)

theorem driveStep_motSetcurrent (c raw : Nat) (s : State) (d : Nat) : DriveStep s (motSetcurrent c raw s) d := by
  have hk : ∀ f r, DriveKept (motAt s d) (motAt (setMot s c { motAt s c with filtered := f, lastRaw := r }) d) :=
    fun f r => driveKept_setMot s c d _ ⟨rfl, rfl, rfl, rfl, rfl⟩
  simp only [motSetcurrent]
  split
  · exact driveStep_fltRaise _ _ s _ d rfl rfl (hk _ _)
  · exact .inl (hk _ _)

/-- STALL_CHECK never drives. -/
theorem stallCheck_drive (c : Nat) (speed : Number) (s : State) (d : Nat) :
    DriveKept (motAt s d) (motAt (stallCheck c speed s) d) ∨
    (s.flt.active = false ∧ (stallCheck c speed s).flt.active = true ∧
      ∃ b, motAt (stallCheck c speed s) d = stoppedBank s.cfg b) := by
  have hk : ∀ n, DriveKept (motAt s d) (motAt (setMot s c { motAt s c with stallCnt := n }) d) :=
    fun n => driveKept_setMot s c d _ ⟨rfl, rfl, rfl, rfl, rfl⟩
  rcases stallCheck_cases c speed s with e | ⟨n, _, e⟩ | ⟨_, _, _, e⟩
  · exact .inl (driveKept_of_eq (by rw [e]))
  · exact .inl (by rw [e]; exact hk n)
  · rw [e]
    rcases fltRaise_motAt (channelOrigin s.cfg c) (stallClass (chanCfg s.cfg c) (motAt s c).lastRaw)
      (setMot s c { motAt s c with stallCnt := 0 }) d with e' | ⟨h0, h1, e'⟩
    · exact .inl (by rw [e']; exact hk 0)
    · exact .inr ⟨h0, h1, _, e'⟩

theorem driveStep_pidTick (c now : Nat) (s : State) (d : Nat) : DriveStep s (pidTick c now s) d := by
  simp only [pidTick]
  split
  · exact driveStep_of_motAt rfl
  · generalize |measured c s - (pidAt s c).prevActual| = speed
    generalize pidOutput _ _ _ _ = out
    have h := stallCheck_drive c speed (pidEstimate c now s) d
    have hflt := stallCheck_flt c speed (pidEstimate c now s)
    have hcfg : (stallCheck c speed (pidEstimate c now s)).cfg = s.cfg := by simp
    generalize stallCheck c speed (pidEstimate c now s) = u at h hflt hcfg ⊢
    unfold pidDrive
    split
    · rcases h with h | ⟨h0, h1, h2⟩
      · exact .inl h
      · exact .inr (.inr ⟨h0, h1, h2⟩)
    · rename_i ha
      have hu : u.flt.active = false := by simpa using ha
      have hs : s.flt.active = false := by
        rcases hflt with e | ⟨_, e⟩
        · rw [← hu, e]
          rfl
        · rw [hu] at e
          cases e
      have hk : DriveKept (motAt s d) (motAt u d) := by
        rcases h with h | ⟨_, h1, _⟩
        · exact h
        · rw [hu] at h1
          cases h1
      rcases motSetspeed_motAt c out u d with e | ⟨_, rfl, e⟩
      · exact .inl (by rw [e]; exact hk)
      · refine .inr (.inl ⟨hs, by simp [hu], ?_⟩)
        rw [e]
        exact Driven.after_kept hcfg hk (driven_drivenBank u _ (abs_clamp_le (Nat.cast_nonneg _)))

theorem driveStep_regWrite (id : Nat) (raw : Word16) (s : State) (d : Nat) : DriveStep s (regWrite id raw s) d := by
  unfold regWrite
  split
  · rename_i r _
    refine .inl ?_
    show DriveKept (motAt s d) (motAt (regSet r id (writtenRaw r raw) s) d)
    unfold regSet
    split
    case h_1 => exact driveKept_of_eq (by simp [motAt])
    case h_2 =>
      rcases fltReset_motAt s d with e | e <;> rw [e]
      · exact DriveKept.refl _
      · exact ⟨rfl, rfl, rfl, rfl, rfl⟩
    case h_5 => exact driveKept_setMot s _ d _ ⟨rfl, rfl, rfl, rfl, rfl⟩
    all_goals exact DriveKept.refl _
  · exact driveStep_of_motAt rfl
  · exact driveStep_of_motAt rfl

theorem driveStep_adcPoll (done : Bool) (raw : Nat) (s : State) (d : Nat) : DriveStep s (adcPoll done raw s) d := by
  unfold adcPoll adcService
  split
  · exact driveStep_of_motAt rfl
  · split
    · split <;> exact driveStep_of_motAt rfl
    · split
      · rename_i e _ _ _ _
        show DriveStep s (adcDispatch e raw s) d
        unfold adcDispatch
        split
        · exact driveStep_motSetcurrent _ _ s d
        · exact driveStep_of_motAt rfl
      · exact driveStep_of_motAt rfl

/-- What any command can do to the drive of any channel. -/
theorem exec_driveStep {i : Instr} {s t : State} (h : exec i s = .next t) (d : Nat) : DriveStep s t d := by
  cases i <;> cases h
  case fltRaise => exact driveStep_fltRaise _ _ s s d rfl rfl (DriveKept.refl _)
  case fltReset =>
    refine .inl ?_
    rcases fltReset_motAt s d with e | e <;> rw [e]
    · exact DriveKept.refl _
    · exact ⟨rfl, rfl, rfl, rfl, rfl⟩
  case motSetspeed c v =>
    rcases motSetspeed_motAt c.val v s d with e | ⟨hs, _, e⟩
    · exact driveStep_of_motAt e
    · refine .inr (.inl ⟨hs, by simp [hs], ?_⟩)
      rw [e]
      exact driven_drivenBank s _ (abs_clamp_le (Nat.cast_nonneg _))
  case motSetcurrent => exact driveStep_motSetcurrent _ _ s d
  case motSetstallen => exact .inl (driveKept_setMot s _ d _ ⟨rfl, rfl, rfl, rfl, rfl⟩)
  case pidTick => exact driveStep_pidTick _ _ s d
  case encPoll => exact driveStep_of_motAt (by simp [motAt])
  case adcPoll => exact driveStep_adcPoll _ _ s d
  case regRead => exact driveStep_of_motAt (by simp [motAt])
  case regWrite => exact driveStep_regWrite _ _ s d
  all_goals exact driveStep_of_motAt rfl

end Sys2Proof.Machine
end

