-- ==== Sys2Proof/Laws/PerInstr.lean ====
section
/-! SUPPORT. The per-instruction family `EncodesOwnRow`: the encoding of a command lies in its own row of the opcode map,
carries its channel in bits 15:12, and gives the row as many operands as it has. -/

namespace Sys2Proof.Laws.EncodesOwnRow

open Sys2Proof

/-- 30_encoding R80, R82 and R85 for one command. -/
def Statement (i : Instr) : Prop :=
  (encode i).header &&& i.op.mask = i.op.matchWord ∧
  headerChan (encode i).header = i.chan ∧
  (encode i).operands.length = i.op.operandTypes.length

theorem header_mask (o : Op) : ∀ c : Chan, (o.format = .global → c = 0) →
    headerOf o c &&& o.mask = o.matchWord := by
  cases o <;> decide +kernel

/-- A global command has channel 0, so its header is the match word itself. -/
theorem of_operands {i : Instr} (hc : i.op.format = .global → i.chan = 0)
    (hl : i.operands.length = i.op.operandTypes.length) : Statement i :=
  ⟨header_mask i.op i.chan hc, headerChan_headerOf i.op i.chan, hl⟩

theorem fltRaise (t : FaultType) (dev mot : BitVec 4) : Statement (.fltRaise t dev mot) :=
  of_operands (fun _ => rfl) rfl

theorem fltReset : Statement .fltReset :=
  of_operands (fun _ => rfl) rfl

theorem fltSetmask (m : Byte) : Statement (.fltSetmask m) :=
  of_operands (fun _ => rfl) rfl

theorem fltRdmask : Statement .fltRdmask :=
  of_operands (fun _ => rfl) rfl

theorem fltRdstatus : Statement .fltRdstatus :=
  of_operands (fun _ => rfl) rfl

theorem fltRddata : Statement .fltRddata :=
  of_operands (fun _ => rfl) rfl

theorem motSetspeed (c : Chan) (v : Number) : Statement (.motSetspeed c v) :=
  of_operands (fun h => nomatch h) rfl

theorem motSetcurrent (c : Chan) (raw : Nat) : Statement (.motSetcurrent c raw) :=
  of_operands (fun h => nomatch h) rfl

theorem motSetstallen (c : Chan) (en : Bool) : Statement (.motSetstallen c en) :=
  of_operands (fun h => nomatch h) rfl

theorem motRdstate (c : Chan) : Statement (.motRdstate c) :=
  of_operands (fun h => nomatch h) rfl

theorem pidSetreq (c : Chan) (v : Number) : Statement (.pidSetreq c v) :=
  of_operands (fun h => nomatch h) rfl

theorem pidSetparams (c : Chan) (p i d cap dec dz : Number) : Statement (.pidSetparams c p i d cap dec dz) :=
  of_operands (fun h => nomatch h) rfl

theorem pidTick (c : Chan) (now : Nat) : Statement (.pidTick c now) :=
  of_operands (fun h => nomatch h) rfl

theorem pidRdsnap (c : Chan) : Statement (.pidRdsnap c) :=
  of_operands (fun h => nomatch h) rfl

theorem posSample (c : Chan) (raw : Nat) : Statement (.posSample c raw) :=
  of_operands (fun h => nomatch h) rfl

theorem encEdge (c : Chan) (l : Bool) : Statement (.encEdge c l) :=
  of_operands (fun h => nomatch h) rfl

theorem encPoll (c : Chan) (now : Nat) : Statement (.encPoll c now) :=
  of_operands (fun h => nomatch h) rfl

theorem encOdoreset (c : Chan) : Statement (.encOdoreset c) :=
  of_operands (fun h => nomatch h) rfl

theorem encRdfreq (c : Chan) : Statement (.encRdfreq c) :=
  of_operands (fun h => nomatch h) rfl

theorem adcPoll (d : Bool) (raw : Nat) : Statement (.adcPoll d raw) :=
  of_operands (fun _ => rfl) rfl

theorem regRead (n : Byte) : Statement (.regRead n) :=
  of_operands (fun _ => rfl) rfl

theorem regWrite (n : Byte) (raw : Word16) : Statement (.regWrite n raw) :=
  of_operands (fun _ => rfl) rfl

end Sys2Proof.Laws.EncodesOwnRow
end

