-- ==== Sys2Proof/Laws/RegPort.lean ====
section
/-! SUPPORT. What a read of a register can answer: a raw value of that register (20_memory R62, 40_regport R117). -/

namespace Sys2Proof.Machine

open Sys2Proof

set_option Elab.async false

theorem saturateRaw_le (d : RegDesc) (v : Nat) : saturateRaw d v ≤ rawMax d := Nat.min_le_right _ _

theorem saturateRaw_of_le {d : RegDesc} {v : Nat} (h : v ≤ rawMax d) : saturateRaw d v = v := Nat.min_eq_left h

theorem saturateRaw_of_ge {d : RegDesc} {v : Nat} (h : rawMax d ≤ v) : saturateRaw d v = rawMax d :=
  Nat.min_eq_right h

theorem byte_le_rawMax {d : RegDesc} (hs : d.size = 1 ∨ d.size = 2) {n : Nat} (h : n < 256) : n ≤ rawMax d := by
  rcases hs with hs | hs <;> simp only [rawMax, hs] <;> omega

/-- A Number clamped into the domain of a register maps to one of its raw values. -/
theorem mappedRead_le {d : RegDesc} (hlt : d.min < d.max) (v : Number) : mappedRead d v ≤ rawMax d := by
  have hD : 0 < d.max - d.min := sub_pos.mpr hlt
  have hv : clamp v d.min d.max ≤ d.max := clamp_le
  unfold mappedRead mapRaw
  refine floorNat_le ?_
  rw [div_le_iff₀ hD, mul_comm (rawMax d : Number)]
  exact mul_le_mul_of_nonneg_right (by linarith) (Nat.cast_nonneg _)

/-- Every getter answers a raw value of its register; a plain register does when what it stores fits it. -/
theorem regGet_le_rawMax {d : RegDesc} {id : Nat} {s : State} (hs : d.size = 1 ∨ d.size = 2) (hlt : d.min < d.max)
    (hp : d.binding = .plain → (s.plain.read id).toNat ≤ rawMax d) : regGet d id s ≤ rawMax d := by
  unfold regGet
  split
  case h_1 => exact byte_le_rawMax hs s.flt.statusByte.isLt
  case h_2 => exact saturateRaw_le d _
  case h_3 => exact byte_le_rawMax hs s.flt.mask.isLt
  case h_4 => exact Nat.zero_le _
  case h_8 c _ => exact byte_le_rawMax hs (Nat.lt_trans (motAt s c).state.code.isLt (by decide))
  case h_11 c _ => exact byte_le_rawMax hs (by cases (motAt s c).stallEn <;> decide)
  case h_13 => exact Nat.le_sub_one_of_lt (Nat.mod_lt _ (Nat.two_pow_pos _))
  case h_14 hb => exact hp hb
  all_goals exact mappedRead_le hlt _

end Sys2Proof.Machine
end

