-- ==== Sys2Proof/Machine/Asm.lean ====
section
/-! DEFINITION. The assembler syntax of 30_encoding R90 and its pseudo-commands (R91): one line of text to the commands it
stands for. Only notation: no meaning uses it (notes/assumptions/17.md). -/

namespace Sys2Proof.Machine

open Sys2Proof

/-- The mnemonic of a row of the opcode map, 30_encoding R85. -/
def Op.mnemonic : Op → String
  | .fltRaise => "FLT_RAISE"
  | .fltReset => "FLT_RESET"
  | .fltSetmask => "FLT_SETMASK"
  | .fltRdmask => "FLT_RDMASK"
  | .fltRdstatus => "FLT_RDSTATUS"
  | .fltRddata => "FLT_RDDATA"
  | .motSetspeed => "MOT_SETSPEED"
  | .motSetcurrent => "MOT_SETCURRENT"
  | .motSetstallen => "MOT_SETSTALLEN"
  | .motRdstate => "MOT_RDSTATE"
  | .pidSetreq => "PID_SETREQ"
  | .pidSetparams => "PID_SETPARAMS"
  | .pidTick => "PID_TICK"
  | .pidRdsnap => "PID_RDSNAP"
  | .posSample => "POS_SAMPLE"
  | .encEdge => "ENC_EDGE"
  | .encPoll => "ENC_POLL"
  | .encOdoreset => "ENC_ODORESET"
  | .encRdfreq => "ENC_RDFREQ"
  | .adcPoll => "ADC_POLL"
  | .regRead => "REG_READ"
  | .regWrite => "REG_WRITE"

/-- The name of a fault type, 42_fault R160. -/
def FaultType.name : FaultType → String
  | .boot => "BOOT"
  | .overcurrent => "OVERCURRENT"
  | .short => "SHORT"
  | .stall => "STALL"
  | .encoderFault => "ENCODERFAULT"
  | .driveFault => "DRIVEFAULT"
  | .remote => "REMOTE"

/-- The digit a character is, in a base up to 16. -/
def digitOf (base : Nat) (ch : Char) : Option Nat :=
  let n := ch.toNat
  let d :=
    if '0'.toNat ≤ n ∧ n ≤ '9'.toNat then some (n - '0'.toNat)
    else if 'a'.toNat ≤ n ∧ n ≤ 'f'.toNat then some (n - 'a'.toNat + 10)
    else if 'A'.toNat ≤ n ∧ n ≤ 'F'.toNat then some (n - 'A'.toNat + 10)
    else none
  d.filter (· < base)

/-- A row of digits read from the left onto `acc`. -/
def digitsFrom (base acc : Nat) : List Char → Option Nat
  | [] => some acc
  | ch :: cs => (digitOf base ch).bind fun d => digitsFrom base (acc * base + d) cs

/-- At least one digit. -/
def digits (base : Nat) (cs : List Char) : Option Nat :=
  if cs.isEmpty then none else digitsFrom base 0 cs

/-- An integer, decimal or `0x` hexadecimal. -/
def parseNat : List Char → Option Nat
  | '0' :: 'x' :: cs => digits 16 cs
  | cs => digits 10 cs

/-- A number without its sign: an integer, a decimal with a fraction, or a rational p/q. -/
def parseUnsigned (cs : List Char) : Option Number :=
  match cs.splitOn '/', cs.splitOn '.' with
  | [p, q], _ =>
    (digits 10 p).bind fun n => (digits 10 q).bind fun d => if d = 0 then none else some ((n : Number) / (d : Number))
  | _, [whole, frac] =>
    (digits 10 whole).bind fun n =>
      (digits 10 frac).map fun f => (n : Number) + (f : Number) / ((10 ^ frac.length : Nat) : Number)
  | _, _ => (parseNat cs).map fun n => (n : Number)

/-- An operand: a number, or the name of a fault type. -/
def parseOperand (cs : List Char) : Option Number :=
  match FaultType.all.find? fun t => (FaultType.name t).toList == cs with
  | some t => some (t.code.toNat : Number)
  | none =>
    match cs with
    | '-' :: rest => (parseUnsigned rest).map fun v => -v
    | _ => parseUnsigned cs

/-- A channel `cN`. -/
def parseChan : List Char → Option Chan
  | 'c' :: cs => (digits 10 cs).bind fun n => if h : n < 16 then some ⟨n, h⟩ else none
  | _ => none

def isBlank (ch : Char) : Bool := ch == ' ' || ch == '\t' || ch == '\r'

def trimBlanks (cs : List Char) : List Char :=
  ((cs.dropWhile isBlank).reverse.dropWhile isBlank).reverse

/-- The comma-separated fields after the mnemonic; the parentheses of an origin only group. -/
def fieldsOf (cs : List Char) : List (List Char) :=
  let t := trimBlanks (cs.filter fun ch => ch != '(' && ch != ')')
  if t.isEmpty then [] else (t.splitOn ',').map trimBlanks

/-- The pseudo-command a mnemonic and its fields name, 30_encoding R91. -/
def parsePseudo (name : List Char) (fields : List (List Char)) : Option Pseudo :=
  match fields with
  | [] =>
    if name = "FLT_ENABLEALL".toList then some .fltEnableall
    else if name = "ADC_IDLE".toList then some .adcIdle
    else none
  | [c] => if name = "MOT_STOP".toList then (parseChan c).map .motStop else none
  | [c, k, level] =>
    if name = "ENC_EDGES".toList then
      (parseChan c).bind fun ch => (parseNat k).bind fun n => (parseNat level).bind fun l =>
        if l < 2 then some (.encEdges ch n (l == 1)) else none
    else none
  | _ => none

/-- The command a mnemonic and its fields name, 30_encoding R90. -/
def parseCommand (name : List Char) (fields : List (List Char)) : Option Command :=
  (Op.all.find? fun o => (Op.mnemonic o).toList == name).bind fun o =>
    match o.format, fields with
    | .global, _ => (fields.mapM parseOperand).map fun vs => ⟨headerOf o 0, vs⟩
    | .channel, c :: rest =>
      (parseChan c).bind fun ch => (rest.mapM parseOperand).map fun vs => ⟨headerOf o ch, vs⟩
    | .channel, [] => none

/-- The commands of one line; none of a blank or comment line. -/
def assembleLine (line : List Char) : Option (List Command) :=
  let code := trimBlanks (line.takeWhile (· != ';'))
  if code.isEmpty then some []
  else
    let name := code.takeWhile fun ch => !isBlank ch
    let fields := fieldsOf (code.drop name.length)
    match parsePseudo name fields with
    | some p => some (p.expand.map encode)
    | none => (parseCommand name fields).map fun cmd => [cmd]

/-- The commands of a program text, in order. -/
def assemble (text : String) : Option (List Command) :=
  ((text.toList.splitOn '\n').mapM assembleLine).map List.flatten

end Sys2Proof.Machine
end

