-- ==== Sys2Proof/Tests/Slice0.lean ====
section
/-! SUPPORT. The model's own tests: the well-formedness checks, the words of every row, one step of every command
against spec/95_test_vectors.md, and a witness of the hypotheses of every obligation. -/

namespace Sys2Proof.Tests

open Sys2Proof Machine

set_option Elab.async false

/-! ### Small blocks -/

/-- A block of two channels, a position and a speed channel, with the values of 95_test_vectors sections 2.3 to 2.8. -/
def cfg2 : Config :=
  { Config.standard with
    deviceIndex := 3
    bootOrigin := ⟨3, 0⟩
    chan := [ChanCfg.standard .position, ChanCfg.standard .speed] }

/-- The reset state of that block: the boot fault is latched. -/
def faulted : State := State.resetOf cfg2

/-- The same with no fault latched. -/
def running : State := { faulted with flt := { faulted.flt with active := false } }

/-- `running` with a fault mask. -/
def masked (m : Byte) : State := { running with flt := { running.flt with mask := m } }

/-- `running` with channel 0 driving forward under a control. -/
def driving (control : Number) : State :=
  setMot running 0 { motAt running 0 with state := .forward, control := control, pwm := floorNat control, dirA := true }

/-- `running` with the PID bank of channel 0 and its measured value. -/
def tracking (required prevActual integral a : Number) (prevTime : Nat) : State :=
  setPos
    (setPid running 0
      { pidAt running 0 with
        required := required, prevActual := prevActual, integral := integral, prevTime := prevTime })
    0 ⟨a⟩

/-- `running` with the encoder of channel 1. -/
def counting (ticks negTicks winStart odometry : Nat) (freq : Number) : State :=
  setEnc running 1 { ticks := ticks, negTicks := negTicks, winStart := winStart, freq := freq, odometry := odometry }

/-- Channel 0 driving with its stall check enabled at a count, with a last raw sample. -/
def stalling (control : Number) (stallCnt lastRaw : Nat) : State :=
  let s := driving control
  setMot s 0 { motAt s 0 with stallEn := true, stallCnt := stallCnt, lastRaw := lastRaw }

/-- `running` with the scheduler waiting for the entry it services. -/
def waiting (s : State) (cur : Nat) : State := { s with adc := ⟨.waiting, cur, 0⟩ }

/-- `s` with one command presented. -/
def presenting (s : State) (h : Word16) (operands : List Number) : State := { s with pending := [⟨h, operands⟩] }

/-- What a property says of the next state of a command. -/
def after (i : Instr) (s : State) (p : State → Bool) : Bool :=
  match exec i s with
  | .next t => p t
  | .fault _ => false
  | .refused _ => false

/-! ### Well-formedness: one ill-formed term for each check (00_scope R6, R7; 40_regport R110, R121; 46_adc R230) -/

theorem test_wf_accepts_the_standard_blocks :
    decide Config.standard.WellFormed = true ∧ decide cfg2.WellFormed = true := by decide +kernel

theorem test_wf_refuses_bad_configurations :
    ([ { cfg2 with chan := [], adcTable := [] },
       { cfg2 with chan := List.replicate 17 (ChanCfg.standard .speed) },
       { cfg2 with maxDuty := 0 },
       { cfg2 with encCntW := 7 }, { cfg2 with encCntW := 33 },
       { cfg2 with odoW := 7 }, { cfg2 with odoW := 33 },
       { cfg2 with timeW := 15 }, { cfg2 with timeW := 33 },
       { cfg2 with adcRawMax := 0 },
       { cfg2 with chan := [{ ChanCfg.standard .speed with calMin := 5, calMax := 5 }], adcTable := [] },
       { cfg2 with adcTable := List.replicate 9 ⟨0, .current, 0⟩ },
       { cfg2 with adcTable := [⟨16, .current, 0⟩] },
       { cfg2 with adcTable := [⟨0, .current, 2⟩] },
       { cfg2 with regmap := Config.standardRegmap ++ List.replicate 249 ⟨1, true, 0, 255, .plain⟩ },
       { cfg2 with regmap := Config.standardRegmap.drop 1 },
       { cfg2 with regmap := Config.standardRegmap.eraseIdx 1 } ] : List Config).all
      (fun cfg => !decide cfg.WellFormed) = true := by decide +kernel

theorem test_wf_refuses_bad_channels :
    (let k := ChanCfg.standard .position
     [ { k with ocThreshold := 1025 }, { k with highControl := -1 },
       { k with alphaRise := -1 }, { k with alphaRise := 2 }, { k with alphaFall := -1 }, { k with alphaFall := 2 },
       { k with stallCtrl := -1 }, { k with stallSpeedEps := 0 },
       { k with iZero := 301 }, { k with iNominal := 1025 },
       { k with pidInit := { k.pidInit with iCap := -1 } }, { k with pidInit := { k.pidInit with deadZone := -1 } },
       { k with calMin := 1025 }, { k with calMax := 1025 }, { k with calMin := 900 },
       { k with encWindowUs := 0 }, { k with encWindowUs := 2 ^ 32 } ]).all
      (fun k => !decide (k.WellFormed 1024 32)) = true := by decide +kernel

theorem test_wf_refuses_bad_registers :
    ([ ⟨0, true, 0, 0, .plain⟩, ⟨3, true, 0, 16777215, .plain⟩,
       ⟨1, true, 5, 5, .pidRequired 0⟩,
       ⟨1, true, 1, 255, .plain⟩, ⟨1, true, 0, 254, .plain⟩, ⟨2, true, 0, 255, .encOdometry 0⟩,
       ⟨1, true, 0, 10, .pidRequired 2⟩,
       ⟨1, true, -1, 10, .pidParam 0 .iCap⟩, ⟨1, true, -1, 10, .pidParam 0 .deadZone⟩,
       ⟨1, true, 0, 255, .faultStatus⟩, ⟨2, true, 0, 65535, .faultData⟩, ⟨1, true, 0, 10, .pidActual 0⟩,
       ⟨1, true, 0, 255, .motorState 0⟩, ⟨1, true, 0, 10, .motorControl 0⟩, ⟨1, true, 0, 10, .motorFiltered 0⟩,
       ⟨1, true, 0, 10, .encFreq 0⟩ ] : List RegDesc).all
      (fun d => !decide (d.WellFormed 2)) = true := by decide +kernel

theorem test_wf_refuses_bad_commands :
    ([ .motSetspeed 2 0, .motSetcurrent 2 0, .motSetcurrent 0 1025, .motSetstallen 2 true, .motRdstate 15,
       .pidSetreq 2 0, .pidSetparams 2 0 0 0 0 0 0, .pidSetparams 0 0 0 0 (-1) 0 0, .pidSetparams 0 0 0 0 0 0 (-1),
       .pidTick 2 0, .pidTick 0 (2 ^ 32), .pidRdsnap 2, .posSample 2 0, .posSample 0 1025, .encEdge 2 true,
       .encPoll 2 0, .encPoll 0 (2 ^ 32), .encOdoreset 2, .encRdfreq 2, .adcPoll true 1025 ] : List Instr).all
      (fun i => !i.wellFormed cfg2) = true := by decide +kernel

theorem test_build_refuses_an_ill_formed_configuration :
    State.build? { cfg2 with maxDuty := 0 } = none ∧ State.build? cfg2 = some faulted := by decide +kernel

/-! ### Decoding: words written out from the opcode map of 30_encoding R85 -/

theorem test_table_words_of_the_fault_register :
    decodeTableWord 16 0b0000000000010000 = some (.fltRaise .boot 0 0) ∧
    decodeTableWord 16 0b0000000000010001 = some .fltReset ∧
    decodeTableWord 16 0b0000000000010010 = some (.fltSetmask 0) ∧
    decodeTableWord 16 0b0000000000010011 = some .fltRdmask ∧
    decodeTableWord 16 0b0000000000010100 = some .fltRdstatus ∧
    decodeTableWord 16 0b0000000000010101 = some .fltRddata := by decide +kernel

theorem test_table_words_of_the_motor :
    decodeTableWord 16 0b0001000000100000 = some (.motSetspeed 1 0) ∧
    decodeTableWord 16 0b0010000000100001 = some (.motSetcurrent 2 0) ∧
    decodeTableWord 16 0b0100000000100010 = some (.motSetstallen 4 false) ∧
    decodeTableWord 16 0b1000000000100011 = some (.motRdstate 8) := by decide +kernel

theorem test_table_words_of_the_pid :
    decodeTableWord 16 0b0000000000110000 = some (.pidSetreq 0 0) ∧
    decodeTableWord 16 0b0011000000110001 = some (.pidSetparams 3 0 0 0 0 0 0) ∧
    decodeTableWord 16 0b1111000000110010 = some (.pidTick 15 0) ∧
    decodeTableWord 16 0b0101000000110011 = some (.pidRdsnap 5) := by decide +kernel

theorem test_table_words_of_the_other_families :
    decodeTableWord 16 0b0110000001000000 = some (.posSample 6 0) ∧
    decodeTableWord 16 0b0111000001010000 = some (.encEdge 7 false) ∧
    decodeTableWord 16 0b1001000001010001 = some (.encPoll 9 0) ∧
    decodeTableWord 16 0b1010000001010010 = some (.encOdoreset 10) ∧
    decodeTableWord 16 0b1011000001010011 = some (.encRdfreq 11) ∧
    decodeTableWord 16 0b0000000001100000 = some (.adcPoll false 0) ∧
    decodeTableWord 16 0b0000000001110000 = some (.regRead 0) ∧
    decodeTableWord 16 0b0000000001110001 = some (.regWrite 0 0) := by decide +kernel

/-- Operands reach their fields in the order of the row. -/
theorem test_operands_in_order :
    decode cfg2 ⟨0x0010, [3, 2, 1]⟩ = .ok (.fltRaise .short 2 1) ∧
    decode cfg2 ⟨0x1031, [2, 1/2, 1, 5, 3, 1/4]⟩ = .ok (.pidSetparams 1 2 (1/2) 1 5 3 (1/4)) ∧
    decode cfg2 ⟨0x0060, [1, 900]⟩ = .ok (.adcPoll true 900) ∧
    decode cfg2 ⟨0x0071, [3, 0x8000]⟩ = .ok (.regWrite 3 0x8000) ∧
    decode cfg2 ⟨0x1050, [1]⟩ = .ok (.encEdge 1 true) := by decide +kernel

/-- 95_test_vectors X2 to X5 and X7 to X13. -/
theorem test_decoder_refusals :
    decode cfg2 ⟨0x1011, []⟩ = .refuse .channelOnGlobal ∧
    decode cfg2 ⟨0x0111, []⟩ = .refuse .reservedBits ∧
    decode cfg2 ⟨0x0016, []⟩ = .refuse .unknownOpcode ∧
    decode cfg2 ⟨0x2032, [5]⟩ = .refuse .noSuchChannel ∧
    decode cfg2 ⟨0x0010, [0, 0, 0]⟩ = .refuse .badFaultType ∧
    decode cfg2 ⟨0x0010, [8, 0, 0]⟩ = .refuse .badFaultType ∧
    decode cfg2 ⟨0x0031, [1, 0, 0, -1, 1, 0]⟩ = .refuse .badParam ∧
    decode cfg2 ⟨0x0031, [1, 0, 0, 1, 1, -1/10]⟩ = .refuse .badParam ∧
    decode cfg2 ⟨0x0050, [2]⟩ = .refuse .badOperand ∧
    decode cfg2 ⟨0x0021, [1025]⟩ = .refuse .badOperand ∧
    decode cfg2 ⟨0x0070, []⟩ = .refuse .badOperand := by decide +kernel

/-- No two rows of the map share a word: each pair differs in a bit that both rows fix. -/
theorem test_rows_do_not_overlap :
    Op.all.Pairwise fun a b => a.matchWord &&& a.mask &&& b.mask ≠ b.matchWord &&& a.mask &&& b.mask := by decide

/-- 30_encoding R91. -/
theorem test_pseudo_commands :
    (Pseudo.motStop 3).expand = [.motSetspeed 3 0] ∧ Pseudo.fltEnableall.expand = [.fltSetmask 0] ∧
    (Pseudo.encEdges 1 2 true).expand = [.encEdge 1 true, .encEdge 1 true] ∧
    Pseudo.adcIdle.expand = [.adcPoll false 0] := by decide +kernel

/-- 30_encoding R90, on the first lines of 95_test_vectors section 3. -/
theorem test_assembler :
    assembleLine "PID_SETPARAMS c1, 2, 1/2, 1, 5, 1, 0.25 ; gains".toList = some [⟨0x1031, [2, 1/2, 1, 5, 1, 1/4]⟩] ∧
    assembleLine "FLT_RAISE STALL, (3, 1)".toList = some [⟨0x0010, [4, 3, 1]⟩] ∧
    assembleLine "ENC_EDGES c0, 2, 0".toList = some [⟨0x0050, [0]⟩, ⟨0x0050, [0]⟩] := by decide +kernel

/-! ### Fetching -/

/-- The command of a table word runs first, from the state after reset. -/
theorem test_fetch_word :
    (match step (State.reset.withFetchWord 16 0x0011) with
     | .next t => !t.flt.active && t.pending == []
     | .fault _ => false
     | .refused _ => false) = true := by decide +kernel

/-! ### One step of each command, from 95_test_vectors -/

/-- F3. -/
theorem test_flt_raise_latches :
    after (.fltRaise .short 2 1) running (fun t =>
      t.flt == ⟨true, .short, ⟨2, 1⟩, 0⟩ && t.events == [.dir 0 false false, .dir 1 false false]) = true := by
  decide +kernel

/-- F12. -/
theorem test_flt_raise_brakes :
    after (.fltRaise .stall 0 0) { driving 120 with cfg := { cfg2 with faultStopState := .brake } } (fun t =>
      motAt t 0 == ⟨.brake, 0, 255, true, true, 0, 0, false, 0⟩ && t.events.head? == some (.dir 0 true true)) =
      true := by decide +kernel

/-- F4. -/
theorem test_flt_reset_keeps_the_record :
    after .fltReset { running with flt := ⟨true, .short, ⟨2, 1⟩, 0⟩ } (fun t =>
      t.flt == ⟨false, .short, ⟨2, 1⟩, 0⟩ && t.flt.dataWord == 0x0321) = true := by decide +kernel

/-- F7. -/
theorem test_flt_setmask_keeps_a_latched_fault :
    after (.fltSetmask 0x10) { running with flt := ⟨true, .stall, ⟨0, 0⟩, 0⟩ } (fun t =>
      t.flt == ⟨true, .stall, ⟨0, 0⟩, 0x10⟩) = true := by decide +kernel

/-- F10, F11: bit 0 masks nothing, 0xFE masks every type. -/
theorem test_flt_mask_bits :
    after (.fltRaise .remote 1 2) (masked 0x01) (fun t => t.flt.active) = true ∧
    FaultType.all.all (fun ty => after (.fltRaise ty 0 0) (masked 0xFE) fun t => !t.flt.active) = true := by
  decide +kernel

/-- F1. -/
theorem test_flt_getters :
    (let s := State.resetOf { cfg2 with bootOrigin := ⟨2, 0⟩ }
     after .fltRdstatus s (fun t => t.responses == [.status 0x01]) &&
     after .fltRddata s (fun t => t.responses == [.data 0x0120]) &&
     after .fltRdmask s (fun t => t.responses == [.mask 0x00])) = true := by decide +kernel

/-- M7 and M6. -/
theorem test_mot_setspeed_clamps_and_floors :
    after (.motSetspeed 0 (2559/10)) running (fun t => motAt t 0 == ⟨.forward, 255, 255, true, false, 0, 0, false, 0⟩) =
      true ∧
    after (.motSetspeed 0 (-1/2)) running (fun t =>
      motAt t 0 == ⟨.reverse, -1/2, 0, false, true, 0, 0, false, 0⟩ && t.events == [.dir 0 false true]) = true := by
  decide +kernel

/-- M3 and M9. -/
theorem test_mot_setspeed_dir_only_on_change :
    after (.motSetspeed 0 200) (driving 100) (fun t => t.events == [] && (motAt t 0).pwm == 200) = true ∧
    after (.motSetspeed 0 0) (driving 100) (fun t => t.events == [.dir 0 false false] && (motAt t 0).pwm == 0) =
      true := by decide +kernel

/-- C4 and C5: the control's magnitude, strictly above the boundary. -/
theorem test_mot_setcurrent_classifies :
    after (.motSetcurrent 0 801) (driving 50) (fun t => t.flt.ftype == .short && t.flt.active) = true ∧
    after (.motSetcurrent 0 801) (driving (-51)) (fun t =>
      t.flt.ftype == .overcurrent && t.flt.origin == ⟨3, 0⟩) = true := by decide +kernel

/-- C1 and C3: the falling coefficient; no fault at the threshold. -/
theorem test_mot_setcurrent_filters :
    after (.motSetcurrent 0 10) (setMot running 0 { motAt running 0 with filtered := 50 }) (fun t =>
      (motAt t 0).filtered == 40 && (motAt t 0).lastRaw == 10) = true ∧
    after (.motSetcurrent 0 800) (driving 120) (fun t => !t.flt.active && (motAt t 0).filtered == 400) = true := by
  decide +kernel

/-- T8. -/
theorem test_mot_setstallen_restarts :
    after (.motSetstallen 0 true) (stalling 100 2 0) (fun t =>
      (motAt t 0).stallEn && (motAt t 0).stallCnt == 0) = true := by decide +kernel

/-- Q1. -/
theorem test_mot_rdstate :
    after (.motRdstate 0) (setMot running 0 ⟨.reverse, -10, 10, false, true, 0, 0, false, 0⟩) (fun t =>
      t.responses == [.motState ⟨3, -10, 10, false, true, 0, 0, false⟩]) = true := by decide +kernel

/-- R180's example. -/
theorem test_pid_setreq :
    after (.pidSetreq 0 10) faulted (fun t => (pidAt t 0).required == 10) = true := by decide +kernel

/-- P13. -/
theorem test_pid_setparams_reclamps :
    after (.pidSetparams 0 2 (1/2) 1 2 1 (1/4)) (tracking 0 0 5 0 0) (fun t =>
      (pidAt t 0).integral == 2 && (pidAt t 0).params == ⟨2, 1/2, 1, 2, 1, 1/4⟩) = true := by decide +kernel

/-- P1. -/
theorem test_pid_tick_corrects :
    after (.pidTick 0 200) (tracking 10 0 0 4 100) (fun t =>
      pidAt t 0 == ⟨10, 4, 6, 5, -4, 4, 200, 21/2, ⟨2, 1/2, 1, 5, 1, 1/4⟩⟩ &&
      (motAt t 0).state == .forward && (motAt t 0).pwm == 10) = true := by decide +kernel

/-- P8 and P11: backwards time, and the snap under a fault. -/
theorem test_pid_tick_withholds :
    after (.pidTick 0 150) (tracking 10 0 5 7 200) (fun t =>
      (pidAt t 0).prevTime == 150 && (pidAt t 0).actual == 7 && (pidAt t 0).integral == 5 && t.events == []) = true ∧
    (let s := tracking 10 0 0 4 100
     after (.pidTick 0 200) { s with flt := { s.flt with active := true } } (fun t =>
      (pidAt t 0).required == 4 && (pidAt t 0).output == 21/2 && t.ch == s.ch)) = true := by decide +kernel

/-- The second half of P1. -/
theorem test_pid_rdsnap :
    after (.pidRdsnap 0) (setPid running 0 ⟨10, 4, 6, 5, -4, 4, 200, 21/2, ⟨2, 1/2, 1, 5, 1, 1/4⟩⟩) (fun t =>
      t.responses == [.pidSnap ⟨10, 4, 6, 5, -4, 21/2, ⟨2, 1/2, 1, 5, 1, 1/4⟩⟩]) = true := by decide +kernel

/-- T3: the three current bands, at their boundaries. -/
theorem test_stall_bands :
    [(300, FaultType.stall), (299, .encoderFault), (50, .encoderFault), (49, .driveFault), (0, .driveFault)].all
      (fun p => (stallCheck 0 0 (stalling 100 2 p.1)).flt.ftype == p.2 &&
        (stallCheck 0 0 (stalling 100 2 p.1)).flt.active) = true := by decide +kernel

/-- T4 and T5: both tests of the condition are strict; T6: two checks do not latch. -/
theorem test_stall_condition :
    (motAt (stallCheck 0 (1/2) (stalling 100 2 0)) 0).stallCnt = 0 ∧
    (motAt (stallCheck 0 0 (stalling 20 2 0)) 0).stallCnt = 0 ∧
    (motAt (stallCheck 0 0 (stalling 100 1 0)) 0).stallCnt = 2 := by decide +kernel

/-- V2 and V3. -/
theorem test_pos_sample :
    after (.posSample 0 1024) running (fun t => (posAt t 0).actual == 1179/10) = true ∧
    potRemap { ChanCfg.standard .position with calMin := 900, calMax := 100 } 300 = 45 := by decide +kernel

/-- E1 and E2. -/
theorem test_enc_edge :
    after (.encEdge 1 true) (counting 4 1 0 10 0) (fun t => encAt t 1 == ⟨5, 2, 0, 0, 11⟩) = true ∧
    after (.encEdge 1 false) (counting 4 1 0 10 0) (fun t => encAt t 1 == ⟨5, 1, 0, 0, 11⟩) = true := by
  decide +kernel

/-- E10. -/
theorem test_enc_edge_wraps :
    after (.encEdge 1 false) { counting 255 0 0 255 0 with cfg := { cfg2 with encCntW := 8 } } (fun t =>
      encAt t 1 == ⟨0, 0, 0, 0, 256⟩) = true := by decide +kernel

/-- E4 and E5: exactly a third keeps the sign. -/
theorem test_enc_poll_sign :
    after (.encPoll 1 100000) (counting 30 10 0 0 0) (fun t => encAt t 1 == ⟨0, 0, 100000, 300, 0⟩) = true ∧
    after (.encPoll 1 100000) (counting 30 11 0 0 0) (fun t => encAt t 1 == ⟨0, 0, 100000, -300, 0⟩) = true := by
  decide +kernel

/-- E9 and E3. -/
theorem test_enc_poll_time :
    after (.encPoll 1 50) (counting 40 3 100000 0 500) (fun t => encAt t 1 == ⟨0, 0, 50, 500, 0⟩) = true ∧
    after (.encPoll 1 99999) (counting 50 0 0 0 0) (fun t => t == counting 50 0 0 0 0) = true := by decide +kernel

/-- E11. -/
theorem test_enc_odoreset :
    after (.encOdoreset 1) (counting 12 0 0 70 0) (fun t => encAt t 1 == ⟨12, 0, 0, 0, 0⟩) = true := by decide +kernel

/-- E12. -/
theorem test_enc_rdfreq :
    after (.encRdfreq 1) (counting 0 0 0 90 (-500)) (fun t => t.responses == [.encFreq (-500) 90]) = true := by
  decide +kernel

/-- A1's first poll and A6. -/
theorem test_adc_poll_current :
    after (.adcPoll false 0) running (fun t => t.adc == ⟨.waiting, 0, 0⟩ && t.events == [.adcStart 3]) = true ∧
    after (.adcPoll true 900) (waiting (driving 120) 0) (fun t =>
      t.flt == ⟨true, .overcurrent, ⟨3, 0⟩, 0⟩ && t.adc == ⟨.countdown, 1, 0⟩) = true := by decide +kernel

/-- A5, and A3 with done ignored while counting down. -/
theorem test_adc_poll_position :
    after (.adcPoll true 500) (waiting running 1) (fun t =>
      (posAt t 1).actual == 0 && t.adc == ⟨.countdown, 0, 0⟩) = true ∧
    after (.adcPoll true 700) { running with adc := ⟨.countdown, 0, 2⟩ } (fun t =>
      t.adc == ⟨.countdown, 0, 1⟩ && t.events == []) = true := by decide +kernel

/-- G1, G2 with origin (2, 0), G4 and G11. -/
theorem test_reg_read_raw :
    (let s := setEnc (State.resetOf { cfg2 with bootOrigin := ⟨2, 0⟩ }) 0 ⟨0, 0, 0, 0, 70000⟩
     [(0, 0, 0x01), (1, 0, 0x0120), (8, 1, 0), (6, 0, 0x1170)].all fun p =>
      after (.regRead p.1) s fun t => t.responses == [.regRead p.2.1 p.2.2]) = true := by decide +kernel

/-- The exception-data word through a 1-byte register: above d.max, so all ones (R117's corner cases, 20_memory R62);
a command's getter still answers the word. -/
theorem test_reg_read_saturates_the_data_word :
    (let s := { faulted with cfg := { cfg2 with regmap := [⟨1, false, 0, 255, .faultData⟩] } }
     after (.regRead 0) s (fun t => t.responses == [.regRead 0 0x00FF]) &&
       after .fltRddata s fun t => t.responses == [.data 0x0130]) = true := by decide +kernel

/-- G7: mapped, and saturated at both ends. -/
theorem test_reg_read_mapped :
    [((5/2 : Number), (63 : Word16)), (12, 255), (-1, 0)].all (fun p =>
      after (.regRead 7) (setPid running 0 { pidAt running 0 with actual := p.1 }) fun t =>
        t.responses == [.regRead 0 p.2]) = true := by decide +kernel

/-- G3, G5 and G9. -/
theorem test_reg_write :
    after (.regWrite 0 5) running (fun t => t == { running with responses := [.regWrite 2] }) = true ∧
    after (.regWrite 3 0x8000) running (fun t =>
      (pidAt t 0).required == 100/65535 && t.responses == [.regWrite 0]) = true ∧
    after (.regWrite 2 0x1234) running (fun t => t.flt.mask == 0x34) = true := by decide +kernel

/-- G8, G10 and G12. -/
theorem test_reg_write_triggers_and_plain :
    after (.regWrite 4 0) faulted (fun t => !t.flt.active && t.responses == [.regWrite 0]) = true ∧
    after (.regWrite 5 42) running (fun t => t.plain == [(5, 42)]) = true ∧
    after (.regWrite 6 999) (setEnc running 0 ⟨0, 0, 0, 0, 70000⟩) (fun t => (encAt t 0).odometry == 0) = true := by
  decide +kernel

/-- 20_memory R63: the two bytes of FaultData on the port. -/
theorem test_port_bytes :
    portBytes ⟨2, false, 0, 65535, .faultData⟩ 0x0120 = [0x20, 0x01] ∧ rawOfBytes [0x20, 0x01] = 0x0120 := by
  decide +kernel

/-- A table with a sentinel descriptor has the registers before it (40_regport R111). -/
theorem test_sentinel_ends_the_table :
    (regmapOfSentinel [⟨1, true, 0, 255, .plain⟩, ⟨0, false, 0, 0, .plain⟩, ⟨1, true, 0, 255, .plain⟩]).length = 1 := by
  decide +kernel

/-! ### FMT, 00_scope R9 (notes/assumptions/3.md): hand calculation -/

theorem test_fmt :
    fmtApply (.fixedPoint 2) (3/8) = 1/2 ∧ fmtApply (.fixedPoint 2) (1/8) = 0 ∧
    fmtApply (.fixedPoint 2) (-5/8) = -1/2 ∧ fmtApply (.binaryFloat 3 (-4)) 9 = 8 ∧
    fmtApply (.binaryFloat 3 (-4)) (1/64) = 0 := by decide +kernel

/-! ### Witnesses: concrete values that meet the hypotheses of each obligation, at the boundaries of its clauses -/

/-- StepRunsTheDecodedCommand, StepConsumesTheFirstCommand, NothingStopsTheBlock, ConfigurationNeverChanges, RecordOnlyGrows. -/
theorem witness_step_runs :
    let s := presenting running 0x0013 []
    s.pending = ⟨0x0013, []⟩ :: [] ∧ decode s.cfg ⟨0x0013, []⟩ = .ok .fltRdmask ∧
      step s = .next { running with responses := [.mask 0] } := ⟨rfl, by decide +kernel, rfl⟩

/-- RefusedCommandChangesNoState, RefusedMarkIsSticky (both marks). -/
theorem witness_refused :
    let s := presenting running 0x0016 []
    s.pending = ⟨0x0016, []⟩ :: [] ∧ decode s.cfg ⟨0x0016, []⟩ = .refuse .unknownOpcode ∧ s.refused = false ∧
      step s = .next (refuseCommand running .unknownOpcode) ∧
      step { presenting running 0x0013 [] with refused := true } =
        .next { running with refused := true, responses := [.mask 0] } :=
  ⟨rfl, by decide +kernel, rfl, rfl, rfl⟩

/-- NoStepWithoutCommand. -/
theorem witness_no_command : running.pending = [] := rfl

/-- ReservedEncodingsRefused: the ends of every reserved opcode range, and every reserved bit alone. -/
theorem witness_reserved_encodings :
    ([0x00, 0x0F, 0x16, 0x1F, 0x24, 0x2F, 0x34, 0x3F, 0x41, 0x4F, 0x54, 0x5F, 0x61, 0x6F, 0x72, 0xFF] : List Word16).all
      (fun h => decode cfg2 ⟨h, []⟩ == .refuse .unknownOpcode) = true ∧
    ([0x0111, 0x0211, 0x0411, 0x0811, 0x0F11] : List Word16).all
      (fun h => decode cfg2 ⟨h, []⟩ == .refuse .reservedBits) = true := by decide +kernel

/-- ChannelFieldChecked: the least and the greatest channel that fail. -/
theorem witness_channel_field :
    Op.fltReset.format = .global ∧ Op.pidTick.format = .channel ∧ cfg2.nch ≤ (2 : Chan).val ∧ cfg2.nch ≤ (15 : Chan).val ∧
    decode cfg2 ⟨headerOf .fltReset 1, []⟩ = .refuse .channelOnGlobal ∧
    decode cfg2 ⟨headerOf .regRead 15, [0]⟩ = .refuse .channelOnGlobal ∧
    decode cfg2 ⟨headerOf .pidTick 2, [5]⟩ = .refuse .noSuchChannel ∧
    decode cfg2 ⟨headerOf .pidTick 15, [5]⟩ = .refuse .noSuchChannel := by decide +kernel

/-- OperandsChecked: a channel the rows admit, and for every operand type the values on both sides of its bounds, a
negative one, a fractional one, a surplus one and a missing one. -/
theorem witness_operands :
    (1 : Chan).val < cfg2.nch ∧
    ([⟨0x0010, [0, 15, 15]⟩, ⟨0x0010, [8, 15, 15]⟩, ⟨0x0010, [255, 0, 0]⟩] : List Command).all
      (fun cmd => decode cfg2 cmd == .refuse .badFaultType) = true ∧
    ([⟨0x1031, [0, 0, 0, -1/1000, 0, 0]⟩, ⟨0x1031, [0, 0, 0, 0, 0, -1/1000]⟩] : List Command).all
      (fun cmd => decode cfg2 cmd == .refuse .badParam) = true ∧
    ([⟨0x0010, [256, 0, 0]⟩, ⟨0x0010, [1, 16, 0]⟩, ⟨0x0010, [1, 0, 16]⟩, ⟨0x0010, [-1, 0, 0]⟩, ⟨0x0012, [256]⟩,
      ⟨0x1021, [1025]⟩, ⟨0x1040, [-1]⟩, ⟨0x1032, [4294967296]⟩, ⟨0x1051, [1/2]⟩, ⟨0x1022, [2]⟩, ⟨0x1050, [1/2]⟩,
      ⟨0x0060, [2, 0]⟩, ⟨0x0060, [0, 1025]⟩, ⟨0x0070, [256]⟩, ⟨0x0070, []⟩, ⟨0x0071, [0, 65536]⟩, ⟨0x0071, [0]⟩,
      ⟨0x0011, [0]⟩, ⟨0x1020, [1, 1]⟩, ⟨0x1031, [0, 0, 0, 0, 0]⟩] : List Command).all
      (fun cmd => decode cfg2 cmd == .refuse .badOperand) = true ∧
    ([(⟨0x0010, [7, 15, 15]⟩, .fltRaise .remote 15 15), (⟨0x1031, [-1, 1/3, 0, 0, 2, 0]⟩, .pidSetparams 1 (-1) (1/3) 0 0 2 0),
      (⟨0x0060, [1, 1024]⟩, .adcPoll true 1024), (⟨0x0071, [255, 65535]⟩, .regWrite 255 65535)] : List (Command × Instr)).all
      (fun p => decode cfg2 p.1 == .ok p.2) = true := by decide +kernel

/-- HeaderWordsDecode. -/
theorem witness_sixteen_channels : Config.standard.nch = 16 := by decide

/-- DecodeOfEncode, EncodeOfDecode: operands at their greatest values. -/
theorem witness_round_trip :
    ([.fltRaise .remote 15 15, .motSetcurrent 1 1024, .pidTick 1 (2 ^ 32 - 1), .pidSetparams 0 (-1) 0 (1/3) 0 2 0,
      .adcPoll true 1024, .regWrite 255 65535] : List Instr).all
      (fun i => i.wellFormed cfg2 && decode cfg2 (encode i) == .ok i) = true := by decide +kernel

/-- ResetValues, ResetMeetsTheInvariants. -/
theorem witness_reset : decide cfg2.WellFormed = true ∧ 1 < cfg2.nch := by decide +kernel

/-- FltRaiseLatchesAndStopsEveryChannel (its three clauses), the first clause of FltResetIsTheOnlyReturn, FirstFaultWins. -/
theorem witness_flt_raise :
    running.ch.length = running.cfg.nch ∧ running.flt.active = false ∧ faulted.flt.active = true ∧
    (masked 0x80).flt.mask.getLsbD FaultType.remote.code.toNat = true ∧
    running.flt.mask.getLsbD FaultType.remote.code.toNat = false := by decide +kernel

/-- FaultGetters: a FaultStatus register. -/
theorem witness_fault_status_register :
    faulted.cfg.regmap[(0 : Byte).toNat]? = some ⟨1, false, 0, 255, .faultStatus⟩ := by decide +kernel

/-- FirstFaultWins, and a command after which the fault stays latched. -/
theorem witness_first_fault :
    faulted.flt.active = true ∧ exec (.fltRaise .short 1 1) faulted = .next faulted := ⟨rfl, rfl⟩

/-- FltResetIsTheOnlyReturn: directly, and through the trigger register. -/
theorem witness_reset_clears :
    faulted.flt.active = true ∧ exec .fltReset faulted = .next (fltReset faulted) ∧
    (fltReset faulted).flt.active = false ∧ (regWrite 4 0 faulted).flt.active = false ∧
    faulted.cfg.regmap[(4 : Byte).toNat]? = some ⟨1, true, 0, 255, .faultResetTrigger⟩ :=
  ⟨rfl, rfl, rfl, by decide +kernel, by decide +kernel⟩

/-- EveryFaultHasItsCause: each of the four causes latches; channel 0 of the last one has not moved. -/
theorem witness_fault_causes :
    running.flt.active = false ∧ (fltRaise ⟨1, 2⟩ .remote running).flt.active = true ∧
    (driving 120).flt.active = false ∧ (motSetcurrent 0 801 (driving 120)).flt.active = true ∧
    (adcPoll true 801 (waiting (driving 120) 0)).flt.active = true ∧
    (pidTick 0 0 (stalling 100 2 300)).flt.active = true ∧
    (posAt (stalling 100 2 300) 0).actual = (pidAt (stalling 100 2 300) 0).prevActual := by decide +kernel

/-- MotSetspeedDrivesBySign, MotSetcurrentFiltersAndClassifies, MotSetstallenRestartsTheDebounce, StallCheckCountsAndClassifies: a
channel of the block, with and without a latched fault, and a control on, under and above the boundary. -/
theorem witness_motor_channel :
    (1 : Chan).val < running.ch.length ∧ running.flt.active = false ∧ faulted.flt.active = true ∧
    (chanCfg cfg2 1).ocThreshold = 800 ∧ (chanCfg cfg2 1).highControl = 50 ∧
    (motAt (driving 50) 0).control = 50 ∧ (motAt (driving 51) 0).control = 51 := by decide +kernel

/-- BrakeOnlyByFaultResponse: a channel that is in BRAKE already, and a step that puts one there. -/
theorem witness_brake :
    let s := setMot running 0 { motAt running 0 with state := .brake }
    let u := { presenting running 0x0010 [3, 0, 0] with cfg := { cfg2 with faultStopState := .brake } }
    exec (.motSetspeed 1 5) s = .next (motSetspeed 1 5 s) ∧ (motAt (motSetspeed 1 5 s) 0).state = .brake ∧
      step u = .next (fltRaise ⟨0, 0⟩ .short { u with pending := [] }) ∧ (motAt u 1).state ≠ .brake ∧
      (motAt (fltRaise ⟨0, 0⟩ .short { u with pending := [] }) 1).state = .brake :=
  ⟨rfl, by decide +kernel, rfl, by decide +kernel, by decide +kernel⟩

/-- StallCheckCountsAndClassifies: a state for each clause. -/
theorem witness_stall_clauses :
    (motAt (driving 100) 0).stallEn = false ∧ (motAt (stalling 100 1 0) 0).stallEn = true ∧
    ((1 : Number)/2 ≥ (chanCfg cfg2 0).stallSpeedEps) ∧ ((0 : Number) < (chanCfg cfg2 0).stallSpeedEps) ∧
    (chanCfg cfg2 0).stallCtrl < |(motAt (stalling 100 1 0) 0).control| ∧
    (motAt (stalling 100 1 0) 0).stallCnt + 1 = (chanCfg cfg2 0).stallDebounce ∧
    (chanCfg cfg2 0).stallDebounce < (motAt (stalling 100 2 0) 0).stallCnt + 1 := by decide +kernel

/-- StallLatchesAfterTheDebounce. -/
theorem witness_debounce :
    let s := stalling 100 0 300
    (0 : Chan).val < s.cfg.nch ∧ s.ch.length = s.cfg.nch ∧ (motAt s 0).stallEn = true ∧ (motAt s 0).stallCnt = 0 ∧
      (0 : Number) < (chanCfg s.cfg 0).stallSpeedEps ∧ (chanCfg s.cfg 0).stallCtrl < |(motAt s 0).control| ∧
      s.flt.active = false ∧ s.flt.mask.getLsbD FaultType.stall.code.toNat = false := by decide +kernel

/-- ChannelGetters, and the obligations on one bank of a channel: PidSetreqWritesTheSetpoint, PidSetparamsWritesAndReclamps,
PosSampleRemaps, EncEdgeCounts, EncPollMeasuresTheWindow, EncOdoresetIsTheOnlyClear. -/
theorem witness_banks :
    (1 : Chan).val < running.cfg.nch ∧ (1 : Chan).val < running.pid.length ∧ (1 : Chan).val < running.pos.length ∧
    (1 : Chan).val < running.enc.length := by decide +kernel

/-- EncPollMeasuresTheWindow: a time before the window's start, one just short of its end and one at its end. -/
theorem witness_window :
    let e := encAt (counting 3 1 100 0 0) 1
    99 < e.winStart ∧ e.winStart ≤ 100099 ∧ 100099 - e.winStart < (chanCfg cfg2 1).encWindowUs ∧
      (chanCfg cfg2 1).encWindowUs ≤ 100100 - e.winStart := by decide +kernel

/-- PidTickBackwardsTimeIsBookkeeping (149), PidTickRunsTheController (both), PidTickHoldsTheDriveWhileFaulted (150). -/
theorem witness_tick :
    let s := tracking 10 0 0 4 150
    (0 : Chan).val < s.pid.length ∧ 149 < (pidAt s 0).prevTime ∧ (pidAt s 0).prevTime ≤ 150 ∧
      { s with flt := faulted.flt }.flt.active = true := by decide +kernel

/-- SetpointDoesNotKickTheDerivative. -/
theorem witness_kick :
    let s := tracking 10 0 0 4 100
    (0 : Chan).val < s.pid.length ∧ exec (.pidTick 0 200) s = .next (pidTick 0 200 s) ∧
      exec (.pidTick 0 200) (setPid s 0 { pidAt s 0 with required := 20 }) =
        .next (pidTick 0 200 (setPid s 0 { pidAt s 0 with required := 20 })) := ⟨by decide, rfl, rfl⟩

/-- PotentiometerMeetsItsCalibration. -/
theorem witness_calibration :
    running.cfg.fmt = .identity ∧ (chanCfg running.cfg 0).calMin ≠ (chanCfg running.cfg 0).calMax ∧
      exec (.posSample 0 100) running = .next (posSample 0 100 running) ∧
      exec (.posSample 0 900) running = .next (posSample 0 900 running) :=
  ⟨rfl, by decide, rfl, rfl⟩

/-- EncOdoresetIsTheOnlyClear: each of the three causes changes it. -/
theorem witness_odometry :
    (encAt (encEdge 0 true running) 0).odometry ≠ (encAt running 0).odometry ∧
    (encAt (encOdoreset 1 (counting 0 0 0 9 0)) 1).odometry ≠ (encAt (counting 0 0 0 9 0) 1).odometry ∧
    (encAt (regWrite 6 0 (encEdge 0 true running)) 0).odometry ≠ (encAt (encEdge 0 true running) 0).odometry := by
  decide +kernel

/-- AdcPollServicesTheTable: the entries at both ends of the table, and an empty table. -/
theorem witness_adc :
    cfg2.adcTable[0]? = some ⟨3, .current, 0⟩ ∧ cfg2.adcTable[1]? = some ⟨4, .position, 1⟩ ∧
    running.adc = ⟨.countdown, 0, 0⟩ ∧ (waiting running 1).adc.phase = .waiting ∧
    { cfg2 with adcTable := [] }.adcTable = [] ∧ (1 : Chan).val = 1 := by decide +kernel

/-- MapUnmapWithinOneStep at both sizes and at both ends of the domain, PortIsLittleEndian. -/
theorem witness_map :
    let d : RegDesc := ⟨1, false, 0, 10, .pidActual 0⟩
    let e : RegDesc := ⟨2, true, -100, 100, .pidRequired 0⟩
    d.size = 1 ∧ d.min < d.max ∧ mapRaw d 0 = 0 ∧ mapRaw d 10 = 255 ∧ mapRaw d (5/2) = 63 ∧
      e.size = 2 ∧ e.min < e.max ∧ mapRaw e (-100) = 0 ∧ mapRaw e 100 = 65535 := by decide +kernel

/-- One register of every binding, of channel 0. -/
def everyBinding : State :=
  { running with cfg := { cfg2 with regmap := Config.standardRegmap ++
      [⟨2, true, 0, 65535, .faultMask⟩, ⟨2, true, 0, 65535, .plain⟩, ⟨1, true, 0, 10, .pidParam 0 .pGain⟩,
       ⟨1, true, 0, 10, .pidParam 0 .iGain⟩, ⟨1, true, 0, 10, .pidParam 0 .dGain⟩, ⟨1, true, 0, 10, .pidParam 0 .iCap⟩,
       ⟨1, true, 0, 10, .pidParam 0 .decay⟩, ⟨1, true, 0, 10, .pidParam 0 .deadZone⟩,
       ⟨1, false, 0, 255, .motorState 0⟩, ⟨1, false, -255, 255, .motorControl 0⟩, ⟨2, false, 0, 1024, .motorFiltered 0⟩,
       ⟨1, true, 0, 255, .stallEnable 0⟩, ⟨2, false, -500, 500, .encFreq 0⟩] } }

/-- RegReadAnswersTheBinding, RegWriteSetsTheBinding, WideMaskWriteIsFree, PlainRegisterReadsBack, TriggerWritesAreIdempotent: the
block above is well formed, its storage canonical, its last id in the table and the next one not, and ids 4, 6, 8, 5 and 9
are the registers those statements speak of. -/
theorem witness_registers :
    decide everyBinding.cfg.WellFormed = true ∧ everyBinding.plain.wf = true ∧
    everyBinding.cfg.regmap.length = 21 ∧
    everyBinding.cfg.regmap[(8 : Byte).toNat]? = some ⟨2, true, 0, 65535, .faultMask⟩ ∧
    256 ≤ (0x0100 : Word16).toNat ∧
    everyBinding.cfg.regmap[(9 : Byte).toNat]? = some ⟨2, true, 0, 65535, .plain⟩ ∧
    everyBinding.cfg.regmap[(5 : Byte).toNat]? = some ⟨1, true, 0, 255, .plain⟩ ∧
    everyBinding.cfg.regmap[(4 : Byte).toNat]? = some ⟨1, true, 0, 255, .faultResetTrigger⟩ ∧
    everyBinding.cfg.regmap[(6 : Byte).toNat]? = some ⟨2, true, 0, 65535, .encOdometry 0⟩ := by decide +kernel

/-- RegReadAnswersTheBinding (its clause on a 1-byte FaultData register), ReadsMoveTheRegistersOwnSize: a well-formed block
with such a register beside a 2-byte one. -/
theorem witness_small_data_register :
    let cfg := { cfg2 with regmap := Config.standardRegmap ++ [⟨1, false, 0, 255, .faultData⟩] }
    let s := State.resetOf cfg
    s.WellFormed ∧ s.cfg.regmap[(8 : Byte).toNat]? = some ⟨1, false, 0, 255, .faultData⟩ ∧
      s.cfg.regmap[(1 : Byte).toNat]? = some ⟨2, false, 0, 65535, .faultData⟩ := by
  refine ⟨⟨⟨?_, ?_, ?_, ?_, ?_⟩, ?_, ?_, ?_, ?_, ?_⟩, ?_, ?_⟩ <;> decide +kernel

/-- TriggerWritesAreIdempotent. -/
theorem witness_trigger :
    exec (.regWrite 4 0) everyBinding = .next (regWrite 4 0 everyBinding) ∧
    exec (.regWrite 4 1) (regWrite 4 0 everyBinding) = .next (regWrite 4 1 (regWrite 4 0 everyBinding)) := ⟨rfl, rfl⟩

/-- StepKeepsWellFormed, StepKeepsLinesMatch, StepKeepsChannelsHeldWhileFaulted, StepKeepsControlMatches, StepKeepsAntiWindup: a
state that meets every invariant, with a fault latched, and a step from it. -/
theorem witness_invariants :
    decide faulted.cfg.WellFormed = true ∧ faulted.cfg.fmt = .identity ∧ faulted.flt.active = true ∧
    (∀ c, c < faulted.cfg.nch → (motAt faulted c).InRange faulted.cfg (chanCfg faulted.cfg c)) ∧
    (∀ c, c < faulted.cfg.nch → (pidAt faulted c).prevTime < 2 ^ faulted.cfg.timeW) ∧
    (∀ c, c < faulted.cfg.nch → (encAt faulted c).InRange faulted.cfg) ∧
    faulted.adc.InRange faulted.cfg ∧ faulted.PlainInRange ∧
    faulted.ch.length = faulted.cfg.nch ∧ faulted.pid.length = faulted.cfg.nch ∧
    faulted.pos.length = faulted.cfg.nch ∧ faulted.enc.length = faulted.cfg.nch := by
  refine ⟨?_, ?_, ?_, ?_, ?_, ?_, ?_, ?_, ?_, ?_, ?_, ?_⟩ <;> decide +kernel

/-- The other invariants hold of the same state. -/
theorem witness_more_invariants :
    faulted.LinesMatch ∧ faulted.HeldWhileFaulted ∧ faulted.AntiWindup ∧ faulted.ControlMatches ∧
      step faulted = .next faulted := by
  refine ⟨?_, ?_, ?_, ?_, rfl⟩ <;> decide +kernel

/-- ChannelsAreIsolated: a channel command that latches no fault, and one that does. -/
theorem witness_isolation :
    (Instr.motSetcurrent 0 801).op.format = .channel ∧ (1 : Nat) ≠ (Instr.motSetcurrent 0 801).chan.val ∧
    exec (.motSetcurrent 0 801) running = .next (motSetcurrent 0 801 running) ∧
    exec (.motSetcurrent 0 800) running = .next (motSetcurrent 0 800 running) ∧
    (motSetcurrent 0 800 running).flt.active = running.flt.active := ⟨rfl, by decide, rfl, rfl, by decide +kernel⟩

end Sys2Proof.Tests
end

