-- ==== Sys2Proof/Proofs/RefusedMark.lean ====
section
/-! The refused mark over one step (10_state R37). -/

namespace Sys2Proof.Machine

/-- The mark after a step is the mark before it, or the presented command was refused (10_state R37): no command
writes the mark, and only a refusal sets it. -/
theorem step_refused_iff {s t : State} (h : step s = .next t) :
    t.refused = true ↔
      s.refused = true ∨ ∃ cmd rest r, s.pending = cmd :: rest ∧ decode s.cfg cmd = .refuse r := by
  rcases step_cases h with ⟨hp, rfl⟩ | ⟨cmd, rest, i, hp, hd, hx⟩ | ⟨cmd, rest, r, hp, hd, rfl⟩
  · -- no command presented
    simp [hp]
  · -- the presented command decodes
    simp [exec_refused hx, hp, hd]
  · -- the presented command is refused
    simp [hp, hd]

/-- Settles O13, from what one step does to the mark. -/
theorem refusedMarkIsSticky : Obligations.RefusedMarkIsSticky := by
  unfold Obligations.RefusedMarkIsSticky
  refine ⟨fun _ => rfl, fun s t h => ⟨fun hs => (step_refused_iff h).2 (.inl hs), fun hs => ?_⟩⟩
  rw [step_refused_iff h]
  simp [hs]

end Sys2Proof.Machine
end

