-- ==== Sys2Proof/Proofs/PortBytes.lean ====
section
/-! The bytes of a raw value on the register port, and what a register read answers (20_memory R62 to R65). -/

namespace Sys2Proof.Machine

open Sys2Proof

/-! ### The bytes of a raw value, 20_memory R63 and R64 -/

theorem lowByte_toNat (w : Word16) : (lowByte w).toNat = w.toNat % 256 := BitVec.toNat_setWidth 8 w

theorem assembleRaw_toNat (low high : Byte) : (assembleRaw low high).toNat = high.toNat * 256 + low.toNat := by
  rw [assembleRaw, BitVec.toNat_append, ← Nat.shiftLeft_add_eq_or_of_lt low.isLt, Nat.shiftLeft_eq]

theorem rawMax_of_size_one {d : RegDesc} (h : d.size = 1) : rawMax d = 255 := by simp [rawMax, h]

theorem rawMax_of_size_two {d : RegDesc} (h : d.size = 2) : rawMax d = 65535 := by simp [rawMax, h]

theorem portBytes_of_size_one {d : RegDesc} (h : d.size = 1) (raw : Word16) : portBytes d raw = [lowByte raw] :=
  if_pos h

theorem portBytes_of_size_two {d : RegDesc} (h : d.size = 2) (raw : Word16) :
    portBytes d raw = [lowByte raw, highByte raw] := if_neg (by omega)

/-- The low byte alone carries a raw value that fits it. -/
theorem rawOfBytes_lowByte {raw : Word16} (h : raw.toNat < 256) : rawOfBytes [lowByte raw] = raw := by
  apply BitVec.eq_of_toNat_eq
  calc (assembleRaw (lowByte raw) 0).toNat
      _ = raw.toNat % 256 := by simp [assembleRaw_toNat, lowByte_toNat]
      _ = raw.toNat := Nat.mod_eq_of_lt h

/-- The bytes of a register carry every raw value of it, at either size. -/
theorem rawOfBytes_portBytes {d : RegDesc} {raw : Word16} (hs : d.size = 1 ∨ d.size = 2) (h : raw.toNat ≤ rawMax d) :
    rawOfBytes (portBytes d raw) = raw := by
  rcases hs with hs | hs
  · rw [portBytes_of_size_one hs]
    rw [rawMax_of_size_one hs] at h
    exact rawOfBytes_lowByte (Nat.lt_succ_of_le h)
  · rw [portBytes_of_size_two hs]
    exact assembleRaw_bytes raw

/-- As many bytes travel as the register's size says (20_memory R64). -/
theorem portBytes_length {d : RegDesc} (hs : d.size = 1 ∨ d.size = 2) (raw : Word16) :
    (portBytes d raw).length = d.size := by
  rcases hs with hs | hs
  · simp [portBytes_of_size_one hs, hs]
  · simp [portBytes_of_size_two hs, hs]

/-- Settles O44: the low and the high byte of a word make the word, and a word below 256 is its low byte. -/
theorem portIsLittleEndian : Obligations.PortIsLittleEndian := by
  unfold Obligations.PortIsLittleEndian
  intro d raw
  constructor
  · intro h2
    have hle : raw.toNat ≤ rawMax d := by
      rw [rawMax_of_size_two h2]
      exact Nat.le_of_lt_succ raw.isLt
    refine ⟨lowByte raw, highByte raw, portBytes_of_size_two h2 raw, ?_, rawOfBytes_portBytes (.inr h2) hle⟩
    rw [← assembleRaw_toNat, assembleRaw_bytes]
  · intro h1
    refine ⟨lowByte raw, portBytes_of_size_one h1 raw, lowByte_toNat raw, fun hlt => ?_⟩
    rw [portBytes_of_size_one h1]
    exact rawOfBytes_lowByte hlt

/-! ### What a register read answers, 40_regport R117 -/

/-- What a plain register reads as is the reset value or is listed under its id. -/
theorem Memory.read_eq_unlisted_or_mem (m : Memory) (id : Nat) :
    m.read id = Memory.unlisted ∨ (id, m.read id) ∈ m := by
  induction m with
  | nil => exact .inl rfl
  | cons e rest ih =>
    obtain ⟨k, v⟩ := e
    by_cases hk : k = id
    · subst hk
      simp [Memory.read]
    · simp only [Memory.read, hk, if_false]
      exact ih.imp_right (List.mem_cons_of_mem _)

/-- A register of the table holds in its storage a raw value of its own (10_state R39, 20_memory R62). -/
theorem plain_read_le_rawMax {s : State} {id : Nat} {d : RegDesc} (h : s.PlainInRange) (hd : s.cfg.regmap[id]? = some d) :
    (s.plain.read id).toNat ≤ rawMax d := by
  rcases Memory.read_eq_unlisted_or_mem s.plain id with hr | hr
  · rw [hr]
    exact Nat.zero_le _
  · obtain ⟨_, hentries⟩ := h
    have hfits : d.binding = .plain ∧ (s.plain.read id).toNat ≤ rawMax d := by
      simpa [hd] using hentries _ hr
    exact hfits.2

theorem rawMax_lt_of_size {d : RegDesc} (hs : d.size = 1 ∨ d.size = 2) : rawMax d < 2 ^ 16 := by
  rcases hs with hs | hs
  · simp [rawMax_of_size_one hs]
  · simp [rawMax_of_size_two hs]

/-- A read of a register of the table answers status 0 and its getter's value (40_regport R116, R117). -/
theorem regRead_of_mem {s : State} {id : Nat} {d : RegDesc} (hd : s.cfg.regmap[id]? = some d) :
    regRead id s = respond s (.regRead 0 (BitVec.ofNat 16 (regGet d id s))) := by
  simp [regRead, checkAndLoadRegister, hd]

theorem State.WellFormed.regDesc {s : State} (h : s.WellFormed) {id : Nat} {d : RegDesc}
    (hd : s.cfg.regmap[id]? = some d) : d.WellFormed s.cfg.nch := by
  obtain ⟨⟨⟨_, _, _, _, _, _, _, _, ⟨_, hregs⟩, _⟩, _⟩, _⟩ := h
  exact hregs d (List.mem_of_getElem? hd)

/-- Settles O55: every getter answers at most the register's largest raw value, and the register's bytes carry all
such values. -/
theorem readsMoveTheRegistersOwnSize : Obligations.ReadsMoveTheRegistersOwnSize := by
  unfold Obligations.ReadsMoveTheRegistersOwnSize
  intro s id d hwf hd
  obtain ⟨hsize, hdomain, _⟩ := State.WellFormed.regDesc hwf hd
  obtain ⟨_, _, _, _, _, hplain⟩ := hwf
  have hget : regGet d id.toNat s ≤ rawMax d :=
    regGet_le_rawMax hsize hdomain fun _ => plain_read_le_rawMax hplain hd
  have hraw : (BitVec.ofNat 16 (regGet d id.toNat s)).toNat ≤ rawMax d := by
    rwa [BitVec.toNat_ofNat, Nat.mod_eq_of_lt (Nat.lt_of_le_of_lt hget (rawMax_lt_of_size hsize))]
  refine ⟨_, BitVec.ofNat 16 (regGet d id.toNat s), exec_regRead s id, ?_, hraw, portBytes_length hsize _,
    rawOfBytes_portBytes hsize hraw⟩
  rw [regRead_of_mem hd, respond_responses]

end Sys2Proof.Machine
end

