-- ==== Sys2Proof/Proofs/ReservedEncodings.lean ====
section
/-! The encodings that no row of the opcode map has (30_encoding R88). -/

namespace Sys2Proof

/-- The opcode ranges that the map leaves reserved (30_encoding R85, R88). -/
abbrev ReservedOpcode (op : Nat) : Prop :=
  op ≤ 0x0F ∨ (0x16 ≤ op ∧ op ≤ 0x1F) ∨ (0x24 ≤ op ∧ op ≤ 0x2F) ∨ (0x34 ≤ op ∧ op ≤ 0x3F) ∨
  (0x41 ≤ op ∧ op ≤ 0x4F) ∨ (0x54 ≤ op ∧ op ≤ 0x5F) ∨ (0x61 ≤ op ∧ op ≤ 0x6F) ∨ 0x72 ≤ op

theorem Op.code_not_reserved (o : Op) : ¬ ReservedOpcode o.code.toNat := by cases o <;> decide

theorem Op.ofCode_of_reserved {b : Byte} (h : ReservedOpcode b.toNat) : Op.ofCode b = none := by
  rw [Option.eq_none_iff_forall_ne_some]
  intro o ho
  rw [Op.code_of_ofCode ho] at h
  exact o.code_not_reserved h

theorem decode_of_reservedBits {cfg : Config} {cmd : Command} (h : headerRsv cmd.header ≠ 0) :
    decode cfg cmd = .refuse .reservedBits := if_pos h

theorem decode_of_unknownOpcode {cfg : Config} {cmd : Command} (hr : headerRsv cmd.header = 0)
    (ho : Op.ofCode (headerOp cmd.header) = none) : decode cfg cmd = .refuse .unknownOpcode := by
  simp [decode, hr, ho]

theorem headerRsv_eq_zero_iff (h : Word16) : headerRsv h = 0 ↔ h.toNat / 256 % 16 = 0 := by
  rw [← headerRsv_toNat]
  exact BitVec.toNat_eq

/-- Settles O5: the reserved bits are tested first, and no row of the map has an opcode of a reserved range. -/
theorem reservedEncodingsRefused : Obligations.ReservedEncodingsRefused := by
  unfold Obligations.ReservedEncodingsRefused
  intro cfg h operands
  constructor
  · intro hbits
    exact decode_of_reservedBits (mt (headerRsv_eq_zero_iff h).1 hbits)
  · intro hbits hop
    refine decode_of_unknownOpcode ((headerRsv_eq_zero_iff h).2 hbits) (Op.ofCode_of_reserved ?_)
    rw [headerOp_toNat]
    exact hop

end Sys2Proof
end

