-- ==== Sys2Proof/Proofs/OperandCheck.lean ====
section
/-! The operand check of the decoder (30_encoding R83, R87), row by row of the opcode map. -/

namespace Sys2Proof

/-! ### The ranges of the operand types, 30_encoding R83 -/

/-- The numbers of a type, each range by its greatest value. -/
def OperandType.InRange (cfg : Config) (t : OperandType) (v : Number) : Prop :=
  match t with
  | .u bits => ∃ n : Nat, v = n ∧ n ≤ 2 ^ bits - 1
  | .bit => v = 0 ∨ v = 1
  | .raw => ∃ n : Nat, v = n ∧ n ≤ cfg.adcRawMax
  | .time => ∃ n : Nat, v = n ∧ n < 2 ^ cfg.timeW
  | .num => True
  | .ftype => ∃ n : Nat, v = n ∧ n ≤ 255

/-- The naturals below 2 are the two values of a bit. -/
theorem exists_natCast_lt_two_iff (v : Number) : (∃ n : Nat, v = n ∧ n < 2) ↔ v = 0 ∨ v = 1 := by
  constructor
  · rintro ⟨n, rfl, hn⟩
    exact_mod_cast (by omega : n = 0 ∨ n = 1)
  · rintro (rfl | rfl)
    · exact ⟨0, by simp⟩
    · exact ⟨1, by simp⟩

/-- The decoder admits exactly the numbers of a type. -/
theorem OperandType.admits_iff_inRange (cfg : Config) (t : OperandType) (v : Number) :
    t.admits cfg v = true ↔ t.InRange cfg v := by
  cases t with
  | u bits =>
    simp only [admits_iff (t := .u bits) rfl, InRange, Nat.le_sub_one_iff_lt (Nat.two_pow_pos bits)]
  | bit => exact (admits_iff rfl v).trans (exists_natCast_lt_two_iff v)
  | raw => simp only [admits_iff (t := .raw) rfl, InRange, Nat.lt_succ_iff]
  | time => exact admits_iff rfl v
  | num => exact iff_of_true rfl trivial
  | ftype => simp only [admits_iff (t := .ftype) rfl, InRange, Nat.lt_succ_iff]

/-- The operands of a row in number and range: what `operandsMatch` decides. -/
theorem operandsMatch_iff_inRange (cfg : Config) (ts : List OperandType) (vs : List Number) :
    operandsMatch cfg ts vs = true ↔
      vs.length = ts.length ∧
        ∀ (k : Nat) (t : OperandType) (v : Number), ts[k]? = some t → vs[k]? = some v → t.InRange cfg v := by
  simp only [operandsMatch_iff, OperandType.admits_iff_inRange]

/-! ### The rows of the opcode map, 30_encoding R85 -/

/-- A row as the map writes it: code, channel command or not, operand types. -/
def Op.row (o : Op) : Nat × Bool × List OperandType := (o.code.toNat, o.format == .channel, o.operandTypes)

theorem Op.code_eq_fltRaise_iff (o : Op) : o.code.toNat = 0x10 ↔ o = .fltRaise := by cases o <;> decide

theorem Op.code_eq_pidSetparams_iff (o : Op) : o.code.toNat = 0x31 ↔ o = .pidSetparams := by cases o <;> decide

/-- The channel field a row admits: a channel of the block, or 0 for a global command. -/
abbrev Op.AdmitsChan (cfg : Config) (o : Op) (c : Chan) : Prop :=
  if o.format == .channel then c.val < cfg.nch else c = 0

/-- What is left of decoding once the channel field is admitted. -/
theorem decode_headerOf_of_admitsChan {cfg : Config} {o : Op} {c : Chan} (hc : o.AdmitsChan cfg c) (vs : List Number) :
    decode cfg ⟨headerOf o c, vs⟩ =
      if operandsMatch cfg o.operandTypes vs = false then .refuse .badOperand else o.build c vs := by
  rw [decode_headerOf]
  cases hf : o.format with
  | global =>
    have h0 : c = 0 := by simpa [Op.AdmitsChan, hf] using hc
    simp [h0]
  | channel =>
    have hlt : c.val < cfg.nch := by simpa [Op.AdmitsChan, hf] using hc
    simp [hlt]

/-! ### The two checks on operand values, 30_encoding R87 -/

/-- The codes 1 to 7 are named (42_fault R160). -/
theorem FaultType.ofCode_isSome_of_lt : ∀ n < 8, n ≠ 0 → (FaultType.ofCode n).isSome := by decide

/-- FLT_RAISE with a type 0 or 8 and above. -/
def Op.BadType (o : Op) (vs : List Number) : Prop :=
  o = .fltRaise ∧ ∃ v, vs[0]? = some v ∧ (v = 0 ∨ 8 ≤ v)

/-- PID_SETPARAMS with a negative cap or dead zone. -/
def Op.BadParam (o : Op) (vs : List Number) : Prop :=
  o = .pidSetparams ∧ ∃ cap deadZone, vs[3]? = some cap ∧ vs[5]? = some deadZone ∧ (cap < 0 ∨ deadZone < 0)

/-- The type check reads the number the type operand stands for. -/
theorem natOf_badType_iff {v : Number} (hv : (natOf v : Number) = v) :
    v = 0 ∨ 8 ≤ v ↔ natOf v = 0 ∨ 8 ≤ natOf v := by
  rw [← hv, natOf_natCast]
  norm_cast

/-- FLT_RAISE is refused for its type, or it completes. -/
theorem Op.build_fltRaise (c : Chan) {t : Number} (d m : Number) (ht : (natOf t : Number) = t) :
    ((t = 0 ∨ 8 ≤ t) → Op.build .fltRaise c [t, d, m] = .refuse .badFaultType) ∧
    (¬ (t = 0 ∨ 8 ≤ t) → ∃ i, Op.build .fltRaise c [t, d, m] = .ok i) := by
  rw [natOf_badType_iff ht]
  constructor
  · intro hbad
    simp [Op.build, FaultType.ofCode_of_not hbad]
  · intro hgood
    obtain ⟨ty, hty⟩ := Option.isSome_iff_exists.1
      (FaultType.ofCode_isSome_of_lt (natOf t) (by omega) (by omega))
    simp [Op.build, hty]

/-- A row without a check on operand values completes for as many operands as it has. -/
theorem Op.build_ok {o : Op} (hflt : o ≠ .fltRaise) (hpid : o ≠ .pidSetparams) (c : Chan) {vs : List Number}
    (hl : vs.length = o.operandTypes.length) : ∃ i, o.build c vs = .ok i := by
  cases o with
  | fltRaise => exact absurd rfl hflt
  | pidSetparams => exact absurd rfl hpid
  | fltReset | fltRdmask | fltRdstatus | fltRddata | motRdstate | pidRdsnap | encOdoreset | encRdfreq =>
    obtain rfl := List.length_eq_zero_iff.1 hl
    exact ⟨_, rfl⟩
  | fltSetmask | motSetspeed | motSetcurrent | motSetstallen | pidSetreq | pidTick | posSample | encEdge | encPoll
  | regRead =>
    obtain ⟨v, rfl⟩ := List.length_eq_one_iff.1 hl
    exact ⟨_, rfl⟩
  | adcPoll | regWrite =>
    obtain ⟨v, w, rfl⟩ := List.length_eq_two.1 hl
    exact ⟨_, rfl⟩

/-- What a row answers for operands that match it. -/
theorem Op.build_of_operandsMatch {cfg : Config} {o : Op} {vs : List Number} (c : Chan)
    (h : operandsMatch cfg o.operandTypes vs = true) :
    (o.BadType vs → o.build c vs = .refuse .badFaultType) ∧
    (o.BadParam vs → o.build c vs = .refuse .badParam) ∧
    (¬ o.BadType vs → ¬ o.BadParam vs → ∃ i, o.build c vs = .ok i) := by
  have hl : vs.length = o.operandTypes.length := ((operandsMatch_iff cfg _ vs).1 h).1
  by_cases hflt : o = .fltRaise
  · subst hflt
    obtain ⟨t, d, m, rfl⟩ := List.length_eq_three.1 hl
    rw [Op.operandTypes, operandsMatch_cons, Bool.and_eq_true] at h
    obtain ⟨htype, -⟩ := h
    have hbuild := Op.build_fltRaise c d m (OperandType.natOf_of_admits rfl htype).1
    simpa [Op.BadType, Op.BadParam] using hbuild
  by_cases hpid : o = .pidSetparams
  · subst hpid
    match vs, hl with
    | [p, i, d, cap, dec, dz], _ =>
      by_cases hbad : cap < 0 ∨ dz < 0 <;> simp [Op.BadType, Op.BadParam, Op.build, hbad]
  · simp [Op.BadType, Op.BadParam, hflt, hpid, Op.build_ok hflt hpid c hl]

/-- Settles O7: a row of the statement is a row of the map, whose header decodes to the operand check and then to the
row's own checks on values. -/
theorem operandsChecked : Obligations.OperandsChecked := by
  unfold Obligations.OperandsChecked
  intro rows inType cfg code channel types hrow c operands hchan answer fits badType badParam
  have hmem : (code, channel, types) ∈ Op.all.map Op.row := hrow
  obtain ⟨o, -, ho⟩ := List.mem_map.1 hmem
  cases ho
  have hanswer : answer = if operandsMatch cfg o.operandTypes operands = false then .refuse .badOperand
      else o.build c operands := by
    rw [← decode_headerOf_of_admitsChan hchan, headerOf_eq]
  have hfits : fits ↔ operandsMatch cfg o.operandTypes operands = true :=
    (operandsMatch_iff_inRange cfg _ operands).symm
  have hbadType : badType ↔ o.BadType operands := and_congr_left' o.code_eq_fltRaise_iff
  have hbadParam : badParam ↔ o.BadParam operands := and_congr_left' o.code_eq_pidSetparams_iff
  rw [hanswer, hfits, hbadType, hbadParam]
  by_cases hm : operandsMatch cfg o.operandTypes operands = true
  · simpa [hm] using Op.build_of_operandsMatch c hm
  · simp [hm]

end Sys2Proof
end

