-- ==== Sys2Proof/Proofs/ValueMapping.lean ====
section
/-! The value mapping of the register port: the scale of a register, its floor and its inverse (40_regport R112 to
R115). -/

namespace Sys2Proof.Machine

open Sys2Proof

/-- Where a value lies on the scale of a register, from 0 at its least value to the greatest raw value at its
greatest; R112 takes the floor of it. -/
def scaled (d : RegDesc) (v : Number) : Number := (v - d.min) * (rawMax d : Number) / (d.max - d.min)

theorem mapRaw_eq_floorNat_scaled (d : RegDesc) (v : Number) : mapRaw d v = floorNat (scaled d v) := rfl

theorem rawMax_pos {d : RegDesc} (hs : d.size = 1 ∨ d.size = 2) : 0 < rawMax d := byte_le_rawMax hs (n := 1) (by decide)

theorem scaled_min (d : RegDesc) : scaled d d.min = 0 := by simp [scaled]

theorem scaled_max {d : RegDesc} (hlt : d.min < d.max) : scaled d d.max = rawMax d :=
  mul_div_cancel_left₀ _ (sub_pos.2 hlt).ne'

theorem scaled_nonneg {d : RegDesc} (hlt : d.min < d.max) {v : Number} (hv : d.min ≤ v) : 0 ≤ scaled d v :=
  div_nonneg (mul_nonneg (sub_nonneg.2 hv) (Nat.cast_nonneg _)) (sub_pos.2 hlt).le

theorem quantStep_pos {d : RegDesc} (hs : d.size = 1 ∨ d.size = 2) (hlt : d.min < d.max) : 0 < quantStep d :=
  div_pos (sub_pos.2 hlt) (Nat.cast_pos.2 (rawMax_pos hs))

/-- What unmapping loses of a value is its distance from the raw value on the scale, in quantization steps. -/
theorem sub_unmapRaw {d : RegDesc} (hs : d.size = 1 ∨ d.size = 2) (hlt : d.min < d.max) (v : Number) (raw : Nat) :
    v - unmapRaw d raw = (scaled d v - raw) * quantStep d := by
  have hD : d.max - d.min ≠ 0 := (sub_pos.2 hlt).ne'
  have hR : (rawMax d : Number) ≠ 0 := Nat.cast_ne_zero.2 (rawMax_pos hs).ne'
  unfold unmapRaw scaled quantStep
  field_simp
  ring

/-- `floorNat` is the library's floor, whose bounds hold of it. -/
theorem floorNat_eq_natFloor (v : Number) : floorNat v = ⌊v⌋₊ := Int.floor_toNat v

/-- On the domain `map` is the floor of the scale (R112). -/
theorem mapRaw_eq_floor {d : RegDesc} (hlt : d.min < d.max) {v : Number} (hv : d.min ≤ v) :
    (mapRaw d v : Int) = Rat.floor (scaled d v) := floorNat_eq (scaled_nonneg hlt hv)

theorem clamp_of_mem {v lo hi : Number} (hlo : lo ≤ v) (hhi : v ≤ hi) : clamp v lo hi = v := by
  rw [clamp, max_eq_left hlo, min_eq_left hhi]

/-- On the domain `map` answers a raw value of the register. -/
theorem mapRaw_le_rawMax {d : RegDesc} (hlt : d.min < d.max) {v : Number} (hmin : d.min ≤ v) (hmax : v ≤ d.max) :
    mapRaw d v ≤ rawMax d := by
  simpa [mappedRead, clamp_of_mem hmin hmax] using mappedRead_le hlt v

/-- Unmapping a mapped value answers less than one step below it (R115). -/
theorem sub_unmapRaw_mapRaw {d : RegDesc} (hs : d.size = 1 ∨ d.size = 2) (hlt : d.min < d.max) {v : Number}
    (hv : d.min ≤ v) : 0 ≤ v - unmapRaw d (mapRaw d v) ∧ v - unmapRaw d (mapRaw d v) < quantStep d := by
  have hx := scaled_nonneg hlt hv
  have hstep := quantStep_pos hs hlt
  have hlow : (⌊scaled d v⌋₊ : Number) ≤ scaled d v := Nat.floor_le hx
  have hhigh : scaled d v - ⌊scaled d v⌋₊ < 1 := sub_left_lt_of_lt_add (Nat.lt_floor_add_one _)
  rw [sub_unmapRaw hs hlt, mapRaw_eq_floorNat_scaled, floorNat_eq_natFloor]
  exact ⟨mul_nonneg (sub_nonneg.2 hlow) hstep.le, mul_lt_of_lt_one_left hstep hhigh⟩

/-- Settles O43, from the place of a value on its register's scale and the floor of that place. -/
theorem mapUnmapWithinOneStep : Obligations.MapUnmapWithinOneStep := by
  unfold Obligations.MapUnmapWithinOneStep
  intro d hs hlt
  refine ⟨?_, ?_, fun _ => rfl, fun v hmin hmax => ?_⟩
  · rw [mapRaw_eq_floorNat_scaled, scaled_min, floorNat_zero]
  · rw [mapRaw_eq_floorNat_scaled, scaled_max hlt, floorNat_eq_natFloor, Nat.floor_natCast, rawMax]
  · exact ⟨mapRaw_eq_floor hlt hmin, mapRaw_le_rawMax hlt hmin hmax, sub_unmapRaw_mapRaw hs hlt hmin⟩

end Sys2Proof.Machine
end

