-- ==== Sys2Proof/Proofs/RegisterAccess.lean ====
section
/-! What a register read answers and what a write of a plain register leaves (40_regport R116 to R118, R121, R122). -/

namespace Sys2Proof.Machine

open Sys2Proof

/-! ### The answer of a read, 40_regport R116 and R117 -/

/-- A read outside the table answers status 1 and no value. -/
theorem regRead_of_not_mem {s : State} {id : Nat} (h : s.cfg.regmap[id]? = none) :
    regRead id s = respond s (.regRead 1 0) := by
  simp [regRead, checkAndLoadRegister, h, accessCode]

/-- A read changes nothing but the record of responses. -/
theorem regRead_frame (id : Nat) (s : State) : regRead id s = { s with responses := (regRead id s).responses } := by
  unfold regRead
  split <;> rfl

/-- The word a read answers holds a getter's value that fits it. -/
theorem ofNat_regGet_toNat {d : RegDesc} {id : Nat} {s : State} {n : Nat} (h : regGet d id s = n) (hn : n < 2 ^ 16) :
    (BitVec.ofNat 16 (regGet d id s)).toNat = n := by
  rw [h, BitVec.toNat_ofNat, Nat.mod_eq_of_lt hn]

/-! ### The getters of the bindings, 40_regport R121 -/

theorem statusByte_toNat (f : FaultReg) : f.statusByte.toNat = if f.active then 1 else 0 := by
  cases h : f.active <;> simp [FaultReg.statusByte, h]

/-- A 2-byte register moves the exception-data word whole. -/
theorem saturateRaw_of_size_two {d : RegDesc} (h : d.size = 2) (w : Word16) : saturateRaw d w.toNat = w.toNat := by
  apply saturateRaw_of_le
  rw [rawMax_of_size_two h]
  exact Nat.le_of_lt_succ w.isLt

/-- A 1-byte register saturates at 255. -/
theorem saturateRaw_of_size_one {d : RegDesc} (h : d.size = 1) (n : Nat) :
    saturateRaw d n = if n ≤ 255 then n else 255 := by
  rw [saturateRaw, rawMax_of_size_one h, Nat.min_def]

/-- A plain register answers the word it stores. -/
theorem ofNat_regGet_of_plain {d : RegDesc} (hb : d.binding = .plain) (id : Nat) (s : State) :
    BitVec.ofNat 16 (regGet d id s) = s.plain.read id := by
  simp only [regGet, hb, BitVec.ofNat_toNat, BitVec.setWidth_eq]

/-- The stored Number a register shows through its domain, by its binding; a raw kind shows none. -/
def boundNumber (s : State) : Binding → Option Number
  | .pidRequired c => some (pidAt s c).required
  | .pidActual c => some (pidAt s c).actual
  | .pidParam c k => some (paramOf (pidAt s c).params k)
  | .motorControl c => some (motAt s c).control
  | .motorFiltered c => some (motAt s c).filtered
  | .encFreq c => some (encAt s c).freq
  | .faultStatus | .faultData | .faultMask | .faultResetTrigger => none
  | .motorState _ | .stallEnable _ | .encOdometry _ | .plain => none

/-- Every Number binding is read clamped into the domain and mapped. -/
theorem regGet_of_boundNumber {d : RegDesc} {s : State} {v : Number} (h : boundNumber s d.binding = some v) (id : Nat) :
    regGet d id s = mappedRead d v := by
  cases hb : d.binding with
  | faultStatus | faultData | faultMask | faultResetTrigger | motorState | stallEnable | encOdometry | plain =>
    rw [hb] at h
    cases h
  | pidRequired | pidActual | pidParam | motorControl | motorFiltered | encFreq =>
    rw [hb] at h
    cases h
    simp only [regGet, hb]

/-- A Number read is the floor of the clamped value's place on the register's scale (R112, R117). -/
theorem mappedRead_eq_floor {d : RegDesc} (hlt : d.min < d.max) (v : Number) :
    (mappedRead d v : Int) = Rat.floor (scaled d (clamp v d.min d.max)) := mapRaw_eq_floor hlt (le_clamp hlt.le)

/-- Settles O45: the read answers its getter, whose value fits a word for every binding. -/
theorem regReadAnswersTheBinding : Obligations.RegReadAnswersTheBinding := by
  unfold Obligations.RegReadAnswersTheBinding
  intro s id
  refine ⟨headerOf_eq .regRead 0, ?_⟩
  cases hd : s.cfg.regmap[id.toNat]? with
  | none =>
    refine ⟨_, 1, 0, exec_regRead s id, ?_, regRead_frame id.toNat s, fun _ => ⟨rfl, rfl⟩, by simp⟩
    rw [regRead_of_not_mem hd, respond_responses]
  | some d =>
    have hin : id.toNat < s.cfg.regmap.length := (List.getElem?_eq_some_iff.1 hd).1
    refine ⟨_, 0, BitVec.ofNat 16 (regGet d id.toNat s), exec_regRead s id, ?_, regRead_frame id.toNat s,
      fun hout => absurd hin (Nat.not_lt.2 hout), ?_⟩
    · rw [regRead_of_mem hd, respond_responses]
    rintro _ ⟨rfl⟩
    refine ⟨rfl, fun hb => ?_, fun hb => ?_, fun hb => ?_, fun hb => ?_, fun c hb => ?_, fun c hb => ?_,
      fun c hb hs => ?_, fun hb => ?_, fun c v hv hs hlt => ?_⟩
    · -- FaultStatus
      refine ofNat_regGet_toNat ?_ (by split <;> decide)
      simp only [regGet, hb, statusByte_toNat]
    · -- FaultData, whole through two bytes and saturated through one
      intro word
      have hword : s.flt.dataWord.toNat = word := dataWord_toNat s.flt
      refine ⟨fun hs => ?_, fun hs => ?_⟩
      · refine ofNat_regGet_toNat ?_ (hword ▸ s.flt.dataWord.isLt)
        simp only [regGet, hb, saturateRaw_of_size_two hs]
        exact hword
      · refine ofNat_regGet_toNat ?_ (by split <;> omega)
        simp only [regGet, hb, saturateRaw_of_size_one hs, hword]
    · -- FaultMask
      exact ofNat_regGet_toNat (by simp only [regGet, hb]) (Nat.lt_trans s.flt.mask.isLt (by decide))
    · -- FaultResetTrigger
      exact ofNat_regGet_toNat (by simp only [regGet, hb]) (by decide)
    · -- MotorState
      exact ofNat_regGet_toNat (by simp only [regGet, hb]) (Nat.lt_trans (motAt s c).state.code.isLt (by decide))
    · -- StallEnable
      refine ofNat_regGet_toNat ?_ (by split <;> decide)
      simp only [regGet, hb]
      cases (motAt s c).stallEn <;> rfl
    · -- EncOdometry
      have hmod : (encAt s c).odometry % 2 ^ (8 * d.size) < 2 ^ (8 * d.size) := Nat.mod_lt _ (Nat.two_pow_pos _)
      have hfits : 2 ^ (8 * d.size) ≤ 2 ^ 16 := Nat.pow_le_pow_right (by decide) (by omega)
      exact ofNat_regGet_toNat (by simp only [regGet, hb]) (Nat.lt_of_lt_of_le hmod hfits)
    · -- Plain
      exact ofNat_regGet_of_plain hb id.toNat s
    · -- the Number kinds
      have hnum : boundNumber s d.binding = some v := by
        rcases hv with ⟨hb, rfl⟩ | ⟨hb, rfl⟩ | ⟨hb, rfl⟩ | ⟨hb, rfl⟩ | ⟨hb, rfl⟩ | ⟨hb, rfl⟩ | ⟨hb, rfl⟩ | ⟨hb, rfl⟩ |
          ⟨hb, rfl⟩ | ⟨hb, rfl⟩ | ⟨hb, rfl⟩ <;> rw [hb] <;> rfl
      have hfits : mappedRead d v < 2 ^ 16 := Nat.lt_of_le_of_lt (mappedRead_le hlt v) (rawMax_lt_of_size hs)
      rw [ofNat_regGet_toNat (regGet_of_boundNumber hnum _) hfits]
      exact mappedRead_eq_floor hlt v

/-! ### Plain registers, 40_regport R122 -/

theorem regRead_of_plain {s : State} {id : Nat} {d : RegDesc} (hd : s.cfg.regmap[id]? = some d)
    (hb : d.binding = .plain) : regRead id s = respond s (.regRead 0 (s.plain.read id)) := by
  rw [regRead_of_mem hd, ofNat_regGet_of_plain hb]

theorem regWrite_of_plain {s : State} {id : Nat} {d : RegDesc} (hd : s.cfg.regmap[id]? = some d)
    (hb : d.binding = .plain) (hw : d.writable = true) (raw : Word16) :
    regWrite id raw s = respond (setPlain s id (BitVec.ofNat 16 (writtenRaw d raw))) (.regWrite 0) := by
  simp [regWrite, checkAndLoadRegister, hd, hw, regSet, hb]

/-- A write moves all of a value that fits the register (R118). -/
theorem writtenRaw_of_fits {d : RegDesc} {raw : Word16} (h : d.size = 2 ∨ d.size = 1 ∧ raw.toNat < 256) :
    writtenRaw d raw = raw.toNat := by
  rcases h with hs | ⟨hs, hlt⟩
  · simp [writtenRaw, hs]
  · simp [writtenRaw, hs, lowByte_toNat, Nat.mod_eq_of_lt hlt]

/-- Settles O48: the storage is empty after reset, and its laws of reading after a write are those of the registers. -/
theorem plainRegisterReadsBack : Obligations.PlainRegisterReadsBack := by
  unfold Obligations.PlainRegisterReadsBack
  constructor
  · intro cfg id d hd hb
    refine ⟨_, exec_regRead _ id, ?_⟩
    rw [regRead_of_plain hd hb]
    rfl
  · intro s id other raw d e hwf hd hb hw hfits he heb
    have ht : regWrite id.toNat raw s = respond (setPlain s id.toNat raw) (.regWrite 0) := by
      rw [regWrite_of_plain hd hb hw, writtenRaw_of_fits hfits, BitVec.ofNat_toNat, BitVec.setWidth_eq]
    have hcfg : (regWrite id.toNat raw s).cfg = s.cfg := regWrite_cfg s id.toNat raw
    have hplain : (regWrite id.toNat raw s).plain = s.plain.write id.toNat raw := by
      rw [ht, respond_plain, setPlain_plain]
    refine ⟨_, exec_regWrite s id raw, ⟨_, exec_regRead _ id, ?_⟩, fun hne => ?_⟩
    · rw [regRead_of_plain (hcfg ▸ hd) hb, respond_responses, hplain, Memory.read_write_same id.toNat raw hwf]
    · have hother : other.toNat ≠ id.toNat := fun h => hne (BitVec.eq_of_toNat_eq h)
      refine ⟨_, _, s.plain.read other.toNat, exec_regRead _ other, exec_regRead s other, ?_, ?_⟩
      · rw [regRead_of_plain (hcfg ▸ he) heb, respond_responses, hplain, Memory.read_write_other _ _ _ raw hother]
      · rw [regRead_of_plain he heb, respond_responses]

end Sys2Proof.Machine
end

