-- ==== Sys2Proof/Proofs/MotorCommands.lean ====
section
/-! The motor's commands and the stall classifier, one channel at a time (41_motor). -/

namespace Sys2Proof.Machine

open Sys2Proof

/-! ### One bank written -/

/-- Writing one motor bank: the bank, the other banks and everything else. -/
theorem setMot_spec {s : State} {c : Nat} (b : MotBank) (h : c < s.ch.length) :
    motAt (setMot s c b) c = b ∧ (∀ d, d ≠ c → motAt (setMot s c b) d = motAt s d) ∧
      (setMot s c b).ch.length = s.ch.length ∧ setMot s c b = { s with ch := (setMot s c b).ch } :=
  ⟨motAt_setMot_same s c b h, fun d hd => motAt_setMot_other s c d b hd, List.length_set, rfl⟩

/-! ### MOT_SETSPEED, 41_motor R130 to R132 -/

theorem targetState_of_pos {ctl : Number} (h : 0 < ctl) : targetState ctl = .forward := if_pos h

theorem targetState_of_neg {ctl : Number} (h : ctl < 0) : targetState ctl = .reverse := by
  rw [targetState, if_neg h.not_gt, if_pos h]

@[simp] theorem targetState_zero : targetState 0 = .stop := rfl

/-- The sign of the control selects the lines. -/
theorem driveLines_targetState (ctl : Number) : driveLines (targetState ctl) = (decide (0 < ctl), decide (ctl < 0)) := by
  rcases lt_trichotomy ctl 0 with h | rfl | h
  · simp [targetState_of_neg h, driveLines, h, h.le]
  · rfl
  · simp [targetState_of_pos h, driveLines, h, h.le]

/-- The duty is the floor of the control's magnitude; STOP, whose duty is 0, is the target of the control 0 only. -/
theorem drivePwm_targetState (maxDuty : Nat) (ctl : Number) :
    drivePwm maxDuty (targetState ctl) ctl = if ctl = 0 then 0 else (Rat.floor |ctl|).toNat := by
  rcases lt_trichotomy ctl 0 with h | rfl | h
  · rw [targetState_of_neg h, if_neg h.ne]
    rfl
  · rfl
  · rw [targetState_of_pos h, if_neg h.ne']
    rfl

/-- The bank MOT_SETSPEED leaves, by the sign of the control. -/
theorem drivenBank_eq (s : State) (b : MotBank) (ctl : Number) :
    drivenBank s b ctl =
      { b with
        control := stored s ctl
        state := targetState ctl
        pwm := if ctl = 0 then 0 else (Rat.floor |ctl|).toNat
        dirA := if targetState ctl ≠ b.state then decide (0 < ctl) else b.dirA
        dirB := if targetState ctl ≠ b.state then decide (ctl < 0) else b.dirB } := by
  rw [drivenBank, drivePwm_targetState, driveLines_targetState]

/-- Settles O23, from the bank and the event MOT_SETSPEED leaves and the lines and duty of a control's sign. -/
theorem motSetspeedDrivesBySign : Obligations.MotSetspeedDrivesBySign := by
  unfold Obligations.MotSetspeedDrivesBySign
  intro s c v hc
  refine ⟨headerOf_eq .motSetspeed c, _, exec_motSetspeed s c v, motSetspeed_of_active c.val v, fun hactive => ?_⟩
  intro ctl target changed a b
  obtain ⟨hsame, hother, hlength, -⟩ := setMot_spec (drivenBank s (motAt s c.val) ctl) hc
  rw [motSetspeed_of_inactive c.val v hactive]
  refine ⟨hsame.trans (drivenBank_eq s _ ctl), ?_, hother, hlength, rfl⟩
  simp only [driveLines_targetState]
  rfl

/-! ### MOT_SETCURRENT, 41_motor R134 to R136 -/

theorem emaUpdate_eq (k : ChanCfg) (f : Number) (raw : Nat) :
    emaUpdate k f raw = f + (if f < (raw : Number) then k.alphaRise else k.alphaFall) * ((raw : Number) - f) := by
  unfold emaUpdate
  split <;> rfl

/-- The bank that has taken a sample, before the sample is classified (41_motor R134). -/
def sampledBank (s : State) (c raw : Nat) : MotBank :=
  { motAt s c with filtered := stored s (emaUpdate (chanCfg s.cfg c) (motAt s c).filtered raw), lastRaw := raw }

theorem motSetcurrent_of_le {s : State} {c raw : Nat} (h : raw ≤ (chanCfg s.cfg c).ocThreshold) :
    motSetcurrent c raw s = setMot s c (sampledBank s c raw) := if_neg (Nat.not_lt.2 h)

theorem motSetcurrent_of_lt {s : State} {c raw : Nat} (h : (chanCfg s.cfg c).ocThreshold < raw) :
    motSetcurrent c raw s =
      fltRaise (channelOrigin s.cfg c) (currentClass (chanCfg s.cfg c) (motAt s c).control)
        (setMot s c (sampledBank s c raw)) := if_pos h

theorem currentClass_of_lt {k : ChanCfg} {control : Number} (h : k.highControl < |control|) :
    currentClass k control = .overcurrent := if_pos h

theorem currentClass_of_le {k : ChanCfg} {control : Number} (h : |control| ≤ k.highControl) :
    currentClass k control = .short := if_neg (not_lt.2 h)

/-- FLT_RAISE as the block itself performs it for one of its channels. -/
theorem exec_fltRaise_channelOrigin (s : State) (ty : FaultType) (cfg : Config) (c : Nat) :
    exec (.fltRaise ty cfg.deviceIndex (BitVec.ofNat 4 c)) s = .next (fltRaise (channelOrigin cfg c) ty s) :=
  exec_fltRaise s ty cfg.deviceIndex (BitVec.ofNat 4 c)

/-- Settles O25: the sample is taken into the bank, and that state raises what the sample and the control say. -/
theorem motSetcurrentFiltersAndClassifies : Obligations.MotSetcurrentFiltersAndClassifies := by
  unfold Obligations.MotSetcurrentFiltersAndClassifies
  intro s c raw hc
  refine ⟨headerOf_eq .motSetcurrent c, _, setMot s c.val (sampledBank s c.val raw), exec_motSetcurrent s c raw, ?_⟩
  intro b k alpha
  obtain ⟨hsame, hother, hlength, hframe⟩ := setMot_spec (sampledBank s c.val raw) hc
  refine ⟨?_, hother, hlength, hframe, motSetcurrent_of_le, fun hraw hcontrol => ?_, fun hraw hcontrol => ?_⟩
  · rw [hsame, sampledBank, emaUpdate_eq]
  · rw [motSetcurrent_of_lt hraw, currentClass_of_lt hcontrol, exec_fltRaise_channelOrigin]
  · rw [motSetcurrent_of_lt hraw, currentClass_of_le hcontrol, exec_fltRaise_channelOrigin]

/-! ### MOT_SETSTALLEN, 41_motor R137 -/

/-- Settles O26: one motor bank is written. -/
theorem motSetstallenRestartsTheDebounce : Obligations.MotSetstallenRestartsTheDebounce := by
  unfold Obligations.MotSetstallenRestartsTheDebounce
  intro s c en hc
  exact ⟨headerOf_eq .motSetstallen c, _, exec_motSetstallen s c en, setMot_spec _ hc⟩

/-! ### STALL_CHECK, 41_motor R138 to R140 -/

theorem stallCondition_iff (k : ChanCfg) (b : MotBank) (speed : Number) :
    stallCondition k b speed = true ↔ speed < k.stallSpeedEps ∧ k.stallCtrl < |b.control| := by
  simp [stallCondition]

section
variable {s : State} {c : Nat} {speed : Number}

theorem stallCheck_of_disabled (he : (motAt s c).stallEn = false) : stallCheck c speed s = s := if_pos he

theorem stallCheck_of_not_condition (he : (motAt s c).stallEn = true)
    (hc : ¬ stallCondition (chanCfg s.cfg c) (motAt s c) speed = true) :
    stallCheck c speed s = setMot s c { motAt s c with stallCnt := 0 } := by
  simp [stallCheck, he, hc]

theorem stallCheck_within_debounce (he : (motAt s c).stallEn = true)
    (hc : stallCondition (chanCfg s.cfg c) (motAt s c) speed = true)
    (hn : (motAt s c).stallCnt + 1 ≤ (chanCfg s.cfg c).stallDebounce) :
    stallCheck c speed s = setMot s c { motAt s c with stallCnt := (motAt s c).stallCnt + 1 } := by
  simp [stallCheck, he, hc, Nat.not_lt.2 hn]

theorem stallCheck_past_debounce (he : (motAt s c).stallEn = true)
    (hc : stallCondition (chanCfg s.cfg c) (motAt s c) speed = true)
    (hn : (chanCfg s.cfg c).stallDebounce < (motAt s c).stallCnt + 1) :
    stallCheck c speed s =
      fltRaise (channelOrigin s.cfg c) (stallClass (chanCfg s.cfg c) (motAt s c).lastRaw)
        (setMot s c { motAt s c with stallCnt := 0 }) := by
  simp [stallCheck, he, hc, hn]

end

/-- Settles O27, branch by branch of the check. -/
theorem stallCheckCountsAndClassifies : Obligations.StallCheckCountsAndClassifies := by
  unfold Obligations.StallCheckCountsAndClassifies
  intro s c speed _ b k u holds
  have hcond : stallCondition k b speed = true ↔ holds := stallCondition_iff k b speed
  refine ⟨stallCheck_of_disabled, fun he hc => ?_, fun he hc hn => ?_, fun he hc hn => ?_⟩
  · exact stallCheck_of_not_condition he (mt hcond.1 hc)
  · exact stallCheck_within_debounce he (hcond.2 hc) hn
  · rw [exec_fltRaise_channelOrigin]
    exact congrArg _ (stallCheck_past_debounce he (hcond.2 hc) hn).symm

/-! ### The getters of a channel, 41_motor R143, 43_pid R190, 45_encoder R216 -/

/-- Settles O29: each getter answers a copy of its bank and records nothing else. -/
theorem channelGetters : Obligations.ChannelGetters := by
  unfold Obligations.ChannelGetters
  intro s c _
  refine ⟨⟨headerOf_eq .motRdstate c, headerOf_eq .pidRdsnap c, headerOf_eq .encRdfreq c⟩, ?_, ?_, ?_⟩
  · refine ⟨_, motSnapshot (motAt s c.val), exec_motRdstate s c, rfl, rfl, ?_,
      rfl, rfl, rfl, rfl, rfl, rfl, rfl⟩
    -- the 2-bit state code (10_state R27)
    show (motAt s c.val).state.code.toNat = _
    cases (motAt s c.val).state <;> rfl
  · exact ⟨_, pidSnapshot (pidAt s c.val), exec_pidRdsnap s c, rfl, rfl, rfl, rfl, rfl, rfl, rfl, rfl, rfl⟩
  · exact ⟨_, exec_encRdfreq s c, rfl, rfl⟩

end Sys2Proof.Machine
end

