-- ==== Sys2Proof/Proofs/BrakeEntry.lean ====
section
/-! How a channel comes to be in BRAKE (41_motor R133). -/

namespace Sys2Proof.Machine

open Sys2Proof

theorem targetState_ne_brake (ctl : Number) : targetState ctl ≠ .brake := by
  rcases lt_trichotomy ctl 0 with h | rfl | h
  · simp [targetState_of_neg h]
  · simp
  · simp [targetState_of_pos h]

theorem stopState_eq_brake_iff (f : FaultStop) : stopState f = .brake ↔ f = .brake := by cases f <;> decide

/-- MOT_SETSPEED leaves no channel in BRAKE that was not there before. -/
theorem brake_of_motSetspeed_brake {s : State} {c d : Nat} {v : Number}
    (h : (motAt (motSetspeed c v s) d).state = .brake) : (motAt s d).state = .brake := by
  rcases motSetspeed_motAt c v s d with hkept | ⟨-, -, hdriven⟩
  · rwa [hkept] at h
  · rw [hdriven] at h
    exact absurd h (targetState_ne_brake _)

/-- Of what a command can do to a drive, only the stop of a fault it latches enters BRAKE. -/
theorem DriveStep.latches_of_enters_brake {s t : State} {d : Nat} (h : DriveStep s t d) (ht : (motAt t d).state = .brake)
    (hs : (motAt s d).state ≠ .brake) :
    s.cfg.faultStopState = .brake ∧ s.flt.active = false ∧ t.flt.active = true := by
  rcases h with ⟨hstate, -⟩ | ⟨-, -, ctl, -, -, hstate, -⟩ | ⟨hbefore, hafter, b, hstopped⟩
  · -- the drive is kept
    exact absurd (hstate.symm.trans ht) hs
  · -- the drive follows a control
    exact absurd (hstate.symm.trans ht) (targetState_ne_brake ctl)
  · -- a fault is latched
    rw [hstopped] at ht
    exact ⟨(stopState_eq_brake_iff _).1 ht, hbefore, hafter⟩

/-- A step does to a drive what a command can do to it: a step without one, or with a refused one, keeps it. -/
theorem step_driveStep {s t : State} (h : step s = .next t) (d : Nat) : DriveStep s t d := by
  rcases step_cases h with ⟨-, rfl⟩ | ⟨cmd, rest, i, -, -, hexec⟩ | ⟨cmd, rest, r, -, -, rfl⟩
  · exact driveStep_of_motAt rfl
  · exact exec_driveStep hexec d
  · exact driveStep_of_motAt rfl

theorem motAt_resetOf (cfg : Config) (d : Nat) : motAt (State.resetOf cfg) d = MotBank.reset := by
  simp [motAt, State.resetOf, List.getD_eq_getElem?_getD]

/-- Settles O24, from what one step can do to a drive. -/
theorem brakeOnlyByFaultResponse : Obligations.BrakeOnlyByFaultResponse := by
  unfold Obligations.BrakeOnlyByFaultResponse
  refine ⟨fun s t c v d h ht => ?_, fun s t d h => (step_driveStep h d).latches_of_enters_brake, fun cfg d => ?_⟩
  · rw [exec_motSetspeed] at h
    cases h
    exact brake_of_motSetspeed_brake ht
  · rw [motAt_resetOf]
    decide

end Sys2Proof.Machine
end

