-- ==== Sys2Proof/Proofs/FaultRegister.lean ====
section
/-! The fault register: entry, return, mask and getters, and what a command can do to a latched fault (42_fault). -/

namespace Sys2Proof.Machine

open Sys2Proof

/-! ### Fault entry, 42_fault R162 and R169, 41_motor R141 -/

/-- With none latched and the type not disabled, neither cause of a no-op holds. -/
theorem raise_not_noop {f : FaultReg} {ty : FaultType} (hactive : f.active = false) (hmasked : f.masked ty = false) :
    ¬ (f.active = true ∨ f.masked ty = true) := by simp [hactive, hmasked]

/-- A stopped channel's bank, by the choice between STOP and BRAKE. -/
theorem stoppedBank_eq (cfg : Config) (b : MotBank) :
    stoppedBank cfg b =
      { b with
        state := if cfg.faultStopState = .brake then .brake else .stop
        control := fmtApply cfg.fmt 0
        dirA := decide (cfg.faultStopState = .brake)
        dirB := decide (cfg.faultStopState = .brake)
        pwm := if cfg.faultStopState = .brake then cfg.maxDuty else 0
        stallCnt := 0 } := by
  rw [stoppedBank]
  cases cfg.faultStopState <;> rfl

/-- A stopped channel's event, by the same choice. -/
theorem stoppedEvent_eq (cfg : Config) :
    stoppedEvent cfg =
      fun c => .dir c (decide (cfg.faultStopState = .brake)) (decide (cfg.faultStopState = .brake)) := by
  funext c
  rw [stoppedEvent]
  cases cfg.faultStopState <;> rfl

/-- Settles O17, from the cases of fault entry and the bank and event of a stopped channel. -/
theorem fltRaiseLatchesAndStopsEveryChannel : Obligations.FltRaiseLatchesAndStopsEveryChannel := by
  unfold Obligations.FltRaiseLatchesAndStopsEveryChannel
  intro s ty dev mot hlen
  refine ⟨headerOf_eq .fltRaise 0, _, exec_fltRaise s ty dev mot, fltRaise_of_active _ ty, fltRaise_of_masked _ ty,
    fun hactive hmask => ?_⟩
  intro brake
  rcases fltRaise_cases ⟨dev, mot⟩ ty s with ⟨-, hnoop⟩ | ⟨-, -, hframe, hlength, hstopped, -⟩
  · exact absurd hnoop (raise_not_noop hactive hmask)
  · refine ⟨by rw [hframe], ?_, hlength, fun c hc => ?_, ?_⟩
    · rw [hframe, stoppedEvent_eq]
    · rw [hstopped c hc (hlen ▸ hc), stoppedBank_eq]
      rfl
    · rw [hframe]

/-! ### What a command can do to a latched fault -/

/-- The commands that perform FLT_RESET: itself, and a write of a writable FaultResetTrigger register
(40_regport R118, R121). -/
def PerformsFltReset (cfg : Config) (i : Instr) : Prop :=
  i = .fltReset ∨
    ∃ id raw d, i = .regWrite id raw ∧ cfg.regmap[id.toNat]? = some d ∧
      d.writable = true ∧ d.binding = .faultResetTrigger

/-- Two fault registers that differ in the mask at most. -/
def SameButMask (f g : FaultReg) : Prop := ∃ m, g = { f with mask := m }

theorem sameButMask_of_eq {f g : FaultReg} (h : g = f) : SameButMask f g := ⟨f.mask, h⟩

theorem fltReset_flt (s : State) : (fltReset s).flt = { s.flt with active := false } := by rw [(fltReset_spec s).1]

theorem setMaskRegister_sameButMask (raw : Nat) (s : State) : SameButMask s.flt (setMaskRegister raw s).flt := by
  unfold setMaskRegister
  split
  · exact ⟨_, rfl⟩
  · exact ⟨_, rfl⟩

/-- A setter reaches the fault register through the mask or the reset trigger only. -/
theorem regSet_flt_cases (d : RegDesc) (id raw : Nat) (s : State) :
    SameButMask s.flt (regSet d id raw s).flt ∨
    (d.binding = .faultResetTrigger ∧ (regSet d id raw s).flt = { s.flt with active := false }) := by
  unfold regSet
  split
  case h_1 => exact .inl (setMaskRegister_sameButMask raw s)
  case h_2 hb => exact .inr ⟨hb, fltReset_flt s⟩
  all_goals exact .inl (sameButMask_of_eq rfl)

/-- Everything REG_WRITE can do (40_regport R116, R118): answer a failed access, or set a writable register. -/
theorem regWrite_cases (id : Nat) (raw : Word16) (s : State) :
    (∃ status, regWrite id raw s = respond s (.regWrite status)) ∨
    ∃ d, s.cfg.regmap[id]? = some d ∧ d.writable = true ∧
      regWrite id raw s = respond (regSet d id (writtenRaw d raw) s) (.regWrite 0) := by
  cases hd : s.cfg.regmap[id]? with
  | none => exact .inl ⟨1, by simp [regWrite, checkAndLoadRegister, hd, accessCode]⟩
  | some d =>
    cases hw : d.writable with
    | false => exact .inl ⟨2, by simp [regWrite, checkAndLoadRegister, hd, hw, accessCode]⟩
    | true => exact .inr ⟨d, rfl, hw, by simp [regWrite, checkAndLoadRegister, hd, hw]⟩

section
variable {s : State} (h : s.flt.active = true)
include h

theorem motSetcurrent_flt_of_active (c raw : Nat) : (motSetcurrent c raw s).flt = s.flt := by
  rcases Nat.lt_or_ge (chanCfg s.cfg c).ocThreshold raw with hraw | hraw
  · rw [motSetcurrent_of_lt hraw, fltRaise_of_active _ _ (by simpa using h), setMot_flt]
  · rw [motSetcurrent_of_le hraw, setMot_flt]

theorem stallCheck_flt_of_active (c : Nat) (speed : Number) : (stallCheck c speed s).flt = s.flt := by
  rcases stallCheck_flt c speed s with hkept | ⟨hinactive, -⟩
  · exact hkept
  · exact absurd h (by simp [hinactive])

theorem pidTick_flt_of_active (c now : Nat) : (pidTick c now s).flt = s.flt := by
  simp only [pidTick]
  split
  · rfl
  · rw [pidDrive_flt, stallCheck_flt_of_active (by simpa using h), pidEstimate_flt]

theorem adcDispatch_flt_of_active (e : AdcReg) (raw : Nat) : (adcDispatch e raw s).flt = s.flt := by
  unfold adcDispatch
  split
  · exact motSetcurrent_flt_of_active h e.listener raw
  · rfl

theorem adcPoll_flt_of_active (done : Bool) (raw : Nat) : (adcPoll done raw s).flt = s.flt := by
  unfold adcPoll adcService
  split
  · rfl
  · split
    · split <;> rfl
    · split
      · exact adcDispatch_flt_of_active h _ raw
      · rfl

/-- Everything a command can do to a latched fault: change its mask at most, or perform FLT_RESET. -/
theorem exec_flt_cases_of_active {i : Instr} {t : State} (hexec : exec i s = .next t) :
    SameButMask s.flt t.flt ∨ (PerformsFltReset s.cfg i ∧ t.flt = { s.flt with active := false }) := by
  cases i <;> cases hexec
  case fltRaise => exact .inl (sameButMask_of_eq (by rw [fltRaise_of_active _ _ h]))
  case fltReset => exact .inr ⟨.inl rfl, fltReset_flt s⟩
  case fltSetmask m => exact .inl ⟨m, rfl⟩
  case motSetspeed c v => exact .inl (sameButMask_of_eq (motSetspeed_flt s c.val v))
  case motSetcurrent c raw => exact .inl (sameButMask_of_eq (motSetcurrent_flt_of_active h c.val raw))
  case pidTick c now => exact .inl (sameButMask_of_eq (pidTick_flt_of_active h c.val now))
  case encPoll c now => exact .inl (sameButMask_of_eq (encPoll_flt s c.val now))
  case adcPoll done raw => exact .inl (sameButMask_of_eq (adcPoll_flt_of_active h done raw))
  case regRead id => exact .inl (sameButMask_of_eq (regRead_flt s id.toNat))
  case regWrite id raw =>
    rcases regWrite_cases id.toNat raw s with ⟨status, hwrite⟩ | ⟨d, hd, hw, hwrite⟩
    · exact .inl (sameButMask_of_eq (by rw [hwrite, respond_flt]))
    · rw [hwrite, respond_flt]
      exact (regSet_flt_cases d id.toNat _ s).imp_right fun ⟨hb, hflt⟩ => ⟨.inr ⟨id, raw, d, rfl, hd, hw, hb⟩, hflt⟩
  all_goals exact .inl (sameButMask_of_eq rfl)

end

/-! ### Fault return, 42_fault R164, 41_motor R142 -/

/-- Settles O18, from what fault return does and what a command can do to a latched fault. -/
theorem fltResetIsTheOnlyReturn : Obligations.FltResetIsTheOnlyReturn := by
  unfold Obligations.FltResetIsTheOnlyReturn
  refine ⟨fun s hlen => ?_, fun i s t hexec hbefore hafter => ?_⟩
  · obtain ⟨hframe, hlength, hcleared, -⟩ := fltReset_spec s
    refine ⟨headerOf_eq .fltReset 0, _, exec_fltReset s, fltReset_flt s, hlength,
      fun c hc => hcleared c hc (hlen ▸ hc), ?_⟩
    rw [fltReset_flt]
    exact hframe
  · rcases exec_flt_cases_of_active hbefore hexec with ⟨m, hflt⟩ | ⟨hreset, -⟩
    · -- the fault stays latched
      rw [hflt] at hafter
      exact absurd hbefore (by simp [show s.flt.active = false from hafter])
    · exact hreset

/-! ### First fault wins, 42_fault R170 -/

/-- Settles O21: an unmasked raise latches, a later one is a no-op, and no command rewrites a latched fault. -/
theorem firstFaultWins : Obligations.FirstFaultWins := by
  unfold Obligations.FirstFaultWins
  intro s
  refine ⟨fun ty dev mot hactive hmask => ⟨_, exec_fltRaise s ty dev mot, ?_⟩,
    fun hactive => ⟨fun ty dev mot => ?_, fun i t hexec _ => ?_⟩⟩
  · rcases fltRaise_flt ⟨dev, mot⟩ ty s with ⟨-, hnoop⟩ | ⟨-, -, hflt⟩
    · exact absurd hnoop (raise_not_noop hactive hmask)
    · rw [hflt]
      exact ⟨rfl, rfl, rfl⟩
  · rw [exec_fltRaise, fltRaise_of_active _ ty hactive]
  · rcases exec_flt_cases_of_active hactive hexec with ⟨m, hflt⟩ | ⟨-, hflt⟩ <;> simp [hflt]

/-! ### The mask, 42_fault R160 and R165 -/

theorem FaultType.code_toNat_ne_zero (ty : FaultType) : ty.code.toNat ≠ 0 := by cases ty <;> decide

/-- No type has code 0, so bit 0 of a mask disables none. -/
theorem getLsbD_code_or_one (m : Byte) (ty : FaultType) :
    (m ||| 1).getLsbD ty.code.toNat = m.getLsbD ty.code.toNat := by
  simp [BitVec.getLsbD_one, FaultType.code_toNat_ne_zero ty]

/-- Settles O19: the mask alone is written. -/
theorem fltSetmaskWritesTheMask : Obligations.FltSetmaskWritesTheMask := by
  unfold Obligations.FltSetmaskWritesTheMask
  intro s m
  exact ⟨headerOf_eq .fltSetmask 0, getLsbD_code_or_one m, _, exec_fltSetmask s m, rfl, rfl, rfl⟩

/-! ### The getters, 42_fault R166 to R168 -/

/-- The status byte's bit 0 is the active flag; its other bits are 0. -/
theorem statusByte_getLsbD (f : FaultReg) (k : Nat) : f.statusByte.getLsbD k = (f.active && decide (k = 0)) := by
  cases h : f.active <;> simp [FaultReg.statusByte, h, BitVec.getLsbD_one]

theorem regRead_of_faultStatus {s : State} {id : Nat} {d : RegDesc} (hd : s.cfg.regmap[id]? = some d)
    (hb : d.binding = .faultStatus) :
    regRead id s = respond s (.regRead 0 (s.flt.statusByte.setWidth 16)) := by
  rw [regRead_of_mem hd]
  simp only [regGet, hb, BitVec.ofNat_toNat]

/-- Settles O20: each getter records its answer and nothing else. -/
theorem faultGetters : Obligations.FaultGetters := by
  unfold Obligations.FaultGetters
  intro s
  refine ⟨⟨headerOf_eq .fltRdmask 0, headerOf_eq .fltRdstatus 0, headerOf_eq .fltRddata 0⟩, ?_, ?_, ?_⟩
  · exact ⟨_, exec_fltRdmask s, rfl, rfl⟩
  · refine ⟨_, s.flt.statusByte, exec_fltRdstatus s, rfl, ?_, fun k hk => ?_, rfl, fun id d hd hb => ?_⟩
    · rw [statusByte_getLsbD, decide_eq_true rfl, Bool.and_true]
    · rw [statusByte_getLsbD, decide_eq_false hk.ne', Bool.and_false]
    · refine ⟨_, exec_regRead s id, ?_⟩
      rw [regRead_of_faultStatus hd hb, respond_responses]
  · exact ⟨_, s.flt.dataWord, exec_fltRddata s, rfl, dataWord_toNat s.flt, rfl⟩

end Sys2Proof.Machine
end

