-- ==== Sys2Proof/Proofs/PidTick.lean ====
section
/-! The tick of the PID controller (43_pid section 2). -/

namespace Sys2Proof.Machine

open Sys2Proof

/-- Writing one PID bank: the bank, the other banks and everything else. -/
theorem setPid_spec {s : State} {c : Nat} (b : PidBank) (h : c < s.pid.length) :
    pidAt (setPid s c b) c = b ∧ (∀ d, d ≠ c → pidAt (setPid s c b) d = pidAt s d) ∧
      (setPid s c b).pid.length = s.pid.length ∧ setPid s c b = { s with pid := (setPid s c b).pid } :=
  ⟨pidAt_setPid_same s c b h, fun d hd => pidAt_setPid_other s c d b hd, List.length_set, rfl⟩

/-! ### The estimator, 43_pid R185 to R188 -/

/-- The output of a correcting tick on the measured value `a`, not rounded (43_pid R185 to R188). -/
def tickOutput (p : PidBank) (a : Number) : Number :=
  pidOutput p (pidError p a) (pidIntegral p (pidError p a)) (pidDerivative p a)

/-- The bank the estimator leaves. -/
def estimatedBank (s : State) (c now : Nat) : PidBank :=
  let a := measured c s
  let p := pidAt s c
  { p with
    actual := stored s a
    error := stored s (pidError p a)
    integral := stored s (pidIntegral p (pidError p a))
    derivative := stored s (pidDerivative p a)
    output := stored s (tickOutput p a)
    prevActual := stored s a
    prevTime := now }

theorem pidEstimate_eq (s : State) (c now : Nat) : pidEstimate c now s = setPid s c (estimatedBank s c now) := rfl

/-- The state of a correcting tick before the fault gate: the estimator has run, and STALL_CHECK on the change of the
measured value. -/
def checkedState (s : State) (c now : Nat) : State :=
  stallCheck c |measured c s - (pidAt s c).prevActual| (pidEstimate c now s)

@[simp] theorem checkedState_cfg (s : State) (c now : Nat) : (checkedState s c now).cfg = s.cfg := by
  simp [checkedState]

@[simp] theorem checkedState_pid (s : State) (c now : Nat) :
    (checkedState s c now).pid = s.pid.set c (estimatedBank s c now) := by
  simp [checkedState, pidEstimate_eq]

/-! ### The two kinds of tick, 43_pid R182 and R184 -/

section
variable {s : State} {c now : Nat}

theorem pidTick_of_lt (h : now < (pidAt s c).prevTime) : pidTick c now s = pidBackwards c now s := if_pos h

theorem pidTick_of_le (h : (pidAt s c).prevTime ≤ now) :
    pidTick c now s = pidDrive c (measured c s) (tickOutput (pidAt s c) (measured c s)) (checkedState s c now) :=
  if_neg h.not_gt

end

/-! ### The fault gate, 43_pid R189 -/

section
variable {s : State} (c : Nat) (a out : Number)

theorem pidDrive_of_active (h : s.flt.active = true) :
    pidDrive c a out s = setPid s c { pidAt s c with required := stored s a } := if_pos h

theorem pidDrive_of_inactive (h : s.flt.active = false) : pidDrive c a out s = motSetspeed c out s :=
  if_neg (by simp [h])

end

/-- Settles O32: a tick whose time went backwards writes one PID bank. -/
theorem pidTickBackwardsTimeIsBookkeeping : Obligations.PidTickBackwardsTimeIsBookkeeping := by
  unfold Obligations.PidTickBackwardsTimeIsBookkeeping
  intro s c now hc hback
  refine ⟨_, exec_pidTick s c now, ?_⟩
  rw [pidTick_of_lt hback]
  exact setPid_spec _ hc

/-- Settles O33: the bookkeeping, or the estimator's bank, then STALL_CHECK, then the fault gate. -/
theorem pidTickRunsTheController : Obligations.PidTickRunsTheController := by
  unfold Obligations.PidTickRunsTheController
  intro s c now hc
  refine ⟨headerOf_eq .pidTick c, _, setPid s c.val (estimatedBank s c.val now), checkedState s c.val now,
    exec_pidTick s c now, pidTick_of_lt, fun hnow => ?_⟩
  obtain ⟨hbank, hother, hlength, hframe⟩ := setPid_spec (estimatedBank s c.val now) hc
  rw [pidTick_of_le hnow]
  refine ⟨hbank, hother, hlength, hframe, rfl, fun hactive => ?_, fun hinactive => ?_⟩
  · rw [pidDrive_of_active _ _ _ hactive, stored_congr (checkedState_cfg s c.val now)]
    rfl
  · exact congrArg _ (pidDrive_of_inactive _ _ _ hinactive).symm

end Sys2Proof.Machine
end

