-- ==== Sys2Proof/Proofs/AntiWindup.lean ====
section
/-! The anti-windup bound after reset and over one step (43_pid R191). -/

namespace Sys2Proof.Machine

open Sys2Proof

/-! ### The caps that PID_SETPARAMS can be given -/

/-- PID_SETPARAMS with a negative cap is refused (30_encoding R87). -/
theorem iCap_nonneg_of_build {o : Op} {c c' : Chan} {vs : List Number} {p i d cap dec dz : Number}
    (h : o.build c vs = .ok (.pidSetparams c' p i d cap dec dz)) : 0 ≤ cap := by
  unfold Op.build at h
  split at h
  case h_1 => split at h <;> cases h
  case h_12 =>
    split at h
    · cases h
    · rename_i hparam
      cases h
      exact not_lt.1 fun hneg => hparam (.inl hneg)
  all_goals cases h

theorem iCap_nonneg_of_decode {cfg : Config} {cmd : Command} {c : Chan} {p i d cap dec dz : Number}
    (h : decode cfg cmd = .ok (.pidSetparams c p i d cap dec dz)) : 0 ≤ cap := by
  obtain ⟨o, -, -, -, -, -, hbuild⟩ := decode_ok h
  exact iCap_nonneg_of_build hbuild

theorem unmapRaw_nonneg {d : RegDesc} (hlt : d.min < d.max) (hmin : 0 ≤ d.min) (raw : Nat) : 0 ≤ unmapRaw d raw := by
  have hwidth : 0 < d.max - d.min := sub_pos.2 hlt
  unfold unmapRaw
  positivity

/-- A write of one parameter register leaves the cap, or gives it a value of a domain that does not reach below 0
(40_regport R110, R121). -/
theorem iCap_nonneg_of_withParam {nch : Nat} {d : RegDesc} (hd : d.WellFormed nch) {c : Nat} {k : PidParamName}
    (hb : d.binding = .pidParam c k) {q : PidParams} (hq : 0 ≤ q.iCap) (raw : Nat) :
    0 ≤ (withParam q k (unmapRaw d raw)).iCap := by
  obtain ⟨-, hlt, -, -, hmin, -⟩ := hd
  cases k with
  | iCap => exact unmapRaw_nonneg hlt (hmin (by rw [hb]; rfl)) raw
  | pGain | iGain | dGain | decay | deadZone => exact hq

/-! ### What each operation does to the bound -/

/-- A bank that holds the bound has a cap that is not negative. -/
theorem iCap_nonneg_of_bounded {p : PidBank} (h : |p.integral| ≤ p.params.iCap) : 0 ≤ p.params.iCap :=
  (abs_nonneg _).trans h

theorem antiWindup_of_pid_eq {s t : State} (h : s.AntiWindup) (hcfg : t.cfg = s.cfg) (hpid : t.pid = s.pid) :
    t.AntiWindup := fun c hc => by
  rw [pidAt, hpid]
  exact h c (hcfg ▸ hc)

/-- A bank within its cap may be written. -/
theorem antiWindup_setPid {s : State} (h : s.AntiWindup) {c : Nat} {p : PidBank}
    (hp : c < s.cfg.nch → |p.integral| ≤ p.params.iCap) : (setPid s c p).AntiWindup := fun d hd => by
  rcases pidAt_setPid_cases s c d p with ⟨hwritten, rfl⟩ | hkept
  · rw [hwritten]
    exact hp hd
  · rw [hkept]
    exact h d hd

section
variable {s : State} (hfmt : s.cfg.fmt = .identity) (h : s.AntiWindup)
include h

theorem antiWindup_pidDrive (c : Nat) (a out : Number) : (pidDrive c a out s).AntiWindup := by
  cases hactive : s.flt.active with
  | true =>
    rw [pidDrive_of_active c a out hactive]
    exact antiWindup_setPid h (h c)
  | false =>
    rw [pidDrive_of_inactive c a out hactive]
    exact antiWindup_of_pid_eq h (motSetspeed_cfg s c out) (motSetspeed_pid s c out)

include hfmt

/-- The integral is clamped to the new cap (43_pid R181). -/
theorem antiWindup_pidSetparams (c : Nat) {q : PidParams} (hq : c < s.cfg.nch → 0 ≤ q.iCap) :
    (pidSetparams c q s).AntiWindup := by
  refine antiWindup_setPid h fun hc => ?_
  simp only [storedParams, stored_of_identity s _ hfmt]
  exact abs_clamp_le (hq hc)

/-- The integral is clamped to the bank's cap (43_pid R186). -/
theorem antiWindup_checkedState (c now : Nat) : (checkedState s c now).AntiWindup := by
  have hestimate : (setPid s c (estimatedBank s c now)).AntiWindup := antiWindup_setPid h fun hc => by
    simp only [estimatedBank, stored_of_identity s _ hfmt]
    exact abs_clamp_le (iCap_nonneg_of_bounded (h c hc))
  exact antiWindup_of_pid_eq hestimate (checkedState_cfg s c now) (checkedState_pid s c now)

theorem antiWindup_pidTick (c now : Nat) : (pidTick c now s).AntiWindup := by
  rcases Nat.lt_or_ge now (pidAt s c).prevTime with hnow | hnow
  · rw [pidTick_of_lt hnow]
    exact antiWindup_setPid h (h c)
  · rw [pidTick_of_le hnow]
    exact antiWindup_pidDrive (antiWindup_checkedState hfmt h c now) c _ _

theorem antiWindup_regSet {d : RegDesc} (hd : d.WellFormed s.cfg.nch) (id raw : Nat) :
    (regSet d id raw s).AntiWindup := by
  unfold regSet
  split
  case h_1 => exact antiWindup_of_pid_eq h (setMaskRegister_cfg s raw) (setMaskRegister_pid s raw)
  case h_2 => exact antiWindup_of_pid_eq h (fltReset_cfg s) (fltReset_pid s)
  case h_3 c _ => exact antiWindup_setPid h (h c)
  case h_4 c k hb =>
    exact antiWindup_pidSetparams hfmt h c fun hc =>
      iCap_nonneg_of_withParam hd hb (iCap_nonneg_of_bounded (h c hc)) raw
  all_goals exact h

theorem antiWindup_regWrite (hcfg : s.cfg.WellFormed) (id : Nat) (raw : Word16) : (regWrite id raw s).AntiWindup := by
  rcases regWrite_cases id raw s with ⟨status, hwrite⟩ | ⟨d, hd, -, hwrite⟩
  · rw [hwrite]
    exact h
  · obtain ⟨-, -, -, -, -, -, -, -, ⟨-, hregs⟩, -⟩ := hcfg
    rw [hwrite]
    exact antiWindup_regSet hfmt h (hregs d (List.mem_of_getElem? hd)) id _

end

/-! ### Reset and one step -/

theorem chanCfg_mem {cfg : Config} {c : Nat} (hc : c < cfg.nch) : chanCfg cfg c ∈ cfg.chan := by
  have hlength : c < cfg.chan.length := hc
  simp [chanCfg, List.getD_eq_getElem?_getD, hlength]

/-- Each bank starts at 0, with the parameters of its channel (70_reset R280). -/
theorem pidAt_resetOf {cfg : Config} {c : Nat} (hc : c < cfg.nch) :
    pidAt (State.resetOf cfg) c = PidBank.reset (chanCfg cfg c).pidInit := by
  have hlength : c < cfg.chan.length := hc
  simp [pidAt, State.resetOf, chanCfg, List.getD_eq_getElem?_getD, hlength]

theorem antiWindup_resetOf {cfg : Config} (hcfg : cfg.WellFormed) : (State.resetOf cfg).AntiWindup := by
  intro c (hc : c < cfg.nch)
  obtain ⟨-, -, -, -, -, -, hchan, -⟩ := hcfg
  obtain ⟨-, -, -, -, -, -, -, ⟨hcap, -⟩, -⟩ := hchan _ (chanCfg_mem hc)
  rw [pidAt_resetOf hc]
  simpa [PidBank.reset] using hcap

/-- A command that decodes keeps the bound: it writes no integral and no cap, or clamps the one to the other. -/
theorem exec_antiWindup {s t : State} {cmd : Command} {i : Instr} (hcfg : s.cfg.WellFormed)
    (hfmt : s.cfg.fmt = .identity) (h : s.AntiWindup) (hdecode : decode s.cfg cmd = .ok i)
    (hexec : exec i s = .next t) : t.AntiWindup := by
  cases i <;> cases hexec
  case pidSetreq c v => exact antiWindup_setPid h (h c)
  case pidSetparams c p i d cap dec dz =>
    exact antiWindup_pidSetparams hfmt h c fun _ => iCap_nonneg_of_decode hdecode
  case pidTick c now => exact antiWindup_pidTick hfmt h c now
  case regWrite id raw => exact antiWindup_regWrite hfmt h hcfg id.toNat raw
  all_goals exact antiWindup_of_pid_eq h (by simp) (by simp)

/-- Settles O36, from the reset banks and what every command does to the integral and its cap. -/
theorem stepKeepsAntiWindup : Obligations.StepKeepsAntiWindup := by
  unfold Obligations.StepKeepsAntiWindup
  refine ⟨fun cfg => antiWindup_resetOf, fun s t hcfg hfmt h hstep => ?_⟩
  rcases step_cases hstep with ⟨-, rfl⟩ | ⟨cmd, rest, i, -, hdecode, hexec⟩ | ⟨cmd, rest, r, -, -, rfl⟩
  · exact h
  · exact exec_antiWindup (s := { s with pending := rest }) hcfg hfmt h hdecode hexec
  · exact h

end Sys2Proof.Machine
end

