-- ==== Sys2Proof/Proofs/Potentiometer.lean ====
section
/-! The potentiometer reading as a position (44_variants R200). -/

namespace Sys2Proof.Machine

open Sys2Proof

/-- Writing one position bank: the bank, the other banks and everything else. -/
theorem setPos_spec {s : State} {c : Nat} (b : PosBank) (h : c < s.pos.length) :
    posAt (setPos s c b) c = b ∧ (∀ d, d ≠ c → posAt (setPos s c b) d = posAt s d) ∧
      (setPos s c b).pos.length = s.pos.length ∧ setPos s c b = { s with pos := (setPos s c b).pos } :=
  ⟨posAt_setPos_same s c b h, fun d hd => posAt_setPos_other s c d b hd, List.length_set, rfl⟩

/-- The position POS_SAMPLE leaves is the remapped reading, through FMT. -/
theorem posAt_posSample_same {s : State} {c : Nat} (raw : Nat) (h : c < s.pos.length) :
    posAt (posSample c raw s) c = { actual := stored s (potRemap (chanCfg s.cfg c) raw) } :=
  posAt_setPos_same s c _ h

/-- Settles O37: one position bank is written, with the remapped reading. -/
theorem posSampleRemaps : Obligations.PosSampleRemaps := by
  unfold Obligations.PosSampleRemaps
  intro s c raw hc
  have hactual := congrArg PosBank.actual (posAt_posSample_same raw hc)
  obtain ⟨-, hframe⟩ := setPos_spec _ hc
  exact ⟨headerOf_eq .posSample c, _, exec_posSample s c raw, hactual, hframe⟩

end Sys2Proof.Machine
end

