-- ==== Sys2Proof/Proofs/Encoder.lean ====
section
/-! The encoder front-end: the edge, the measurement window and the odometry (45_encoder). -/

namespace Sys2Proof.Machine

open Sys2Proof

/-! ### One bank written -/

/-- `t` is `s` but for the encoder bank of channel `c`. -/
def OnlyEncBank (c : Nat) (s t : State) : Prop :=
  (∀ d, d ≠ c → encAt t d = encAt s d) ∧ t.enc.length = s.enc.length ∧ t = { s with enc := t.enc }

theorem onlyEncBank_refl (c : Nat) (s : State) : OnlyEncBank c s s := ⟨fun _ _ => rfl, rfl, rfl⟩

theorem onlyEncBank_setEnc (c : Nat) (s : State) (b : EncBank) : OnlyEncBank c s (setEnc s c b) :=
  ⟨fun d hd => encAt_setEnc_other s c d b hd, List.length_set, rfl⟩

/-! ### ENC_EDGE, 45_encoder R210 -/

/-- Settles O39: one encoder bank is written, with its counters one further. -/
theorem encEdgeCounts : Obligations.EncEdgeCounts := by
  unfold Obligations.EncEdgeCounts
  intro s c level hc
  exact ⟨headerOf_eq .encEdge c, _, exec_encEdge s c level, encAt_setEnc_same s c _ hc, onlyEncBank_setEnc c s _⟩

/-! ### ENC_POLL, 45_encoder R211 to R214 -/

/-- The sign rule over the naturals is the rule over the rationals: more than a third of the edges were reversed. -/
theorem windowFreq_eq (e : EncBank) (elapsed : Nat) :
    windowFreq e elapsed =
      if (e.ticks : Number) / 3 < (e.negTicks : Number) then -((e.ticks : Number) * 1000000 / (elapsed : Number))
      else (e.ticks : Number) * 1000000 / (elapsed : Number) := by
  have hthird : 3 * e.negTicks > e.ticks ↔ (e.ticks : Number) / 3 < (e.negTicks : Number) := by
    rw [div_lt_iff₀' (by norm_num)]
    exact_mod_cast Iff.rfl
  simp only [windowFreq, hthird]

section
variable {s : State} {c now : Nat}

theorem encPoll_of_backwards (h : now < (encAt s c).winStart) :
    encPoll c now s = setEnc s c { encAt s c with winStart := now, ticks := 0, negTicks := 0 } := if_pos h

theorem encPoll_within_window (h : (encAt s c).winStart ≤ now)
    (hel : now - (encAt s c).winStart < (chanCfg s.cfg c).encWindowUs) : encPoll c now s = s :=
  (if_neg h.not_gt).trans (if_pos hel)

theorem encPoll_past_window (h : (encAt s c).winStart ≤ now)
    (hel : (chanCfg s.cfg c).encWindowUs ≤ now - (encAt s c).winStart) :
    encPoll c now s =
      setEnc s c { encAt s c with
        freq := stored s (windowFreq (encAt s c) (now - (encAt s c).winStart))
        ticks := 0
        negTicks := 0
        winStart := now } :=
  (if_neg h.not_gt).trans (if_neg hel.not_gt)

end

/-- Everything ENC_POLL can do: nothing, or write its own bank and keep the odometry in it. -/
theorem encPoll_cases (c now : Nat) (s : State) :
    encPoll c now s = s ∨
      ∃ b : EncBank, encPoll c now s = setEnc s c b ∧ b.odometry = (encAt s c).odometry := by
  rcases Nat.lt_or_ge now (encAt s c).winStart with hback | hstart
  · exact .inr ⟨_, encPoll_of_backwards hback, rfl⟩
  · rcases Nat.lt_or_ge (now - (encAt s c).winStart) (chanCfg s.cfg c).encWindowUs with hel | hel
    · exact .inl (encPoll_within_window hstart hel)
    · exact .inr ⟨_, encPoll_past_window hstart hel, rfl⟩

theorem onlyEncBank_encPoll (c now : Nat) (s : State) : OnlyEncBank c s (encPoll c now s) := by
  rcases encPoll_cases c now s with hsame | ⟨b, hset, -⟩
  · rw [hsame]
    exact onlyEncBank_refl c s
  · rw [hset]
    exact onlyEncBank_setEnc c s b

/-- Settles O40, from the three cases of a poll and the sign rule of a completed window. -/
theorem encPollMeasuresTheWindow : Obligations.EncPollMeasuresTheWindow := by
  unfold Obligations.EncPollMeasuresTheWindow
  intro s c now hc
  refine ⟨headerOf_eq .encPoll c, _, exec_encPoll s c now,
    ⟨fun hback => ?_, encPoll_within_window, fun hstart hel => ?_⟩, onlyEncBank_encPoll c now s⟩
  · rw [encPoll_of_backwards hback]
    exact encAt_setEnc_same s c _ hc
  · rw [encPoll_past_window hstart hel, windowFreq_eq]
    exact encAt_setEnc_same s c _ hc

/-! ### What a command can do to an odometry, 45_encoder R210 and R215 -/

theorem encAt_of_enc_eq {s t : State} (h : t.enc = s.enc) (d : Nat) : encAt t d = encAt s d := by rw [encAt, h, encAt]

/-- An odometry after one bank is written is the old one or the written one. -/
theorem odometry_setEnc_cases (s : State) (c d : Nat) (b : EncBank) :
    (encAt (setEnc s c b) d).odometry = (encAt s d).odometry ∨
    (c = d ∧ (encAt (setEnc s c b) d).odometry = b.odometry) := by
  rcases encAt_setEnc_cases s c d b with ⟨hb, hdc⟩ | hkept
  · exact .inr ⟨hdc.symm, by rw [hb]⟩
  · exact .inl (by rw [hkept])

/-- An edge leaves an odometry alone or counts the one of its own channel. -/
theorem encEdge_odometry_cases (c : Nat) (level : Bool) (s : State) (d : Nat) :
    (encAt (encEdge c level s) d).odometry = (encAt s d).odometry ∨
    (c = d ∧ (encAt (encEdge c level s) d).odometry = ((encAt s d).odometry + 1) % 2 ^ s.cfg.odoW) := by
  rcases odometry_setEnc_cases s c d _ with hkept | ⟨rfl, hcount⟩
  · exact .inl hkept
  · exact .inr ⟨rfl, hcount⟩

theorem encPoll_odometry (c now : Nat) (s : State) (d : Nat) :
    (encAt (encPoll c now s) d).odometry = (encAt s d).odometry := by
  rcases encPoll_cases c now s with hsame | ⟨b, hset, hodo⟩
  · rw [hsame]
  · rw [hset]
    rcases odometry_setEnc_cases s c d b with hkept | ⟨rfl, hwritten⟩
    · exact hkept
    · exact hwritten.trans hodo

/-- ENC_ODORESET leaves an odometry alone or clears the one of its own channel. -/
theorem encOdoreset_odometry_cases (c : Nat) (s : State) (d : Nat) :
    (encAt (encOdoreset c s) d).odometry = (encAt s d).odometry ∨
    (c = d ∧ (encAt (encOdoreset c s) d).odometry = 0) :=
  odometry_setEnc_cases s c d _

/-- A setter reaches an odometry through the register bound to it only. -/
theorem regSet_odometry_cases (r : RegDesc) (id raw : Nat) (s : State) (d : Nat) :
    (encAt (regSet r id raw s) d).odometry = (encAt s d).odometry ∨
    (r.binding = .encOdometry d ∧ (encAt (regSet r id raw s) d).odometry = 0) := by
  unfold regSet
  split
  case h_1 => exact .inl (by rw [encAt_of_enc_eq (setMaskRegister_enc s raw)])
  case h_2 => exact .inl (by rw [encAt_of_enc_eq (fltReset_enc s)])
  case h_6 c hb =>
    exact (encOdoreset_odometry_cases c s d).imp_right fun ⟨hcd, hzero⟩ => ⟨hcd ▸ hb, hzero⟩
  all_goals exact .inl rfl

/-- The commands that perform ENC_ODORESET of a channel: itself, and a write of a writable register bound to the
channel's odometry (40_regport R118, R121). -/
def PerformsOdoreset (cfg : Config) (i : Instr) (d : Nat) : Prop :=
  (∃ c, i = .encOdoreset c ∧ c.val = d) ∨
    ∃ id raw r, i = .regWrite id raw ∧ cfg.regmap[id.toNat]? = some r ∧ r.writable = true ∧ r.binding = .encOdometry d

/-- Everything a command can do to an odometry: leave it, count an edge of its channel, or clear it. -/
theorem exec_odometry_cases {i : Instr} {s t : State} (h : exec i s = .next t) (d : Nat) :
    (encAt t d).odometry = (encAt s d).odometry ∨
    (∃ c level, i = .encEdge c level ∧ c.val = d ∧ (encAt t d).odometry = ((encAt s d).odometry + 1) % 2 ^ s.cfg.odoW) ∨
    ((encAt t d).odometry = 0 ∧ PerformsOdoreset s.cfg i d) := by
  cases i <;> cases h
  case encEdge c level =>
    exact (encEdge_odometry_cases c.val level s d).imp_right fun ⟨hcd, hodo⟩ => .inl ⟨c, level, rfl, hcd, hodo⟩
  case encPoll c now => exact .inl (encPoll_odometry c.val now s d)
  case encOdoreset c =>
    exact (encOdoreset_odometry_cases c.val s d).imp_right fun ⟨hcd, hzero⟩ => .inr ⟨hzero, .inl ⟨c, rfl, hcd⟩⟩
  case regWrite id raw =>
    rcases regWrite_cases id.toNat raw s with ⟨status, hwrite⟩ | ⟨r, hr, hw, hwrite⟩
    · exact .inl (by rw [hwrite, encAt_respond])
    · rw [hwrite, encAt_respond]
      exact (regSet_odometry_cases r id.toNat _ s d).imp_right fun ⟨hb, hzero⟩ =>
        .inr ⟨hzero, .inr ⟨id, raw, r, rfl, hr, hw, hb⟩⟩
  all_goals exact .inl (congrArg EncBank.odometry (encAt_of_enc_eq (by simp) d))

/-- Settles O41, from what ENC_ODORESET writes and what a command can do to an odometry. -/
theorem encOdoresetIsTheOnlyClear : Obligations.EncOdoresetIsTheOnlyClear := by
  unfold Obligations.EncOdoresetIsTheOnlyClear
  refine ⟨fun s c hc => ?_, fun i s t d hexec hchanged => ?_⟩
  · exact ⟨headerOf_eq .encOdoreset c, _, exec_encOdoreset s c, encAt_setEnc_same s c _ hc, onlyEncBank_setEnc c s _⟩
  · exact (exec_odometry_cases hexec d).resolve_left hchanged

end Sys2Proof.Machine
end

