-- ==== Sys2Proof/Proofs/AdcScheduler.lean ====
section
/-! The ADC sample scheduler: what one poll does, phase by phase, and the dispatch to the listener (46_adc). -/

namespace Sys2Proof.Machine

open Sys2Proof

/-! ### The registration being serviced, 46_adc R232 and R234 -/

theorem adcPoll_of_empty_table {s : State} (done : Bool) (raw : Nat) (h : s.cfg.adcTable = []) :
    adcPoll done raw s = s := by simp [adcPoll, h]

theorem adcPoll_of_registration {s : State} {e : AdcReg} (done : Bool) (raw : Nat)
    (h : s.cfg.adcTable[s.adc.cur]? = some e) : adcPoll done raw s = adcService e done raw s := by simp [adcPoll, h]

/-- The registration after `cur` in table order, the first one after the last. -/
def nextRegistration (s : State) : Nat := (s.adc.cur + 1) % s.cfg.adcTable.length

theorem nextRegistration_eq {s : State} {e : AdcReg} (h : s.cfg.adcTable[s.adc.cur]? = some e) :
    nextRegistration s = if s.adc.cur + 1 = s.cfg.adcTable.length then 0 else s.adc.cur + 1 := by
  obtain ⟨hlt, -⟩ := List.getElem?_eq_some_iff.1 h
  rw [nextRegistration]
  split
  next hlast => rw [hlast, Nat.mod_self]
  next hinner => exact Nat.mod_eq_of_lt (by omega)

/-! ### One poll, phase by phase, 46_adc R232 -/

section
variable {s : State} (e : AdcReg) (done : Bool) (raw : Nat)

theorem adcService_starts_conversion (hphase : s.adc.phase = .countdown) (hcnt : s.adc.cnt = 0) :
    adcService e done raw s =
      emit { s with adc := { phase := .waiting, cur := s.adc.cur, cnt := 0 } } (.adcStart e.adcChannel) := by
  simp only [adcService, hphase, hcnt, if_true]

theorem adcService_counts_down (hphase : s.adc.phase = .countdown) (hcnt : 0 < s.adc.cnt) :
    adcService e done raw s = { s with adc := { phase := .countdown, cur := s.adc.cur, cnt := s.adc.cnt - 1 } } := by
  simp only [adcService, hphase, hcnt.ne', if_false]

theorem adcService_waits (hphase : s.adc.phase = .waiting) : adcService e false raw s = s := by
  simp [adcService, hphase]

theorem adcService_dispatches (hphase : s.adc.phase = .waiting) :
    adcService e true raw s =
      { adcDispatch e raw s with adc := ⟨.countdown, nextRegistration s, s.cfg.adcDelay⟩ } := by
  simp [adcService, hphase, nextRegistration]

end

/-! ### The dispatch, 46_adc R233 -/

theorem exec_motSetcurrent_of_currentTag {e : AdcReg} {c : Chan} (hc : c.val = e.listener) (htag : e.typeTag = .current)
    (raw : Nat) (s : State) : exec (.motSetcurrent c raw) s = .next (adcDispatch e raw s) := by
  simp only [exec_motSetcurrent, adcDispatch, htag, hc]

theorem exec_posSample_of_positionTag {e : AdcReg} {c : Chan} (hc : c.val = e.listener) (htag : e.typeTag = .position)
    (raw : Nat) (s : State) : exec (.posSample c raw) s = .next (adcDispatch e raw s) := by
  simp only [exec_posSample, adcDispatch, htag, hc]

/-- Settles O42, from what one poll does in each phase, the order of the table and the dispatch by tag. -/
theorem adcPollServicesTheTable : Obligations.AdcPollServicesTheTable := by
  unfold Obligations.AdcPollServicesTheTable
  intro s done raw
  refine ⟨headerOf_eq .adcPoll 0, _, exec_adcPoll s done raw, adcPoll_of_empty_table done raw, fun e he => ?_⟩
  rw [adcPoll_of_registration done raw he]
  refine ⟨adcService_starts_conversion e done raw, adcService_counts_down e done raw, ?_, ?_⟩
  · rintro hwaiting rfl
    exact adcService_waits e raw hwaiting
  · rintro hwaiting rfl
    rw [adcService_dispatches e raw hwaiting, nextRegistration_eq he]
    exact ⟨rfl, fun c hc => ⟨adcDispatch e raw s, rfl,
      fun htag => exec_motSetcurrent_of_currentTag hc htag raw s,
      fun htag => exec_posSample_of_positionTag hc htag raw s⟩⟩

end Sys2Proof.Machine
end

