-- ==== Sys2Proof/Proofs/ResetValues.lean ====
section
/-! The state right after reset: the table of R280, bank by bank (70_reset). -/

namespace Sys2Proof.Machine

open Sys2Proof

/-! ### The banks and the storage after reset, 70_reset R280 -/

theorem posAt_resetOf (cfg : Config) (c : Nat) : posAt (State.resetOf cfg) c = PosBank.reset := by
  simp [posAt, State.resetOf, List.getD_eq_getElem?_getD]

theorem encAt_resetOf (cfg : Config) (c : Nat) : encAt (State.resetOf cfg) c = EncBank.reset := by
  simp [encAt, State.resetOf, List.getD_eq_getElem?_getD]

/-- The storage of the plain registers lists nothing, so each reads as unlisted. -/
theorem plain_read_resetOf (cfg : Config) (id : Nat) : (State.resetOf cfg).plain.read id = 0 := Memory.read_nil id

/-- Settles O15: each channel's bank is its bank's reset value, and the rest of the table is in the fields of the state. -/
theorem resetValues : Obligations.ResetValues := by
  unfold Obligations.ResetValues
  intro cfg
  refine ⟨⟨rfl, rfl, rfl, rfl⟩, fun c _ => ?_, fun c hc => ?_, fun c _ => ?_, fun c _ => ?_, ⟨rfl, rfl, rfl⟩,
    plain_read_resetOf cfg, rfl⟩
  · -- the motor bank
    rw [motAt_resetOf]
    exact ⟨rfl, rfl, rfl, rfl, rfl, rfl, rfl, rfl, rfl⟩
  · -- the PID bank, with its channel's parameters
    rw [pidAt_resetOf hc]
    exact ⟨rfl, rfl, rfl, rfl, rfl, rfl, rfl, rfl, rfl⟩
  · -- the position bank
    rw [posAt_resetOf]
    rfl
  · -- the encoder bank
    rw [encAt_resetOf]
    exact ⟨rfl, rfl, rfl, rfl, rfl⟩

end Sys2Proof.Machine
end

