-- ==== Sys2Proof/Proofs/RoundTrip.lean ====
section
/-! The encoder and the decoder are inverse to each other, and the header checks (30_encoding). -/

namespace Sys2Proof

/-! ### The operands of a command of the block are admitted, 30_encoding R83 -/

section
variable (cfg : Config)

@[simp] theorem OperandType.admits_u_toNat {bits : Nat} (m : BitVec bits) :
    (OperandType.u bits).admits cfg (m.toNat : Number) = true := by
  simpa [OperandType.admits_natCast (t := .u bits) rfl] using m.isLt

@[simp] theorem OperandType.admits_raw_iff (n : Nat) :
    OperandType.raw.admits cfg (n : Number) = true ↔ n ≤ cfg.adcRawMax := by
  simp [OperandType.admits_natCast (t := .raw) rfl]

@[simp] theorem OperandType.admits_time_iff (n : Nat) :
    OperandType.time.admits cfg (n : Number) = true ↔ n < 2 ^ cfg.timeW := by
  simp [OperandType.admits_natCast (t := .time) rfl]

@[simp] theorem OperandType.admits_num (v : Number) : OperandType.num.admits cfg v = true := rfl

@[simp] theorem OperandType.admits_ftype_code (ty : FaultType) :
    OperandType.ftype.admits cfg (ty.code.toNat : Number) = true := by
  simpa [OperandType.admits_natCast (t := .ftype) rfl] using ty.code.isLt

end

/-! ### Decoding an encoded command, 30_encoding R87 -/

/-- The commands of a block are those whose encoding passes the checks on the channel, the operands and
the parameters. -/
theorem Instr.wellFormed_iff (cfg : Config) (i : Instr) :
    i.WellFormed cfg ↔
      i.op.AdmitsChan cfg i.chan ∧ operandsMatch cfg i.op.operandTypes i.operands = true ∧
        ¬ i.op.BadParam i.operands := by
  cases i <;>
    simp [Instr.WellFormed, Instr.wellFormed, Instr.op, Instr.chan, Instr.operands, Op.AdmitsChan, Op.format,
      Op.operandTypes, OperandType.admits_bitNum, Op.BadParam]

/-- A row builds a command again from its channel and its operands. -/
theorem Op.build_operands {i : Instr} (h : ¬ i.op.BadParam i.operands) : i.op.build i.chan i.operands = .ok i := by
  cases i with
  | pidSetparams c p i d cap dec dz =>
    have hparam : ¬ (cap < 0 ∨ dz < 0) := by simpa [Op.BadParam, Instr.op, Instr.operands] using h
    simp [Op.build, Instr.op, Instr.operands, Instr.chan, hparam]
  | _ => simp [Op.build, Instr.op, Instr.operands, Instr.chan]

/-- Settles O9: the encoding of a command passes the decoder's checks, and its row builds the command. -/
theorem decodeOfEncode : Obligations.DecodeOfEncode := by
  unfold Obligations.DecodeOfEncode
  intro cfg i h
  obtain ⟨hchan, hmatch, hparam⟩ := (Instr.wellFormed_iff cfg i).1 h
  rw [encode, decode_headerOf_of_admitsChan hchan, if_neg (by simp [hmatch]), Op.build_operands hparam]

/-! ### Encoding a decoded command -/

section
variable {cfg : Config} {v : Number}

/-- An admitted operand is the number its field holds: nothing is truncated. -/
theorem toNat_ofNat_natOf {bits : Nat} (h : (OperandType.u bits).admits cfg v = true) :
    ((BitVec.ofNat bits (natOf v)).toNat : Number) = v := by
  obtain ⟨hv, hlt⟩ := OperandType.natOf_of_admits rfl h
  rw [BitVec.toNat_ofNat, Nat.mod_eq_of_lt hlt, hv]

theorem bitNum_natOf (h : OperandType.bit.admits cfg v = true) : bitNum (natOf v == 1) = v := by
  rcases (OperandType.admits_iff_inRange cfg .bit v).1 h with rfl | rfl <;> rfl

theorem natCast_natOf {t : OperandType} {b : Nat} (hb : t.bound cfg = some b) (h : t.admits cfg v = true) :
    (natOf v : Number) = v := (OperandType.natOf_of_admits hb h).1

theorem code_of_ofCode_natOf {ty : FaultType} (h : OperandType.ftype.admits cfg v = true)
    (hty : FaultType.ofCode (natOf v) = some ty) : (ty.code.toNat : Number) = v := by
  rw [← FaultType.code_of_ofCode hty]
  exact natCast_natOf rfl h

end

/-- What a row builds is a command of that row and that channel. -/
theorem Op.op_chan_of_build {o : Op} {c : Chan} {vs : List Number} {i : Instr} (hc : o.format = .global → c = 0)
    (h : o.build c vs = .ok i) : i.op = o ∧ i.chan = c := by
  unfold Op.build at h
  split at h
  case h_1 =>
    split at h <;> cases h
    exact ⟨rfl, (hc rfl).symm⟩
  case h_12 =>
    split at h <;> cases h
    exact ⟨rfl, rfl⟩
  case h_23 => cases h
  case h_2 | h_3 | h_4 | h_5 | h_6 | h_20 | h_21 | h_22 =>
    cases h
    exact ⟨rfl, (hc rfl).symm⟩
  all_goals
    cases h
    exact ⟨rfl, rfl⟩

theorem operandsMatch_one {cfg : Config} {t : OperandType} {v : Number} :
    operandsMatch cfg [t] [v] = true ↔ t.admits cfg v = true := by simp

theorem operandsMatch_two {cfg : Config} {t u : OperandType} {v w : Number} :
    operandsMatch cfg [t, u] [v, w] = true ↔ t.admits cfg v = true ∧ u.admits cfg w = true := by simp

/-- Its operands are those it was built from: each field holds the whole number presented. -/
theorem Op.operands_of_build {cfg : Config} {o : Op} {c : Chan} {vs : List Number} {i : Instr}
    (hm : operandsMatch cfg o.operandTypes vs = true) (h : o.build c vs = .ok i) : i.operands = vs := by
  unfold Op.build at h
  split at h
  case h_1 =>
    -- FLT_RAISE
    split at h
    case h_2 => cases h
    case h_1 ty hty =>
      cases h
      obtain ⟨htype, hlocal⟩ := Bool.and_eq_true_iff.1 hm
      obtain ⟨hdev, hmot⟩ := operandsMatch_two.1 hlocal
      rw [Instr.operands, code_of_ofCode_natOf htype hty, toNat_ofNat_natOf hdev, toNat_ofNat_natOf hmot]
  case h_12 =>
    -- PID_SETPARAMS
    split at h <;> cases h
    rfl
  case h_23 => cases h
  all_goals cases h
  -- the rows whose operands are read as naturals; the others hold what is presented
  case h_3 | h_21 => rw [Instr.operands, toNat_ofNat_natOf (operandsMatch_one.1 hm)]
  case h_8 | h_15 => rw [Instr.operands, natCast_natOf (t := .raw) rfl (operandsMatch_one.1 hm)]
  case h_9 | h_16 => rw [Instr.operands, bitNum_natOf (operandsMatch_one.1 hm)]
  case h_13 | h_17 => rw [Instr.operands, natCast_natOf (t := .time) rfl (operandsMatch_one.1 hm)]
  case h_20 =>
    obtain ⟨hdone, hraw⟩ := operandsMatch_two.1 hm
    rw [Instr.operands, bitNum_natOf hdone, natCast_natOf (t := .raw) rfl hraw]
  case h_22 =>
    obtain ⟨hid, hraw⟩ := operandsMatch_two.1 hm
    rw [Instr.operands, toNat_ofNat_natOf hid, toNat_ofNat_natOf hraw]
  all_goals rfl

/-- A row that builds a command has not refused its parameters. -/
theorem Op.not_badParam_of_build {cfg : Config} {o : Op} {c : Chan} {vs : List Number} {i : Instr}
    (hm : operandsMatch cfg o.operandTypes vs = true) (h : o.build c vs = .ok i) : ¬ o.BadParam vs := fun hbad => by
  obtain ⟨-, hrefused, -⟩ := Op.build_of_operandsMatch c hm
  rw [hrefused hbad] at h
  cases h

theorem Op.admitsChan_of {cfg : Config} {o : Op} {c : Chan} (hglobal : o.format = .global → c = 0)
    (hchannel : o.format = .channel → c.val < cfg.nch) : o.AdmitsChan cfg c := by
  cases hf : o.format with
  | global => simpa [Op.AdmitsChan, hf] using hglobal hf
  | channel => simpa [Op.AdmitsChan, hf] using hchannel hf

/-- A command that decodes is the encoding of what it decodes to. -/
theorem encode_of_decode {cfg : Config} {cmd : Command} {i : Instr} (h : decode cfg cmd = .ok i) : encode i = cmd := by
  obtain ⟨o, hrsv, hop, hglobal, -, hm, hbuild⟩ := decode_ok h
  obtain ⟨rfl, hchan⟩ := Op.op_chan_of_build hglobal hbuild
  rw [encode, hchan, headerOf_fields cmd.header _ hrsv hop, Op.operands_of_build hm hbuild]

/-- What a command decodes to is a command of the block. -/
theorem wellFormed_of_decode {cfg : Config} {cmd : Command} {i : Instr} (h : decode cfg cmd = .ok i) :
    i.WellFormed cfg := by
  obtain ⟨o, -, -, hglobal, hchannel, hm, hbuild⟩ := decode_ok h
  obtain ⟨rfl, hchan⟩ := Op.op_chan_of_build hglobal hbuild
  rw [Instr.wellFormed_iff, hchan, Op.operands_of_build hm hbuild]
  exact ⟨Op.admitsChan_of hglobal hchannel, hm, Op.not_badParam_of_build hm hbuild⟩

/-- Settles O10: what decodes has passed every check, and its fields are the presented ones. -/
theorem encodeOfDecode : Obligations.EncodeOfDecode := by
  unfold Obligations.EncodeOfDecode
  exact fun cfg cmd i h => ⟨encode_of_decode h, wellFormed_of_decode h⟩

/-! ### The channel field, 30_encoding R87 -/

/-- Settles O6: the two checks on the channel come before those on the operands. -/
theorem channelFieldChecked : Obligations.ChannelFieldChecked := by
  unfold Obligations.ChannelFieldChecked
  intro cfg o c operands
  rw [decode_headerOf]
  exact ⟨fun hf hc => if_pos ⟨hf, hc⟩, fun hf hc => by simp [hf, hc]⟩

/-! ### Header words written out, 30_encoding R85 -/

/-- A header word written out decodes to the command whose header it is. -/
theorem decode_of_header {cfg : Config} {i : Instr} {w : Word16} (hw : headerOf i.op i.chan = w)
    (h : i.WellFormed cfg) : decode cfg ⟨w, i.operands⟩ = .ok i := by
  rw [← hw]
  exact decodeOfEncode cfg i h

/-- Settles O8: each word is the header of its command. -/
theorem headerWordsDecode : Obligations.HeaderWordsDecode := by
  unfold Obligations.HeaderWordsDecode
  intro cfg v hnch
  have hchan (c : Chan) : c.val < cfg.nch := by
    rw [hnch]
    exact c.isLt
  exact ⟨decode_of_header (i := .fltReset) (by decide) rfl,
    decode_of_header (i := .motSetspeed 1 v) (show headerOf .motSetspeed 1 = _ by decide) (decide_eq_true (hchan 1)),
    decode_of_header (i := .pidSetreq 15 v) (show headerOf .pidSetreq 15 = _ by decide) (decide_eq_true (hchan 15)),
    decode_of_header (i := .posSample 12 0) (by decide) (decide_eq_true ⟨hchan 12, Nat.zero_le _⟩),
    decode_of_header (i := .encOdoreset 2) (by decide) (decide_eq_true (hchan 2)),
    decode_of_header (i := .adcPoll true 0) (by decide) (decide_eq_true (Nat.zero_le cfg.adcRawMax)),
    decode_of_header (i := .regRead 7) (by decide) rfl⟩

end Sys2Proof
end

