-- ==== Sys2Proof/Proofs/Stepping.lean ====
section
/-! One step: which command it performs, what it consumes, what it keeps, and the record of a run (00_scope R15 and R16,
30_encoding R87, 70_reset R294 and R295). -/

namespace Sys2Proof.Machine

open Sys2Proof

/-! ### The three forms of a step -/

section
variable {s : State} {cmd : Command} {rest : List Command}

theorem step_of_pending_nil (h : s.pending = []) : step s = .next s := by simp [step, h]

theorem step_of_decode {i : Instr} (h : s.pending = cmd :: rest) (hd : decode s.cfg cmd = .ok i) :
    step s = exec i { s with pending := rest } := by simp [step, h, hd]

theorem step_of_refuse {r : DecodeRefusal} (h : s.pending = cmd :: rest) (hd : decode s.cfg cmd = .refuse r) :
    step s = .next (refuseCommand { s with pending := rest } r) := by simp [step, h, hd]

end

/-- Settles O1: the form of a step whose command decodes. -/
theorem stepRunsTheDecodedCommand : Obligations.StepRunsTheDecodedCommand := by
  unfold Obligations.StepRunsTheDecodedCommand
  exact fun s cmd rest i => step_of_decode

/-- Settles O2: a refusal writes the mark and the record of refusals. -/
theorem refusedCommandChangesNoState : Obligations.RefusedCommandChangesNoState := by
  unfold Obligations.RefusedCommandChangesNoState
  exact fun s cmd rest r h hd => ⟨_, step_of_refuse h hd, rfl, rfl, rfl⟩

/-- Settles O3: the form of a step without a command. -/
theorem noStepWithoutCommand : Obligations.NoStepWithoutCommand := by
  unfold Obligations.NoStepWithoutCommand
  exact fun s h => ⟨s, step_of_pending_nil h, rfl⟩

/-! ### Completion, 60_exceptions R266 and 70_reset R294 -/

/-- Every arm of the dispatch answers a next state. -/
theorem exec_completes (i : Instr) (s : State) : ∃ t, exec i s = .next t := by
  cases i <;> exact ⟨_, rfl⟩

/-- Settles O11: a step performs nothing, a command that completes, or a refusal that goes on. -/
theorem nothingStopsTheBlock : Obligations.NothingStopsTheBlock := by
  unfold Obligations.NothingStopsTheBlock
  refine ⟨exec_completes, fun s => ?_⟩
  cases hp : s.pending with
  | nil => exact ⟨_, step_of_pending_nil hp⟩
  | cons cmd rest =>
    cases hd : decode s.cfg cmd with
    | ok i =>
      rw [step_of_decode hp hd]
      exact exec_completes i _
    | refuse r => exact ⟨_, step_of_refuse hp hd⟩

/-! ### What a step consumes and keeps -/

theorem step_pending {s t : State} (h : step s = .next t) : t.pending = s.pending.tail := by
  rcases step_cases h with ⟨hp, rfl⟩ | ⟨cmd, rest, i, hp, -, hexec⟩ | ⟨cmd, rest, r, hp, -, rfl⟩
  · rw [hp, List.tail_nil]
  · rw [exec_pending hexec, hp, List.tail_cons]
  · rw [refuseCommand_pending, hp, List.tail_cons]

theorem step_cfg {s t : State} (h : step s = .next t) : t.cfg = s.cfg := by
  rcases step_cases h with ⟨-, rfl⟩ | ⟨cmd, rest, i, -, -, hexec⟩ | ⟨cmd, rest, r, -, -, rfl⟩
  · rfl
  · exact exec_cfg (s := { s with pending := rest }) hexec
  · rfl

/-- Settles O4: no command writes the presented ones. -/
theorem stepConsumesTheFirstCommand : Obligations.StepConsumesTheFirstCommand := by
  unfold Obligations.StepConsumesTheFirstCommand
  exact fun s t => step_pending

/-- Settles O12: no command writes the configuration. -/
theorem configurationNeverChanges : Obligations.ConfigurationNeverChanges := by
  unfold Obligations.ConfigurationNeverChanges
  exact fun s t => step_cfg

/-! ### The record of a run, 70_reset R295 -/

section
variable (s : State)

/-- Fault entry appends the events of the stopped channels. -/
theorem fltRaise_extends_events (o : Origin) (ty : FaultType) : s.events <+: (fltRaise o ty s).events := by
  rcases fltRaise_cases o ty s with ⟨hsame, -⟩ | ⟨-, -, hframe, -⟩
  · rw [hsame]
  · rw [hframe]
    exact ⟨_, rfl⟩

/-- MOT_SETSPEED appends one event or none. -/
theorem motSetspeed_extends_events (c : Nat) (v : Number) : s.events <+: (motSetspeed c v s).events := by
  cases hactive : s.flt.active with
  | true => rw [motSetspeed_of_active c v hactive]
  | false =>
    rw [motSetspeed_of_inactive c v hactive]
    dsimp only
    split
    · exact ⟨_, rfl⟩
    · rfl

theorem motSetcurrent_extends_events (c raw : Nat) : s.events <+: (motSetcurrent c raw s).events := by
  rcases Nat.lt_or_ge (chanCfg s.cfg c).ocThreshold raw with hraw | hraw
  · rw [motSetcurrent_of_lt hraw]
    exact fltRaise_extends_events (setMot s c _) _ _
  · rw [motSetcurrent_of_le hraw, setMot_events]

theorem stallCheck_extends_events (c : Nat) (speed : Number) : s.events <+: (stallCheck c speed s).events := by
  rcases stallCheck_cases c speed s with hsame | ⟨n, -, hset⟩ | ⟨-, -, -, hraise⟩
  · rw [hsame]
  · rw [hset, setMot_events]
  · rw [hraise]
    exact fltRaise_extends_events (setMot s c _) _ _

theorem pidDrive_extends_events (c : Nat) (a out : Number) : s.events <+: (pidDrive c a out s).events := by
  cases hactive : s.flt.active with
  | true => rw [pidDrive_of_active c a out hactive, setPid_events]
  | false =>
    rw [pidDrive_of_inactive c a out hactive]
    exact motSetspeed_extends_events s c out

theorem pidTick_extends_events (c now : Nat) : s.events <+: (pidTick c now s).events := by
  rcases Nat.lt_or_ge now (pidAt s c).prevTime with hnow | hnow
  · rw [pidTick_of_lt hnow, pidBackwards_events]
  · rw [pidTick_of_le hnow]
    exact (stallCheck_extends_events (pidEstimate c now s) c _).trans
      (pidDrive_extends_events (checkedState s c now) c _ _)

theorem adcDispatch_extends_events (e : AdcReg) (raw : Nat) : s.events <+: (adcDispatch e raw s).events := by
  unfold adcDispatch
  split
  · exact motSetcurrent_extends_events s e.listener raw
  · rw [posSample_events]

end

/-- Everything ADC_POLL can do (46_adc R232, R234): nothing, start a conversion, count down, or dispatch a completed
one. -/
theorem adcPoll_cases (done : Bool) (raw : Nat) (s : State) :
    adcPoll done raw s = s ∨
    ∃ e, s.cfg.adcTable[s.adc.cur]? = some e ∧
      (adcPoll done raw s =
          emit { s with adc := { phase := .waiting, cur := s.adc.cur, cnt := 0 } } (.adcStart e.adcChannel) ∨
       adcPoll done raw s = { s with adc := { phase := .countdown, cur := s.adc.cur, cnt := s.adc.cnt - 1 } } ∨
       (s.adc.phase = .waiting ∧ done = true ∧
        adcPoll done raw s =
          { adcDispatch e raw s with adc := ⟨.countdown, nextRegistration s, s.cfg.adcDelay⟩ })) := by
  cases he : s.cfg.adcTable[s.adc.cur]? with
  | none => exact .inl (by simp [adcPoll, he])
  | some e =>
    rw [adcPoll_of_registration done raw he]
    cases hphase : s.adc.phase with
    | countdown =>
      rcases Nat.eq_zero_or_pos s.adc.cnt with hcnt | hcnt
      · exact .inr ⟨e, rfl, .inl (adcService_starts_conversion e done raw hphase hcnt)⟩
      · exact .inr ⟨e, rfl, .inr (.inl (adcService_counts_down e done raw hphase hcnt))⟩
    | waiting =>
      cases done with
      | false => exact .inl (adcService_waits e raw hphase)
      | true => exact .inr ⟨e, rfl, .inr (.inr ⟨rfl, rfl, adcService_dispatches e raw hphase⟩)⟩

theorem adcPoll_extends_events (done : Bool) (raw : Nat) (s : State) : s.events <+: (adcPoll done raw s).events := by
  rcases adcPoll_cases done raw s with hsame | ⟨e, -, hstart | hcount | ⟨-, -, hdispatch⟩⟩
  · rw [hsame]
  · rw [hstart]
    exact ⟨_, rfl⟩
  · rw [hcount]
  · rw [hdispatch]
    exact adcDispatch_extends_events s e raw

/-- No command takes an event out of the record. -/
theorem exec_extends_events {i : Instr} {s t : State} (h : exec i s = .next t) : s.events <+: t.events := by
  cases i <;> cases h
  case fltRaise ty dev mot => exact fltRaise_extends_events s _ ty
  case motSetspeed c v => exact motSetspeed_extends_events s c.val v
  case motSetcurrent c raw => exact motSetcurrent_extends_events s c.val raw
  case pidTick c now => exact pidTick_extends_events s c.val now
  case adcPoll done raw => exact adcPoll_extends_events done raw s
  all_goals simp

/-- A command answers one response or none. -/
theorem exec_responses_cases {i : Instr} {s t : State} (h : exec i s = .next t) :
    t.responses = s.responses ∨ ∃ r, t.responses = s.responses ++ [r] := by
  cases i <;> cases h
  case fltRdmask | fltRdstatus | fltRddata | motRdstate | pidRdsnap | encRdfreq => exact .inr ⟨_, rfl⟩
  case regRead id =>
    cases hd : s.cfg.regmap[id.toNat]? with
    | none => exact .inr ⟨_, by rw [regRead_of_not_mem hd, respond_responses]⟩
    | some d => exact .inr ⟨_, by rw [regRead_of_mem hd, respond_responses]⟩
  case regWrite id raw =>
    rcases regWrite_cases id.toNat raw s with ⟨status, hwrite⟩ | ⟨d, -, -, hwrite⟩ <;> rw [hwrite]
    · exact .inr ⟨_, rfl⟩
    · exact .inr ⟨_, by rw [respond_responses, regSet_responses]⟩
  all_goals exact .inl (by simp)

/-- Settles O14: a step without a command, or with a refused one, records no output and no response. -/
theorem recordOnlyGrows : Obligations.RecordOnlyGrows := by
  unfold Obligations.RecordOnlyGrows
  intro s t h
  have hrecord : s.events <+: t.events ∧ (t.responses = s.responses ∨ ∃ r, t.responses = s.responses ++ [r]) := by
    rcases step_cases h with ⟨-, rfl⟩ | ⟨cmd, rest, i, -, -, hexec⟩ | ⟨cmd, rest, r, -, -, rfl⟩
    · exact ⟨by rfl, .inl rfl⟩
    · exact ⟨exec_extends_events (s := { s with pending := rest }) hexec,
        exec_responses_cases (s := { s with pending := rest }) hexec⟩
    · exact ⟨by rfl, .inl rfl⟩
  obtain ⟨⟨l, hevents⟩, hresponses⟩ := hrecord
  refine ⟨⟨l, hevents.symm⟩, ?_⟩
  rcases hresponses with hsame | ⟨r, hone⟩
  · exact ⟨[], by rw [hsame, List.append_nil], Nat.zero_le _⟩
  · exact ⟨[r], hone, Nat.le_refl _⟩

end Sys2Proof.Machine
end

