-- ==== Sys2Proof/Proofs/FaultCauses.lean ====
section
/-! Which command latches a fault, why and as what (42_fault R162, 41_motor R134 to R140, 60_exceptions section 1), and
the debounce of the stall check. -/

namespace Sys2Proof.Machine

open Sys2Proof

/-! ### A fault that a command latches -/

/-- The fault register and the drives of `t` are those that fault entry leaves where `s` had none latched. -/
def Latched (s t : State) (o : Origin) (ty : FaultType) : Prop :=
  s.flt.masked ty = false ∧ t.flt = { active := true, ftype := ty, origin := o, mask := s.flt.mask } ∧
    ∀ d, d < s.cfg.nch → (motAt t d).state = .stop ∨ (motAt t d).state = stopState s.cfg.faultStopState

theorem latched_of_fltRaise {o : Origin} {ty : FaultType} {s : State} (h0 : s.flt.active = false)
    (h1 : (fltRaise o ty s).flt.active = true) : Latched s (fltRaise o ty s) o ty := by
  rcases fltRaise_flt o ty s with ⟨hsame, -⟩ | ⟨-, hmask, hflt⟩
  · rw [hsame, h0] at h1
    cases h1
  · exact ⟨hmask, hflt, fltRaise_stops o ty s h0 h1⟩

/-- What reads as the same fault register and the same motor banks is latched as well. -/
theorem Latched.congr {s t u : State} {o : Origin} {ty : FaultType} (h : Latched s t o ty) (hflt : u.flt = t.flt)
    (hmot : ∀ d, motAt u d = motAt t d) : Latched s u o ty := by
  obtain ⟨hmask, ht, hstop⟩ := h
  exact ⟨hmask, hflt.trans ht, fun d hd => by rw [hmot]; exact hstop d hd⟩

/-- A command and the fault it raises in `s`, with the condition it raises it on. -/
inductive FaultCause (s : State) : Instr → Origin → FaultType → Prop
  | raised (ty : FaultType) (dev mot : BitVec 4) : FaultCause s (.fltRaise ty dev mot) ⟨dev, mot⟩ ty
  | current (c : Chan) (raw : Nat) (habove : (chanCfg s.cfg c).ocThreshold < raw) :
      FaultCause s (.motSetcurrent c raw) (channelOrigin s.cfg c) (currentClass (chanCfg s.cfg c) (motAt s c).control)
  | conversion (raw : Nat) (e : AdcReg) (hphase : s.adc.phase = .waiting) (he : s.cfg.adcTable[s.adc.cur]? = some e)
      (htag : e.typeTag = .current) (habove : (chanCfg s.cfg e.listener).ocThreshold < raw) :
      FaultCause s (.adcPoll true raw) (channelOrigin s.cfg e.listener)
        (currentClass (chanCfg s.cfg e.listener) (motAt s e.listener).control)
  | stall (c : Chan) (now : Nat) (hnow : (pidAt s c).prevTime ≤ now) (hen : (motAt s c).stallEn = true)
      (hcond : stallCondition (chanCfg s.cfg c) (motAt s c) |measured c s - (pidAt s c).prevActual| = true)
      (hcnt : (chanCfg s.cfg c).stallDebounce ≤ (motAt s c).stallCnt) :
      FaultCause s (.pidTick c now) (channelOrigin s.cfg c) (stallClass (chanCfg s.cfg c) (motAt s c).lastRaw)

section
variable {s : State} (h0 : s.flt.active = false)
include h0

/-- A sample latches a fault only above the threshold. -/
theorem motSetcurrent_latches {c raw : Nat} (h1 : (motSetcurrent c raw s).flt.active = true) :
    (chanCfg s.cfg c).ocThreshold < raw ∧
      Latched s (motSetcurrent c raw s) (channelOrigin s.cfg c)
        (currentClass (chanCfg s.cfg c) (motAt s c).control) := by
  rcases Nat.lt_or_ge (chanCfg s.cfg c).ocThreshold raw with hraw | hraw
  · rw [motSetcurrent_of_lt hraw] at h1 ⊢
    exact ⟨hraw, latched_of_fltRaise (s := setMot s c _) h0 h1⟩
  · rw [motSetcurrent_of_le hraw, setMot_flt, h0] at h1
    cases h1

/-- STALL_CHECK latches a fault only past the debounce of an enabled check that meets the condition. -/
theorem stallCheck_latches {c : Nat} {speed : Number} (h1 : (stallCheck c speed s).flt.active = true) :
    ((motAt s c).stallEn = true ∧ stallCondition (chanCfg s.cfg c) (motAt s c) speed = true ∧
      (chanCfg s.cfg c).stallDebounce ≤ (motAt s c).stallCnt) ∧
    Latched s (stallCheck c speed s) (channelOrigin s.cfg c) (stallClass (chanCfg s.cfg c) (motAt s c).lastRaw) := by
  rcases stallCheck_cases c speed s with hsame | ⟨n, -, hset⟩ | ⟨hen, hcond, hcnt, hraise⟩
  · rw [hsame, h0] at h1
    cases h1
  · rw [hset, setMot_flt, h0] at h1
    cases h1
  · rw [hraise] at h1 ⊢
    exact ⟨⟨hen, hcond, hcnt⟩, latched_of_fltRaise (s := setMot s c _) h0 h1⟩

/-- A tick latches a fault only in the STALL_CHECK of a correcting one. -/
theorem pidTick_latches {c now : Nat} (h1 : (pidTick c now s).flt.active = true) :
    (pidAt s c).prevTime ≤ now ∧
    ((motAt s c).stallEn = true ∧
      stallCondition (chanCfg s.cfg c) (motAt s c) |measured c s - (pidAt s c).prevActual| = true ∧
      (chanCfg s.cfg c).stallDebounce ≤ (motAt s c).stallCnt) ∧
    Latched s (pidTick c now s) (channelOrigin s.cfg c) (stallClass (chanCfg s.cfg c) (motAt s c).lastRaw) := by
  rcases Nat.lt_or_ge now (pidAt s c).prevTime with hnow | hnow
  · rw [pidTick_of_lt hnow, pidBackwards_flt, h0] at h1
    cases h1
  · rw [pidTick_of_le hnow, pidDrive_flt] at h1
    obtain ⟨hcause, hlatched⟩ := stallCheck_latches (s := pidEstimate c now s) h0 h1
    refine ⟨hnow, hcause, ?_⟩
    rw [pidTick_of_le hnow, pidDrive_of_active _ _ _ h1]
    exact Latched.congr hlatched rfl fun _ => rfl

/-- A poll latches a fault only in the dispatch of a completed CURRENT conversion. -/
theorem adcPoll_latches {done : Bool} {raw : Nat} (h1 : (adcPoll done raw s).flt.active = true) :
    done = true ∧ s.adc.phase = .waiting ∧ ∃ e, s.cfg.adcTable[s.adc.cur]? = some e ∧ e.typeTag = .current ∧
      (chanCfg s.cfg e.listener).ocThreshold < raw ∧
      Latched s (adcPoll done raw s) (channelOrigin s.cfg e.listener)
        (currentClass (chanCfg s.cfg e.listener) (motAt s e.listener).control) := by
  rcases adcPoll_cases done raw s with hsame | ⟨e, he, hstart | hcount | ⟨hphase, hdone, hdispatch⟩⟩
  · rw [hsame, h0] at h1
    cases h1
  · rw [hstart, emit_flt] at h1
    exact absurd h1 (by simp [h0])
  · rw [hcount] at h1
    exact absurd h1 (by simp [h0])
  · rw [hdispatch] at h1 ⊢
    cases htag : e.typeTag with
    | current =>
      simp only [adcDispatch, htag] at h1 ⊢
      obtain ⟨habove, hlatched⟩ := motSetcurrent_latches h0 h1
      exact ⟨hdone, hphase, e, he, htag, habove, Latched.congr hlatched rfl fun _ => rfl⟩
    | position =>
      simp only [adcDispatch, htag, posSample_flt, h0] at h1
      cases h1

/-- No register write latches a fault. -/
theorem regWrite_not_latches (id : Nat) (raw : Word16) : (regWrite id raw s).flt.active = false := by
  rcases regWrite_cases id raw s with ⟨status, hwrite⟩ | ⟨d, -, -, hwrite⟩
  · rw [hwrite, respond_flt, h0]
  · rw [hwrite, respond_flt]
    rcases regSet_flt_cases d id (writtenRaw d raw) s with ⟨m, hflt⟩ | ⟨-, hflt⟩ <;> rw [hflt]
    exact h0

/-- Every command that latches a fault has a cause for it. -/
theorem exec_latches {i : Instr} {t : State} (hexec : exec i s = .next t) (h1 : t.flt.active = true) :
    ∃ o ty, FaultCause s i o ty ∧ Latched s t o ty := by
  cases i <;> cases hexec
  case fltRaise ty dev mot => exact ⟨_, ty, .raised ty dev mot, latched_of_fltRaise h0 h1⟩
  case motSetcurrent c raw =>
    obtain ⟨habove, hlatched⟩ := motSetcurrent_latches h0 h1
    exact ⟨_, _, .current c raw habove, hlatched⟩
  case pidTick c now =>
    obtain ⟨hnow, ⟨hen, hcond, hcnt⟩, hlatched⟩ := pidTick_latches h0 h1
    exact ⟨_, _, .stall c now hnow hen hcond hcnt, hlatched⟩
  case adcPoll done raw =>
    obtain ⟨rfl, hphase, e, he, htag, habove, hlatched⟩ := adcPoll_latches h0 h1
    exact ⟨_, _, .conversion raw e hphase he htag habove, hlatched⟩
  case regWrite id raw =>
    rw [regWrite_not_latches h0] at h1
    cases h1
  case fltReset =>
    rw [fltReset_flt] at h1
    cases h1
  all_goals exact absurd h1 (by simp [h0, fltSetmask])

end

/-- Settles O22: a latched fault has one of the four causes, and fault entry left its type unmasked. -/
theorem everyFaultHasItsCause : Obligations.EveryFaultHasItsCause := by
  unfold Obligations.EveryFaultHasItsCause
  intro i s t hexec h0 h1 dev currentFault measuredValue stallFault
  obtain ⟨o, ty, hcause, hmask, hflt, -⟩ := exec_latches h0 hexec h1
  have htype : t.flt.ftype = ty := by rw [hflt]
  have horigin : t.flt.origin = o := by rw [hflt]
  refine ⟨by rw [htype]; exact hmask, ?_⟩
  cases hcause with
  | raised ty dev mot => exact .inl ⟨ty, dev, mot, rfl, htype, horigin⟩
  | current c raw habove => exact .inr (.inl ⟨c, raw, rfl, habove, horigin, htype⟩)
  | conversion raw e hphase he htag habove =>
    exact .inr (.inr (.inl ⟨raw, e, rfl, hphase, he, htag, habove, horigin, htype⟩))
  | stall c now hnow hen hcond hcnt =>
    obtain ⟨hspeed, hcontrol⟩ := (stallCondition_iff _ _ _).1 hcond
    exact .inr (.inr (.inr ⟨c, now, rfl, hnow, hen, hspeed, hcontrol, hcnt, horigin, htype⟩))

/-! ### The debounce, 41_motor R138 and R140 -/

@[simp] theorem setMot_setMot (s : State) (c : Nat) (b b' : MotBank) : setMot (setMot s c b) c b' = setMot s c b' := by
  simp [setMot, List.set_set]

/-- Writing an entry of a list back changes nothing. -/
theorem set_getD_self {α : Type} (l : List α) (c : Nat) (d : α) : l.set c (l.getD c d) = l := by
  rcases Nat.lt_or_ge c l.length with hc | hc
  · rw [List.getD_eq_getElem l d hc, List.set_getElem_self]
  · rw [List.set_eq_of_length_le hc]

theorem setMot_motAt (s : State) (c : Nat) : setMot s c (motAt s c) = s :=
  congrArg (fun l => { s with ch := l }) (set_getD_self s.ch c MotBank.reset)

section
variable {s : State} {c : Nat} {speed : Number} (hc : c < s.ch.length) (hen : (motAt s c).stallEn = true)
  (hcond : stallCondition (chanCfg s.cfg c) (motAt s c) speed = true)
include hc hen hcond

/-- One more check that meets the condition within the debounce counts one more. -/
theorem stallCheck_counts {n : Nat} (hn : n + 1 ≤ (chanCfg s.cfg c).stallDebounce) :
    stallCheck c speed (setMot s c { motAt s c with stallCnt := n }) =
      setMot s c { motAt s c with stallCnt := n + 1 } := by
  have hbank := motAt_setMot_same s c { motAt s c with stallCnt := n } hc
  rw [stallCheck_within_debounce, hbank, setMot_setMot]
  · rw [hbank]
    exact hen
  · rw [hbank]
    exact hcond
  · rw [hbank]
    exact hn

/-- From a count of 0, `n` checks within the debounce count `n`. -/
theorem stallCheck_iterate (hzero : (motAt s c).stallCnt = 0) (n : Nat) (hn : n ≤ (chanCfg s.cfg c).stallDebounce) :
    (stallCheck c speed)^[n] s = setMot s c { motAt s c with stallCnt := n } := by
  induction n with
  | zero =>
    rw [Function.iterate_zero_apply, ← hzero]
    exact (setMot_motAt s c).symm
  | succ n ih => rw [Function.iterate_succ_apply', ih (Nat.le_of_succ_le hn), stallCheck_counts hc hen hcond hn]

/-- The check after the debounce performs fault entry with the count at 0. -/
theorem stallCheck_iterate_past_debounce (hzero : (motAt s c).stallCnt = 0) :
    (stallCheck c speed)^[(chanCfg s.cfg c).stallDebounce + 1] s =
      fltRaise (channelOrigin s.cfg c) (stallClass (chanCfg s.cfg c) (motAt s c).lastRaw)
        (setMot s c { motAt s c with stallCnt := 0 }) := by
  have hbank := motAt_setMot_same s c { motAt s c with stallCnt := (chanCfg s.cfg c).stallDebounce } hc
  rw [Function.iterate_succ_apply', stallCheck_iterate hc hen hcond hzero _ (Nat.le_refl _), stallCheck_past_debounce,
    hbank, setMot_setMot]
  · rfl
  · rw [hbank]
    exact hen
  · rw [hbank]
    exact hcond
  · rw [hbank]
    exact Nat.lt_succ_self _

end

/-- Settles O28: the checks within the debounce only count, and the next one enters the fault of the band. -/
theorem stallLatchesAfterTheDebounce : Obligations.StallLatchesAfterTheDebounce := by
  unfold Obligations.StallLatchesAfterTheDebounce
  intro s c speed hc hlen b k ty hen hzero hspeed hcontrol h0 hmask
  have hbank : c.val < s.ch.length := hlen ▸ hc
  have hcond : stallCondition k b speed = true := (stallCondition_iff k b speed).2 ⟨hspeed, hcontrol⟩
  refine ⟨stallCheck_iterate hbank hen hcond hzero, ?_⟩
  intro t
  have ht : t = fltRaise (channelOrigin s.cfg c) ty (setMot s c { b with stallCnt := 0 }) :=
    stallCheck_iterate_past_debounce hbank hen hcond hzero
  rcases fltRaise_cases (channelOrigin s.cfg c) ty (setMot s c { b with stallCnt := 0 }) with
    ⟨-, hnoop⟩ | ⟨-, -, hframe, -, hstopped, -⟩
  · exact absurd hnoop (raise_not_noop h0 hmask)
  · have hflt : t.flt = { active := true, ftype := ty, origin := channelOrigin s.cfg c, mask := s.flt.mask } := by
      rw [ht, hframe]
      rfl
    refine ⟨by rw [hflt], by rw [hflt], by rw [hflt]; rfl, ?_⟩
    rw [ht, hstopped c.val hc (by simpa using hbank)]
    rfl

end Sys2Proof.Machine
end

