-- ==== Sys2Proof/Proofs/DriveInvariants.lean ====
section
/-! The invariants of the drives over one step: lines and duties, channels held under a fault, control and drive in
agreement (41_motor R130 and R131, 42_fault R169). Each follows from what a step can do to one drive. -/

namespace Sys2Proof.Machine

open Sys2Proof

/-! ### Lines and duties, 41_motor R130 -/

theorem linesMatch_stoppedBank (cfg : Config) (b : MotBank) : (stoppedBank cfg b).LinesMatch cfg.maxDuty := by
  rw [stoppedBank]
  cases cfg.faultStopState <;> exact ⟨rfl, by simp [stopState, drivePwm], by simp [stopState, drivePwm]⟩

/-- A drive that is kept keeps its lines and its duty. -/
theorem DriveKept.linesMatch {b b' : MotBank} (h : DriveKept b b') {maxDuty : Nat} (hb : b.LinesMatch maxDuty) :
    b'.LinesMatch maxDuty := by
  obtain ⟨hstate, -, hpwm, hA, hB⟩ := h
  simpa only [MotBank.LinesMatch, hstate, hpwm, hA, hB] using hb

/-- A drive that follows a control has the lines of its target, rewritten or left as they were, and is not in BRAKE. -/
theorem Driven.linesMatch {s : State} {b b' : MotBank} (h : Driven s b b') (hb : b.LinesMatch s.cfg.maxDuty) :
    b'.LinesMatch s.cfg.maxDuty := by
  obtain ⟨ctl, -, -, hstate, hpwm, hlines⟩ := h
  refine ⟨?_, fun hstop => ?_, fun hbrake => ?_⟩
  · rw [hstate]
    rcases hlines with hrewritten | ⟨htarget, hA, hB⟩
    · exact hrewritten
    · obtain ⟨hold, -⟩ := hb
      rw [hA, hB, htarget, hold]
  · rw [hpwm, ← hstate, hstop]
    rfl
  · exact absurd (hstate.symm.trans hbrake) (targetState_ne_brake ctl)

theorem DriveStep.linesMatch {s t : State} {d : Nat} (h : DriveStep s t d) (hs : (motAt s d).LinesMatch s.cfg.maxDuty) :
    (motAt t d).LinesMatch s.cfg.maxDuty := by
  rcases h with hkept | ⟨-, -, hdriven⟩ | ⟨-, -, b, hstopped⟩
  · exact hkept.linesMatch hs
  · exact hdriven.linesMatch hs
  · rw [hstopped]
    exact linesMatch_stoppedBank s.cfg b

/-- Settles O51, from what a step can do to each drive. -/
theorem stepKeepsLinesMatch : Obligations.StepKeepsLinesMatch := by
  unfold Obligations.StepKeepsLinesMatch
  intro s t hs hstep c hc
  rw [step_cfg hstep] at hc ⊢
  exact (step_driveStep hstep c).linesMatch (hs c hc)

/-! ### Channels held while a fault is latched, 42_fault R169 and 60_exceptions R257 -/

/-- A command with a fault latched drives nothing, and one that latches a fault stops every channel. -/
theorem exec_heldWhileFaulted {i : Instr} {s t : State} (hexec : exec i s = .next t) (hs : s.HeldWhileFaulted) :
    t.HeldWhileFaulted := by
  intro hafter c hc
  rw [exec_cfg hexec] at hc ⊢
  cases hbefore : s.flt.active with
  | false =>
    obtain ⟨o, ty, -, -, -, hstop⟩ := exec_latches hbefore hexec hafter
    exact hstop c hc
  | true =>
    rcases exec_driveStep hexec c with ⟨hstate, -⟩ | ⟨hinactive, -⟩ | ⟨hinactive, -⟩
    · rw [hstate]
      exact hs hbefore c hc
    · exact absurd hbefore (by simp [hinactive])
    · exact absurd hbefore (by simp [hinactive])

/-- Settles O52: the invariant reads neither the presented commands nor the record, and every command keeps it. -/
theorem stepKeepsChannelsHeldWhileFaulted : Obligations.StepKeepsChannelsHeldWhileFaulted := by
  unfold Obligations.StepKeepsChannelsHeldWhileFaulted
  intro s t hs hstep
  exact step_keeps (P := State.HeldWhileFaulted) (fun _ _ h => h) (fun _ _ h => h)
    (fun i s t cmd _ hexec => exec_heldWhileFaulted hexec) hstep hs

/-! ### Control and drive, 10_state R26 and 41_motor R131 -/

theorem targetState_eq_forward_iff (ctl : Number) : targetState ctl = .forward ↔ 0 < ctl := by
  rcases lt_trichotomy ctl 0 with h | rfl | h
  · simp [targetState_of_neg h, h.le]
  · simp
  · simp [targetState_of_pos h, h]

theorem targetState_eq_reverse_iff (ctl : Number) : targetState ctl = .reverse ↔ ctl < 0 := by
  rcases lt_trichotomy ctl 0 with h | rfl | h
  · simp [targetState_of_neg h, h]
  · simp
  · simp [targetState_of_pos h, h.le]

/-- A stopped channel has control 0 and is in STOP or BRAKE. -/
theorem controlMatches_stoppedBank {cfg : Config} (hfmt : cfg.fmt = .identity) (b : MotBank) :
    (stoppedBank cfg b).ControlMatches cfg.maxDuty := by
  simp only [MotBank.ControlMatches, stoppedBank, hfmt, fmtApply_identity]
  cases cfg.faultStopState <;> simp [stopState]

theorem DriveKept.controlMatches {b b' : MotBank} (h : DriveKept b b') {maxDuty : Nat} (hb : b.ControlMatches maxDuty) :
    b'.ControlMatches maxDuty := by
  obtain ⟨hstate, hcontrol, hpwm, -, -⟩ := h
  simpa only [MotBank.ControlMatches, hstate, hcontrol, hpwm] using hb

/-- A drive that follows a control holds that control, its sign and the floor of its magnitude. -/
theorem Driven.controlMatches {s : State} (hfmt : s.cfg.fmt = .identity) {b b' : MotBank} (h : Driven s b b') :
    b'.ControlMatches s.cfg.maxDuty := by
  obtain ⟨ctl, hbound, hcontrol, hstate, hpwm, -⟩ := h
  rw [stored_of_identity s ctl hfmt] at hcontrol
  rw [MotBank.ControlMatches, hcontrol, hstate, hpwm]
  refine ⟨hbound, targetState_eq_forward_iff ctl, targetState_eq_reverse_iff ctl, ?_⟩
  rintro (hdir | hdir) <;> rw [hdir] <;> rfl

theorem DriveStep.controlMatches {s t : State} {d : Nat} (hfmt : s.cfg.fmt = .identity) (h : DriveStep s t d)
    (hs : (motAt s d).ControlMatches s.cfg.maxDuty) : (motAt t d).ControlMatches s.cfg.maxDuty := by
  rcases h with hkept | ⟨-, -, hdriven⟩ | ⟨-, -, b, hstopped⟩
  · exact hkept.controlMatches hs
  · exact hdriven.controlMatches hfmt
  · rw [hstopped]
    exact controlMatches_stoppedBank hfmt b

/-- Settles O53, from what a step can do to each drive. -/
theorem stepKeepsControlMatches : Obligations.StepKeepsControlMatches := by
  unfold Obligations.StepKeepsControlMatches
  intro s t hfmt hs hstep c hc
  rw [step_cfg hstep] at hc ⊢
  exact (step_driveStep hstep c).controlMatches hfmt (hs c hc)

end Sys2Proof.Machine
end

