-- ==== Sys2Proof/Proofs/WellFormedState.lean ====
section
/-! Every step keeps the state well formed, part by part: the banks of each kind, the scheduler and the register storage
(10_state sections 3 to 7). -/

namespace Sys2Proof.Machine

open Sys2Proof

/-! ### The parts of a well-formed state -/

/-- As many motor banks as channels, each in its ranges. -/
def State.MotInRange (s : State) : Prop :=
  s.ch.length = s.cfg.nch ∧ ∀ c, c < s.cfg.nch → (motAt s c).InRange s.cfg (chanCfg s.cfg c)

/-- As many PID banks as channels, each with a time stamp of its width. -/
def State.PidInRange (s : State) : Prop :=
  s.pid.length = s.cfg.nch ∧ ∀ c, c < s.cfg.nch → (pidAt s c).prevTime < 2 ^ s.cfg.timeW

/-- As many encoder banks as channels, each in its ranges. -/
def State.EncInRange (s : State) : Prop :=
  s.enc.length = s.cfg.nch ∧ ∀ c, c < s.cfg.nch → (encAt s c).InRange s.cfg

theorem State.wellFormed_iff (s : State) :
    s.WellFormed ↔
      s.cfg.WellFormed ∧ s.MotInRange ∧ s.PidInRange ∧ s.pos.length = s.cfg.nch ∧ s.EncInRange ∧
        s.adc.InRange s.cfg ∧ s.PlainInRange := by
  unfold State.WellFormed State.MotInRange State.PidInRange State.EncInRange
  constructor
  · rintro ⟨⟨hcfg, hch, hpid, hpos, henc⟩, hmots, hpids, hencs, hadc, hplain⟩
    exact ⟨hcfg, ⟨hch, hmots⟩, ⟨hpid, hpids⟩, hpos, ⟨henc, hencs⟩, hadc, hplain⟩
  · rintro ⟨hcfg, ⟨hch, hmots⟩, ⟨hpid, hpids⟩, hpos, ⟨henc, hencs⟩, hadc, hplain⟩
    exact ⟨⟨hcfg, hch, hpid, hpos, henc⟩, hmots, hpids, hencs, hadc, hplain⟩

/-! ### Motor banks, 10_state R26 -/

/-- The duty of a control within ±MAX_DUTY is at most MAX_DUTY. -/
theorem drivePwm_le {maxDuty : Nat} {ctl : Number} (h : |ctl| ≤ (maxDuty : Number)) (st : DriveState) :
    drivePwm maxDuty st ctl ≤ maxDuty := by
  cases st with
  | stop => exact Nat.zero_le _
  | brake => exact Nat.le_refl _
  | forward | reverse => exact floorNat_le h

theorem inRange_stoppedBank {cfg : Config} {k : ChanCfg} {b : MotBank} (h : b.InRange cfg k) :
    (stoppedBank cfg b).InRange cfg k := by
  obtain ⟨-, hraw, -⟩ := h
  exact ⟨drivePwm_le (by simp) _, hraw, Nat.zero_le _⟩

theorem inRange_drivenBank {s : State} {k : ChanCfg} {b : MotBank} (h : b.InRange s.cfg k) (v : Number) :
    (drivenBank s b (clamp v (-(s.cfg.maxDuty : Number)) s.cfg.maxDuty)).InRange s.cfg k := by
  obtain ⟨-, hraw, hcnt⟩ := h
  exact ⟨drivePwm_le (abs_clamp_le (Nat.cast_nonneg _)) _, hraw, hcnt⟩

/-- Writing the stall count of a bank, within the debounce. -/
theorem inRange_stallCnt {cfg : Config} {k : ChanCfg} {b : MotBank} (h : b.InRange cfg k) {n : Nat}
    (hn : n ≤ k.stallDebounce) : MotBank.InRange cfg k { b with stallCnt := n } := by
  obtain ⟨hpwm, hraw, -⟩ := h
  exact ⟨hpwm, hraw, hn⟩

theorem motInRange_of_ch_eq {s t : State} (h : s.MotInRange) (hcfg : t.cfg = s.cfg) (hch : t.ch = s.ch) :
    t.MotInRange := by
  unfold State.MotInRange motAt at h ⊢
  rwa [hcfg, hch]

section
variable {s : State} (h : s.MotInRange)
include h

theorem motInRange_setMot {c : Nat} {b : MotBank} (hb : c < s.cfg.nch → b.InRange s.cfg (chanCfg s.cfg c)) :
    (setMot s c b).MotInRange := by
  obtain ⟨hlen, hbanks⟩ := h
  refine ⟨List.length_set.trans hlen, fun d hd => ?_⟩
  rcases motAt_setMot_cases s c d b with ⟨hwritten, rfl⟩ | hkept
  · rw [hwritten]
    exact hb hd
  · rw [hkept]
    exact hbanks d hd

/-- Writing one stall count within its channel's debounce. -/
theorem motInRange_setMot_stallCnt (c : Nat) {n : Nat} (hn : n ≤ (chanCfg s.cfg c).stallDebounce) :
    (setMot s c { motAt s c with stallCnt := n }).MotInRange := by
  have ⟨_, hbanks⟩ := h
  exact motInRange_setMot h fun hc => inRange_stallCnt (hbanks c hc) hn

theorem motInRange_fltRaise (o : Origin) (ty : FaultType) : (fltRaise o ty s).MotInRange := by
  rcases fltRaise_cases o ty s with ⟨hsame, -⟩ | ⟨-, -, -, hlength, hstopped, -⟩
  · rwa [hsame]
  · obtain ⟨hlen, hbanks⟩ := h
    unfold State.MotInRange
    rw [fltRaise_cfg]
    refine ⟨hlength.trans hlen, fun c hc => ?_⟩
    rw [hstopped c hc (hlen ▸ hc)]
    exact inRange_stoppedBank (hbanks c hc)

theorem motInRange_fltReset : (fltReset s).MotInRange := by
  obtain ⟨-, hlength, hcleared, -⟩ := fltReset_spec s
  obtain ⟨hlen, hbanks⟩ := h
  unfold State.MotInRange
  rw [fltReset_cfg]
  refine ⟨hlength.trans hlen, fun c hc => ?_⟩
  rw [hcleared c hc (hlen ▸ hc)]
  exact inRange_stallCnt (hbanks c hc) (Nat.zero_le _)

theorem motInRange_motSetspeed (c : Nat) (v : Number) : (motSetspeed c v s).MotInRange := by
  cases hactive : s.flt.active with
  | true => rwa [motSetspeed_of_active c v hactive]
  | false =>
    have ⟨_, hbanks⟩ := h
    rw [motSetspeed_of_inactive c v hactive]
    exact motInRange_of_ch_eq (motInRange_setMot h fun hc => inRange_drivenBank (hbanks c hc) v) rfl rfl

theorem motInRange_motSetcurrent (c : Nat) {raw : Nat} (hraw : raw ≤ s.cfg.adcRawMax) :
    (motSetcurrent c raw s).MotInRange := by
  have ⟨_, hbanks⟩ := h
  have hsampled : (setMot s c (sampledBank s c raw)).MotInRange := motInRange_setMot h fun hc => by
    obtain ⟨hpwm, -, hcnt⟩ := hbanks c hc
    exact ⟨hpwm, hraw, hcnt⟩
  rcases Nat.lt_or_ge (chanCfg s.cfg c).ocThreshold raw with habove | hbelow
  · rw [motSetcurrent_of_lt habove]
    exact motInRange_fltRaise hsampled _ _
  · rwa [motSetcurrent_of_le hbelow]

theorem motInRange_motSetstallen (c : Nat) (en : Bool) : (motSetstallen c en s).MotInRange := by
  have ⟨_, hbanks⟩ := h
  exact motInRange_setMot h fun hc => inRange_stallCnt (hbanks c hc) (Nat.zero_le _)

theorem motInRange_stallCheck (c : Nat) (speed : Number) : (stallCheck c speed s).MotInRange := by
  rcases stallCheck_cases c speed s with hsame | ⟨n, hn, hset⟩ | ⟨-, -, -, hraise⟩
  · rwa [hsame]
  · rw [hset]
    exact motInRange_setMot_stallCnt h c hn
  · rw [hraise]
    exact motInRange_fltRaise (motInRange_setMot_stallCnt h c (Nat.zero_le _)) _ _

theorem motInRange_pidDrive (c : Nat) (a out : Number) : (pidDrive c a out s).MotInRange := by
  cases hactive : s.flt.active with
  | true =>
    rw [pidDrive_of_active c a out hactive]
    exact h
  | false =>
    rw [pidDrive_of_inactive c a out hactive]
    exact motInRange_motSetspeed h c out

theorem motInRange_pidTick (c now : Nat) : (pidTick c now s).MotInRange := by
  rcases Nat.lt_or_ge now (pidAt s c).prevTime with hnow | hnow
  · rw [pidTick_of_lt hnow]
    exact h
  · rw [pidTick_of_le hnow]
    exact motInRange_pidDrive (motInRange_stallCheck (s := pidEstimate c now s) h c _) c _ _

theorem motInRange_adcPoll (done : Bool) {raw : Nat} (hraw : raw ≤ s.cfg.adcRawMax) :
    (adcPoll done raw s).MotInRange := by
  rcases adcPoll_cases done raw s with hsame | ⟨e, -, hstart | hcount | ⟨-, -, hdispatch⟩⟩
  · rwa [hsame]
  · rw [hstart]
    exact h
  · rw [hcount]
    exact h
  · rw [hdispatch]
    show (adcDispatch e raw s).MotInRange
    unfold adcDispatch
    split
    · exact motInRange_motSetcurrent h e.listener hraw
    · exact h

theorem motInRange_regWrite (id : Nat) (raw : Word16) : (regWrite id raw s).MotInRange := by
  rcases regWrite_cases id raw s with ⟨status, hwrite⟩ | ⟨d, -, -, hwrite⟩
  · rw [hwrite]
    exact h
  · rw [hwrite]
    show (regSet d id (writtenRaw d raw) s).MotInRange
    unfold regSet
    split
    case h_1 => exact motInRange_of_ch_eq h (setMaskRegister_cfg s _) (setMaskRegister_ch s _)
    case h_2 => exact motInRange_fltReset h
    case h_5 => exact motInRange_motSetstallen h _ _
    all_goals exact h

theorem exec_motInRange {i : Instr} {t : State} (hi : i.WellFormed s.cfg) (hexec : exec i s = .next t) :
    t.MotInRange := by
  cases i <;> cases hexec
  case fltRaise ty dev mot => exact motInRange_fltRaise h _ ty
  case fltReset => exact motInRange_fltReset h
  case motSetspeed c v => exact motInRange_motSetspeed h c v
  case motSetcurrent c raw => exact motInRange_motSetcurrent h c (of_decide_eq_true hi).2
  case motSetstallen c en => exact motInRange_motSetstallen h c en
  case pidTick c now => exact motInRange_pidTick h c now
  case adcPoll done raw => exact motInRange_adcPoll h done (of_decide_eq_true hi)
  case regWrite id raw => exact motInRange_regWrite h id.toNat raw
  all_goals exact motInRange_of_ch_eq h (by simp) (by simp)

end

/-! ### PID banks, 10_state R29 -/

theorem pidInRange_of_pid_eq {s t : State} (h : s.PidInRange) (hcfg : t.cfg = s.cfg) (hpid : t.pid = s.pid) :
    t.PidInRange := by
  unfold State.PidInRange pidAt at h ⊢
  rwa [hcfg, hpid]

section
variable {s : State} (h : s.PidInRange)
include h

theorem pidInRange_setPid {c : Nat} {p : PidBank} (hp : c < s.cfg.nch → p.prevTime < 2 ^ s.cfg.timeW) :
    (setPid s c p).PidInRange := by
  obtain ⟨hlen, hbanks⟩ := h
  refine ⟨List.length_set.trans hlen, fun d hd => ?_⟩
  rcases pidAt_setPid_cases s c d p with ⟨hwritten, rfl⟩ | hkept
  · rw [hwritten]
    exact hp hd
  · rw [hkept]
    exact hbanks d hd

theorem pidInRange_pidDrive (c : Nat) (a out : Number) : (pidDrive c a out s).PidInRange := by
  have ⟨_, hbanks⟩ := h
  cases hactive : s.flt.active with
  | true =>
    rw [pidDrive_of_active c a out hactive]
    exact pidInRange_setPid h (hbanks c)
  | false =>
    rw [pidDrive_of_inactive c a out hactive]
    exact pidInRange_of_pid_eq h (motSetspeed_cfg s c out) (motSetspeed_pid s c out)

theorem pidInRange_pidTick (c : Nat) {now : Nat} (hnow : now < 2 ^ s.cfg.timeW) : (pidTick c now s).PidInRange := by
  rcases Nat.lt_or_ge now (pidAt s c).prevTime with hback | hforth
  · rw [pidTick_of_lt hback]
    exact pidInRange_setPid h fun _ => hnow
  · have hestimate : (setPid s c (estimatedBank s c now)).PidInRange := pidInRange_setPid h fun _ => hnow
    rw [pidTick_of_le hforth]
    refine pidInRange_pidDrive ?_ c _ _
    exact pidInRange_of_pid_eq hestimate (checkedState_cfg s c now) (checkedState_pid s c now)

theorem pidInRange_regWrite (id : Nat) (raw : Word16) : (regWrite id raw s).PidInRange := by
  have ⟨_, hbanks⟩ := h
  rcases regWrite_cases id raw s with ⟨status, hwrite⟩ | ⟨d, -, -, hwrite⟩
  · rw [hwrite]
    exact h
  · rw [hwrite]
    show (regSet d id (writtenRaw d raw) s).PidInRange
    unfold regSet
    split
    case h_1 => exact pidInRange_of_pid_eq h (setMaskRegister_cfg s _) (setMaskRegister_pid s _)
    case h_2 => exact pidInRange_of_pid_eq h (fltReset_cfg s) (fltReset_pid s)
    case h_3 c _ => exact pidInRange_setPid h (hbanks c)
    case h_4 c _ _ => exact pidInRange_setPid h (hbanks c)
    all_goals exact h

theorem exec_pidInRange {i : Instr} {t : State} (hi : i.WellFormed s.cfg) (hexec : exec i s = .next t) :
    t.PidInRange := by
  have ⟨_, hbanks⟩ := h
  cases i <;> cases hexec
  case pidSetreq c v => exact pidInRange_setPid h (hbanks c)
  case pidSetparams c _ _ _ _ _ _ => exact pidInRange_setPid h (hbanks c)
  case pidTick c now => exact pidInRange_pidTick h c (of_decide_eq_true hi).2
  case regWrite id raw => exact pidInRange_regWrite h id.toNat raw
  all_goals exact pidInRange_of_pid_eq h (by simp) (by simp)

end

/-! ### Position banks, 10_state R31 -/

theorem adcDispatch_pos_length (e : AdcReg) (raw : Nat) (s : State) :
    (adcDispatch e raw s).pos.length = s.pos.length := by
  unfold adcDispatch
  split
  · rw [motSetcurrent_pos]
  · exact List.length_set

theorem adcPoll_pos_length (done : Bool) (raw : Nat) (s : State) : (adcPoll done raw s).pos.length = s.pos.length := by
  rcases adcPoll_cases done raw s with hsame | ⟨e, -, hstart | hcount | ⟨-, -, hdispatch⟩⟩
  · rw [hsame]
  · rw [hstart, emit_pos]
  · rw [hcount]
  · rw [hdispatch]
    exact adcDispatch_pos_length e raw s

theorem exec_pos_length {i : Instr} {s t : State} (hexec : exec i s = .next t) : t.pos.length = s.pos.length := by
  cases i <;> cases hexec
  case posSample c raw => exact List.length_set
  case adcPoll done raw => exact adcPoll_pos_length done raw s
  all_goals simp

/-! ### Encoder banks, 10_state R32 and R33 -/

theorem encInRange_of_enc_eq {s t : State} (h : s.EncInRange) (hcfg : t.cfg = s.cfg) (henc : t.enc = s.enc) :
    t.EncInRange := by
  unfold State.EncInRange encAt at h ⊢
  rwa [hcfg, henc]

theorem wrap_lt (width n : Nat) : wrap width n < 2 ^ width := Nat.mod_lt _ (Nat.two_pow_pos width)

section
variable {s : State} (h : s.EncInRange)
include h

theorem encInRange_setEnc {c : Nat} {b : EncBank} (hb : c < s.cfg.nch → b.InRange s.cfg) :
    (setEnc s c b).EncInRange := by
  obtain ⟨hlen, hbanks⟩ := h
  refine ⟨List.length_set.trans hlen, fun d hd => ?_⟩
  rcases encAt_setEnc_cases s c d b with ⟨hwritten, rfl⟩ | hkept
  · rw [hwritten]
    exact hb hd
  · rw [hkept]
    exact hbanks d hd

/-- The counters wrap at their widths (45_encoder R217). -/
theorem encInRange_encEdge (c : Nat) (level : Bool) : (encEdge c level s).EncInRange := by
  have ⟨_, hbanks⟩ := h
  refine encInRange_setEnc h fun hc => ?_
  obtain ⟨-, hneg, hstart, -⟩ := hbanks c hc
  refine ⟨wrap_lt _ _, ?_, hstart, wrap_lt _ _⟩
  dsimp only
  split
  · exact wrap_lt _ _
  · exact hneg

theorem encInRange_encPoll (c : Nat) {now : Nat} (hnow : now < 2 ^ s.cfg.timeW) : (encPoll c now s).EncInRange := by
  have ⟨_, hbanks⟩ := h
  rcases Nat.lt_or_ge now (encAt s c).winStart with hback | hstart
  · rw [encPoll_of_backwards hback]
    refine encInRange_setEnc h fun hc => ?_
    obtain ⟨-, -, -, hodo⟩ := hbanks c hc
    exact ⟨Nat.two_pow_pos _, Nat.two_pow_pos _, hnow, hodo⟩
  · rcases Nat.lt_or_ge (now - (encAt s c).winStart) (chanCfg s.cfg c).encWindowUs with hel | hel
    · rwa [encPoll_within_window hstart hel]
    · rw [encPoll_past_window hstart hel]
      refine encInRange_setEnc h fun hc => ?_
      obtain ⟨-, -, -, hodo⟩ := hbanks c hc
      exact ⟨Nat.two_pow_pos _, Nat.two_pow_pos _, hnow, hodo⟩

theorem encInRange_encOdoreset (c : Nat) : (encOdoreset c s).EncInRange := by
  have ⟨_, hbanks⟩ := h
  refine encInRange_setEnc h fun hc => ?_
  obtain ⟨hticks, hneg, hstart, -⟩ := hbanks c hc
  exact ⟨hticks, hneg, hstart, Nat.two_pow_pos _⟩

theorem encInRange_regWrite (id : Nat) (raw : Word16) : (regWrite id raw s).EncInRange := by
  rcases regWrite_cases id raw s with ⟨status, hwrite⟩ | ⟨d, -, -, hwrite⟩
  · rw [hwrite]
    exact h
  · rw [hwrite]
    show (regSet d id (writtenRaw d raw) s).EncInRange
    unfold regSet
    split
    case h_1 => exact encInRange_of_enc_eq h (setMaskRegister_cfg s _) (setMaskRegister_enc s _)
    case h_2 => exact encInRange_of_enc_eq h (fltReset_cfg s) (fltReset_enc s)
    case h_6 => exact encInRange_encOdoreset h _
    all_goals exact h

theorem exec_encInRange {i : Instr} {t : State} (hi : i.WellFormed s.cfg) (hexec : exec i s = .next t) :
    t.EncInRange := by
  cases i <;> cases hexec
  case encEdge c level => exact encInRange_encEdge h c level
  case encPoll c now => exact encInRange_encPoll h c (of_decide_eq_true hi).2
  case encOdoreset c => exact encInRange_encOdoreset h c
  case regWrite id raw => exact encInRange_regWrite h id.toNat raw
  all_goals exact encInRange_of_enc_eq h (by simp) (by simp)

end

/-! ### The scheduler, 10_state R34 -/

theorem adcPoll_adc_inRange {s : State} (done : Bool) (raw : Nat) (h : s.adc.InRange s.cfg) :
    (adcPoll done raw s).adc.InRange s.cfg := by
  have ⟨hcur, hcnt⟩ := h
  rcases adcPoll_cases done raw s with hsame | ⟨e, he, hstart | hcount | ⟨-, -, hdispatch⟩⟩
  · rwa [hsame]
  · rw [hstart]
    exact ⟨hcur, Nat.zero_le _⟩
  · rw [hcount]
    exact ⟨hcur, (Nat.sub_le _ _).trans hcnt⟩
  · obtain ⟨hlt, -⟩ := List.getElem?_eq_some_iff.1 he
    rw [hdispatch]
    exact ⟨.inl (Nat.mod_lt _ (Nat.zero_lt_of_lt hlt)), Nat.le_refl _⟩

theorem exec_adc_inRange {i : Instr} {s t : State} (h : s.adc.InRange s.cfg) (hexec : exec i s = .next t) :
    t.adc.InRange s.cfg := by
  cases i <;> cases hexec
  case adcPoll done raw => exact adcPoll_adc_inRange done raw h
  all_goals simpa using h

/-! ### The register storage, 10_state R39 and 20_memory R62 -/

/-- A write moves a raw value of its register. -/
theorem writtenRaw_le_rawMax {d : RegDesc} (hs : d.size = 1 ∨ d.size = 2) (raw : Word16) :
    writtenRaw d raw ≤ rawMax d := by
  rcases hs with hs | hs
  · simpa [writtenRaw, hs, rawMax_of_size_one hs] using Nat.le_of_lt_succ (lowByte raw).isLt
  · simpa [writtenRaw, hs, rawMax_of_size_two hs] using Nat.le_of_lt_succ raw.isLt

/-- Storing in a plain register a raw value of it. -/
theorem plainInRange_setPlain {s : State} (h : s.PlainInRange) {id : Nat} {v : Word16} {d : RegDesc}
    (hd : s.cfg.regmap[id]? = some d) (hb : d.binding = .plain) (hv : v.toNat ≤ rawMax d) :
    (setPlain s id v).PlainInRange := by
  obtain ⟨hwf, hentries⟩ := h
  refine ⟨Memory.wf_write id v hwf, fun e he => ?_⟩
  rcases Memory.mem_write he with rfl | hold
  · simp [hd, hb, hv]
  · exact hentries e hold

theorem plainInRange_of_plain_eq {s t : State} (h : s.PlainInRange) (hcfg : t.cfg = s.cfg)
    (hplain : t.plain = s.plain) : t.PlainInRange := by
  unfold State.PlainInRange at h ⊢
  rwa [hcfg, hplain]

theorem plainInRange_regSet {s : State} (h : s.PlainInRange) {id raw : Nat} {d : RegDesc}
    (hd : s.cfg.regmap[id]? = some d) (hraw : raw ≤ rawMax d) : (regSet d id raw s).PlainInRange := by
  unfold regSet
  split
  case h_1 => exact plainInRange_of_plain_eq h (setMaskRegister_cfg s _) (setMaskRegister_plain s _)
  case h_2 => exact plainInRange_of_plain_eq h (fltReset_cfg s) (fltReset_plain s)
  case h_7 hb =>
    refine plainInRange_setPlain h hd hb ?_
    rw [BitVec.toNat_ofNat]
    exact (Nat.mod_le _ _).trans hraw
  all_goals exact h

theorem exec_plainInRange {i : Instr} {s t : State} (hcfg : s.cfg.WellFormed) (h : s.PlainInRange)
    (hexec : exec i s = .next t) : t.PlainInRange := by
  cases i <;> cases hexec
  case regWrite id raw =>
    rcases regWrite_cases id.toNat raw s with ⟨status, hwrite⟩ | ⟨d, hd, -, hwrite⟩
    · rw [hwrite]
      exact h
    · obtain ⟨-, -, -, -, -, -, -, -, ⟨-, hregs⟩, -⟩ := hcfg
      obtain ⟨hsize, -⟩ := hregs d (List.mem_of_getElem? hd)
      rw [hwrite]
      exact plainInRange_regSet h hd (writtenRaw_le_rawMax hsize raw)
  all_goals exact plainInRange_of_plain_eq h (by simp) (by simp)

/-! ### One step -/

/-- A command of the block keeps every part. -/
theorem exec_wellFormed {i : Instr} {s t : State} (hi : i.WellFormed s.cfg) (hexec : exec i s = .next t)
    (h : s.WellFormed) : t.WellFormed := by
  obtain ⟨hcfg, hmot, hpid, hpos, henc, hadc, hplain⟩ := s.wellFormed_iff.1 h
  rw [State.wellFormed_iff, exec_cfg hexec, exec_pos_length hexec]
  exact ⟨hcfg, exec_motInRange hmot hi hexec, exec_pidInRange hpid hi hexec, hpos, exec_encInRange henc hi hexec,
    exec_adc_inRange hadc hexec, exec_plainInRange hcfg hplain hexec⟩

/-- Settles O50: a command that decodes is one of the block, and each command of the block keeps every part. -/
theorem stepKeepsWellFormed : Obligations.StepKeepsWellFormed := by
  unfold Obligations.StepKeepsWellFormed
  intro s t hs hstep
  exact step_keeps (P := State.WellFormed) (fun _ _ h => h) (fun _ _ h => h)
    (fun i s t cmd hdecode hexec => exec_wellFormed (wellFormed_of_decode hdecode) hexec) hstep hs

/-! ### Reset, 70_reset R280 -/

theorem wellFormed_resetOf {cfg : Config} (hcfg : cfg.WellFormed) : (State.resetOf cfg).WellFormed := by
  rw [State.wellFormed_iff]
  refine ⟨hcfg, ⟨List.length_map _, fun c _ => ?_⟩, ⟨List.length_map _, fun c hc => ?_⟩, List.length_map _,
    ⟨List.length_map _, fun c _ => ?_⟩, ⟨?_, Nat.zero_le _⟩, rfl, fun e he => nomatch he⟩
  · rw [motAt_resetOf]
    exact ⟨Nat.zero_le _, Nat.zero_le _, Nat.zero_le _⟩
  · rw [pidAt_resetOf (cfg := cfg) hc]
    exact Nat.two_pow_pos _
  · rw [encAt_resetOf]
    exact ⟨Nat.two_pow_pos _, Nat.two_pow_pos _, Nat.two_pow_pos _, Nat.two_pow_pos _⟩
  · exact (Nat.eq_zero_or_pos cfg.adcTable.length).symm.imp_right fun hempty => ⟨hempty, rfl⟩

theorem linesMatch_reset (maxDuty : Nat) : MotBank.reset.LinesMatch maxDuty :=
  ⟨rfl, fun _ => rfl, fun h => nomatch h⟩

theorem controlMatches_reset (maxDuty : Nat) : MotBank.reset.ControlMatches maxDuty := by
  simp [MotBank.ControlMatches, MotBank.reset]

/-- Settles O16: every channel is in STOP with control 0, and every integral is 0. -/
theorem resetMeetsTheInvariants : Obligations.ResetMeetsTheInvariants := by
  unfold Obligations.ResetMeetsTheInvariants
  intro cfg hcfg
  refine ⟨wellFormed_resetOf hcfg, fun c _ => ?_, fun _ c _ => ?_, antiWindup_resetOf hcfg, fun c _ => ?_⟩
  · rw [motAt_resetOf]
    exact linesMatch_reset _
  · rw [motAt_resetOf]
    exact .inl rfl
  · rw [motAt_resetOf]
    exact controlMatches_reset _

end Sys2Proof.Machine
end

