-- ==== Sys2Proof/Proofs/PidCommands.lean ====
section
/-! The setpoint and the parameters of a PID bank, and what a tick leaves in one (43_pid). -/

namespace Sys2Proof.Machine

open Sys2Proof

/-! ### The setters, 43_pid R180 and R181 -/

/-- Settles O30: one PID bank is written. -/
theorem pidSetreqWritesTheSetpoint : Obligations.PidSetreqWritesTheSetpoint := by
  unfold Obligations.PidSetreqWritesTheSetpoint
  intro s c v hc
  exact ⟨headerOf_eq .pidSetreq c, _, exec_pidSetreq s c v, setPid_spec _ hc⟩

/-- Settles O31: one PID bank is written, its integral clamped to the operand. -/
theorem pidSetparamsWritesAndReclamps : Obligations.PidSetparamsWritesAndReclamps := by
  unfold Obligations.PidSetparamsWritesAndReclamps
  intro s c pGain iGain dGain iCap decay deadZone hc
  exact ⟨headerOf_eq .pidSetparams c, _, exec_pidSetparams s c pGain iGain dGain iCap decay deadZone,
    setPid_spec _ hc⟩

/-! ### A correcting tick while a fault is latched, 43_pid R189 and 60_exceptions R257 -/

/-- With a fault latched STALL_CHECK can write its channel's stall count and nothing else. -/
theorem stallCheck_of_active {s : State} (h : s.flt.active = true) (c : Nat) (speed : Number) :
    ∃ n, stallCheck c speed s = setMot s c { motAt s c with stallCnt := n } := by
  rcases stallCheck_cases c speed s with hsame | ⟨n, -, hset⟩ | ⟨-, -, -, hraise⟩
  · exact ⟨(motAt s c).stallCnt, hsame.trans (setMot_motAt s c).symm⟩
  · exact ⟨n, hset⟩
  · exact ⟨0, hraise.trans (fltRaise_of_active _ _ h)⟩

/-- The estimator's bank with the setpoint snapped to the measured value. -/
def snappedBank (s : State) (c now : Nat) : PidBank :=
  { estimatedBank s c now with required := stored s (measured c s) }

/-- With a fault latched a correcting tick writes its PID bank and at most its stall count. -/
theorem pidTick_of_active {s : State} {c now : Nat} (hc : c < s.pid.length) (hnow : (pidAt s c).prevTime ≤ now)
    (h : s.flt.active = true) :
    ∃ n, pidTick c now s = setPid (setMot s c { motAt s c with stallCnt := n }) c (snappedBank s c now) := by
  obtain ⟨n, hcheck⟩ := stallCheck_of_active (s := pidEstimate c now s) h c |measured c s - (pidAt s c).prevActual|
  have hchecked : checkedState s c now = setMot (pidEstimate c now s) c { motAt s c with stallCnt := n } := hcheck
  refine ⟨n, ?_⟩
  rw [pidTick_of_le hnow, hchecked]
  refine (pidDrive_of_active (s := setMot (pidEstimate c now s) c _) c _ _ h).trans ?_
  rw [pidAt_setMot, pidEstimate_eq, pidAt_setPid_same s c _ hc]
  simp [setPid, setMot, snappedBank, stored]

/-- Settles O34: the two banks that such a tick writes. -/
theorem pidTickHoldsTheDriveWhileFaulted : Obligations.PidTickHoldsTheDriveWhileFaulted := by
  unfold Obligations.PidTickHoldsTheDriveWhileFaulted
  intro s c now hc hnow hactive
  obtain ⟨n, htick⟩ := pidTick_of_active hc hnow hactive
  refine ⟨_, exec_pidTick s c now, ?_⟩
  rw [htick]
  obtain ⟨hbank, hother, -, -⟩ :=
    setPid_spec (s := setMot s c { motAt s c with stallCnt := n }) (snappedBank s c now) hc
  refine ⟨hbank, hother, fun x => ?_, fun x hx => ?_, rfl⟩
  · rw [motAt_setPid]
    rcases motAt_setMot_cases s c x { motAt s c with stallCnt := n } with ⟨hwritten, rfl⟩ | hkept
    · rw [hwritten]
    · rw [hkept]
  · rw [motAt_setPid, motAt_setMot_other s c x _ hx]

/-! ### The derivative, 43_pid R187 -/

theorem pidAt_of_pid_eq {s t : State} (h : t.pid = s.pid) (d : Nat) : pidAt t d = pidAt s d := by rw [pidAt, h, pidAt]

/-- What a tick leaves in its bank for the derivative and the measurement: neither reads the setpoint. -/
theorem pidAt_pidTick {s : State} {c : Nat} (now : Nat) (hc : c < s.pid.length) :
    (pidAt (pidTick c now s) c).derivative =
      (if now < (pidAt s c).prevTime then (pidAt s c).derivative
        else stored s (pidDerivative (pidAt s c) (measured c s))) ∧
    (pidAt (pidTick c now s) c).actual = stored s (measured c s) := by
  rcases Nat.lt_or_ge now (pidAt s c).prevTime with hback | hforth
  · rw [pidTick_of_lt hback, if_pos hback, pidBackwards, pidAt_setPid_same s c _ hc]
    exact ⟨rfl, rfl⟩
  · have hchecked : pidAt (checkedState s c now) c = estimatedBank s c now := by
      rw [pidAt, checkedState_pid]
      exact getD_set_same _ _ _ _ hc
    have hlength : c < (checkedState s c now).pid.length := by simpa using hc
    rw [pidTick_of_le hforth, if_neg hforth.not_gt]
    cases hactive : (checkedState s c now).flt.active with
    | true =>
      rw [pidDrive_of_active _ _ _ hactive, pidAt_setPid_same _ c _ hlength, hchecked]
      exact ⟨rfl, rfl⟩
    | false =>
      rw [pidDrive_of_inactive _ _ _ hactive, pidAt_of_pid_eq (motSetspeed_pid _ c _), hchecked]
      exact ⟨rfl, rfl⟩

/-- Settles O35: the two states agree in all that the derivative and the measurement read. -/
theorem setpointDoesNotKickTheDerivative : Obligations.SetpointDoesNotKickTheDerivative := by
  unfold Obligations.SetpointDoesNotKickTheDerivative
  intro s t t' c now v hc ht ht'
  rw [exec_pidTick] at ht ht'
  cases ht
  cases ht'
  obtain ⟨hderivative, hactual⟩ := pidAt_pidTick now hc
  obtain ⟨hderivative', hactual'⟩ :=
    pidAt_pidTick (s := setPid s c { pidAt s c with required := v }) now (by simpa using hc)
  rw [pidAt_setPid_same s c _ hc] at hderivative'
  exact ⟨hderivative'.trans hderivative.symm, hactual'.trans hactual.symm⟩

end Sys2Proof.Machine
end

