-- ==== Sys2Proof/Proofs/Calibration.lean ====
section
/-! The calibration points of a potentiometer (44_variants R200). -/

namespace Sys2Proof.Machine

open Sys2Proof

theorem potRemap_calMin (k : ChanCfg) : potRemap k k.calMin = k.engMin := by simp [potRemap]

theorem potRemap_calMax {k : ChanCfg} (h : k.calMin ≠ k.calMax) : potRemap k k.calMax = k.engMax := by
  have hspan : (k.calMax : Number) - k.calMin ≠ 0 := sub_ne_zero.2 (Nat.cast_injective.ne h.symm)
  rw [potRemap, mul_div_cancel_left₀ _ hspan, add_sub_cancel]

/-- Settles O38, from the remap at the two points. -/
theorem potentiometerMeetsItsCalibration : Obligations.PotentiometerMeetsItsCalibration := by
  unfold Obligations.PotentiometerMeetsItsCalibration
  intro s t t' c hc hfmt hne ht ht'
  rw [exec_posSample] at ht ht'
  cases ht
  cases ht'
  rw [posAt_posSample_same _ hc, posAt_posSample_same _ hc]
  simp only [stored_of_identity s _ hfmt, potRemap_calMin, potRemap_calMax hne, and_self]

end Sys2Proof.Machine
end

