-- ==== Sys2Proof/Proofs/RegisterWrites.lean ====
section
/-! What a register write does, binding by binding, and its trigger bindings (40_regport R116, R118 and R121,
20_memory R69). -/

namespace Sys2Proof.Machine

open Sys2Proof

/-! ### The three answers of a write, 40_regport R116 and R118 -/

section
variable {s : State} {id : Nat}

theorem regWrite_of_not_mem (h : s.cfg.regmap[id]? = none) (raw : Word16) :
    regWrite id raw s = respond s (.regWrite 1) := by
  simp [regWrite, checkAndLoadRegister, h, accessCode]

variable {d : RegDesc} (hd : s.cfg.regmap[id]? = some d)
include hd

theorem regWrite_of_readOnly (hw : d.writable = false) (raw : Word16) :
    regWrite id raw s = respond s (.regWrite 2) := by
  simp [regWrite, checkAndLoadRegister, hd, hw, accessCode]

theorem regWrite_of_writable (hw : d.writable = true) (raw : Word16) :
    regWrite id raw s = respond (regSet d id (writtenRaw d raw) s) (.regWrite 0) := by
  simp [regWrite, checkAndLoadRegister, hd, hw]

end

/-- The raw value a write moves, as a number (R118). -/
theorem writtenRaw_eq (d : RegDesc) (raw : Word16) :
    writtenRaw d raw = if d.size = 1 then raw.toNat % 256 else raw.toNat := by
  rw [writtenRaw, lowByte_toNat]

/-! ### The setters, 40_regport R121 -/

/-- One parameter replaced, field by field. -/
theorem withParam_eq (q : PidParams) (k : PidParamName) (v : Number) :
    withParam q k v =
      ⟨if k = .pGain then v else q.pGain, if k = .iGain then v else q.iGain, if k = .dGain then v else q.dGain,
        if k = .iCap then v else q.iCap, if k = .decay then v else q.decay,
        if k = .deadZone then v else q.deadZone⟩ := by
  cases k <;> rfl

theorem setMaskRegister_of_lt {raw : Nat} (h : raw < 256) (s : State) :
    setMaskRegister raw s = fltSetmask (BitVec.ofNat 8 raw) s := if_pos h

theorem setMaskRegister_of_ge {raw : Nat} (h : 256 ≤ raw) (s : State) :
    setMaskRegister raw s = { fltSetmask (Config.freeMask s.freeDraws) s with freeDraws := s.freeDraws + 1 } :=
  if_neg h.not_gt

/-- Settles O46: the answer of the access check, and the setter of each writable binding. -/
theorem regWriteSetsTheBinding : Obligations.RegWriteSetsTheBinding := by
  unfold Obligations.RegWriteSetsTheBinding
  intro s id raw
  refine ⟨headerOf_eq .regWrite 0, regWrite id.toNat raw s, ?_⟩
  cases hd : s.cfg.regmap[id.toNat]? with
  | none =>
    refine ⟨1, exec_regWrite s id raw, fun _ => ⟨rfl, ?_⟩, s, ?_⟩ <;> rw [regWrite_of_not_mem hd]
    · rfl
    · exact ⟨rfl, rfl, by simp⟩
  | some d =>
    have hin : id.toNat < s.cfg.regmap.length := (List.getElem?_eq_some_iff.1 hd).1
    cases hw : d.writable with
    | false =>
      refine ⟨2, exec_regWrite s id raw, fun hout => absurd hin (Nat.not_lt.2 hout), s, ?_⟩
      rw [regWrite_of_readOnly hd hw]
      refine ⟨rfl, rfl, ?_⟩
      rintro _ ⟨rfl⟩
      exact ⟨fun _ => ⟨rfl, rfl⟩, fun hwritable => absurd hwritable (by simp [hw])⟩
    | true =>
      refine ⟨0, exec_regWrite s id raw, fun hout => absurd hin (Nat.not_lt.2 hout),
        regSet d id.toNat (writtenRaw d raw) s, ?_⟩
      rw [regWrite_of_writable hd hw]
      refine ⟨rfl, by rw [respond_responses, regSet_responses], ?_⟩
      rintro _ ⟨rfl⟩
      refine ⟨fun hreadOnly => absurd hreadOnly (by simp [hw]), fun _ => ⟨rfl, ?_⟩⟩
      rw [writtenRaw_eq]
      intro r v
      refine ⟨fun hb hr => ?_, fun hb => ?_, fun c hb => ?_, fun c k hb => ?_, fun c hb => ?_, fun c hb => ?_,
        fun hb hwf => ?_⟩
      · -- FaultMask
        simp only [regSet, hb]
        rw [setMaskRegister_of_lt hr, exec_fltSetmask]
      · -- FaultResetTrigger
        simp only [regSet, hb]
        exact exec_fltReset s
      · -- PidRequired
        simp only [regSet, hb]
        exact exec_pidSetreq s c v
      · -- PidParam
        simp only [regSet, hb, withParam_eq]
        exact exec_pidSetparams s c _ _ _ _ _ _
      · -- StallEnable
        simp only [regSet, hb, Nat.testBit_zero]
        exact exec_motSetstallen s c _
      · -- EncOdometry
        simp only [regSet, hb]
        exact exec_encOdoreset s c
      · -- Plain
        simp only [regSet, hb, setPlain_plain]
        exact ⟨Memory.read_write_same _ _ hwf, fun other hne => Memory.read_write_other _ _ _ _ hne, rfl⟩

/-- Settles O47: the mask setter draws a free value for a raw value that does not fit a byte. -/
theorem wideMaskWriteIsFree : Obligations.WideMaskWriteIsFree := by
  unfold Obligations.WideMaskWriteIsFree
  intro s id raw d hd hw hb hs hwide
  have hset : regSet d id.toNat (writtenRaw d raw) s =
      { fltSetmask (Config.freeMask s.freeDraws) s with freeDraws := s.freeDraws + 1 } := by
    simp only [regSet, hb]
    rw [writtenRaw_of_fits (.inl hs), setMaskRegister_of_ge hwide]
  refine ⟨_, Config.freeMask s.freeDraws, exec_regWrite s id raw, ?_⟩
  rw [regWrite_of_writable hd hw, hset]
  exact ⟨rfl, rfl, rfl⟩

/-! ### Trigger bindings, 20_memory R69 -/

/-- Two states with the same motor banks hold the same list of them. -/
theorem ch_eq_of_motAt {s t : State} (hlen : t.ch.length = s.ch.length) (h : ∀ c, motAt t c = motAt s c) :
    t.ch = s.ch :=
  List.ext_getElem hlen fun c ht hs => by
    rw [← List.getD_eq_getElem t.ch MotBank.reset ht, ← List.getD_eq_getElem s.ch MotBank.reset hs]
    exact h c

/-- Fault return does nothing where no fault is latched and no channel has counted. -/
theorem fltReset_of_cleared {s : State} (h : s.flt.active = false)
    (hcnt : ∀ c, c < s.cfg.nch → c < s.ch.length → (motAt s c).stallCnt = 0) : fltReset s = s := by
  obtain ⟨hframe, hlength, hcleared, hout, hbig⟩ := fltReset_spec s
  have hflt : { s.flt with active := false } = s.flt := by rw [← h]
  have hch : (fltReset s).ch = s.ch := ch_eq_of_motAt hlength fun c => by
    rcases Nat.lt_or_ge c s.cfg.nch with hc | hc
    · rcases Nat.lt_or_ge c s.ch.length with hl | hl
      · rw [hcleared c hc hl, ← hcnt c hc hl]
      · exact hbig c hl
    · exact hout c hc
  rw [hframe, hflt, hch]

/-- Fault return leaves no channel counted. -/
theorem fltReset_stallCnt {s : State} {c : Nat} (hc : c < s.cfg.nch) (hl : c < s.ch.length) :
    (motAt (fltReset s) c).stallCnt = 0 := by
  obtain ⟨-, -, hcleared, -⟩ := fltReset_spec s
  rw [hcleared c hc hl]

theorem setEnc_encAt (s : State) (c : Nat) : setEnc s c (encAt s c) = s :=
  congrArg (fun l => { s with enc := l }) (set_getD_self s.enc c EncBank.reset)

/-- ENC_ODORESET does nothing where the odometry is 0. -/
theorem encOdoreset_of_cleared {s : State} {c : Nat} (h : (encAt s c).odometry = 0) : encOdoreset c s = s := by
  rw [encOdoreset, ← h]
  exact setEnc_encAt s c

theorem encOdoreset_odometry (c : Nat) (s : State) : (encAt (encOdoreset c s) c).odometry = 0 := by
  rcases Nat.lt_or_ge c s.enc.length with hc | hc
  · rw [encOdoreset, encAt_setEnc_same s c _ hc]
  · have hlength : (encOdoreset c s).enc.length ≤ c := List.length_set.trans_le hc
    rw [encAt, List.getD_eq_default _ _ hlength]
    rfl

/-- The setter of a trigger binding does nothing after itself, whatever was answered in between. -/
theorem regSet_trigger_idem {d : RegDesc} (hb : d.binding = .faultResetTrigger ∨ ∃ c, d.binding = .encOdometry c)
    (id raw raw' : Nat) (s : State) (x : Response) :
    regSet d id raw' (respond (regSet d id raw s) x) = respond (regSet d id raw s) x := by
  rcases hb with hb | ⟨c, hb⟩ <;> simp only [regSet, hb]
  · refine fltReset_of_cleared (by rw [respond_flt, fltReset_flt]) fun c hc hl => ?_
    obtain ⟨-, hlength, -⟩ := fltReset_spec s
    exact fltReset_stallCnt (by simpa using hc) (hlength ▸ hl)
  · exact encOdoreset_of_cleared (encOdoreset_odometry c s)

/-- Settles O49: a write that is not performed only answers, and a trigger's setter does nothing after itself. -/
theorem triggerWritesAreIdempotent : Obligations.TriggerWritesAreIdempotent := by
  unfold Obligations.TriggerWritesAreIdempotent
  intro s t u id raw raw' d hd hb ht hu
  rw [exec_regWrite] at ht hu
  cases ht
  cases hu
  have hd' : (regWrite id.toNat raw s).cfg.regmap[id.toNat]? = some d := by rwa [regWrite_cfg]
  cases hw : d.writable with
  | false =>
    rw [regWrite_of_readOnly hd' hw]
    rfl
  | true =>
    rw [regWrite_of_writable hd' hw, regWrite_of_writable hd hw, regSet_trigger_idem hb]
    rfl

end Sys2Proof.Machine
end

