-- ==== Sys2Proof/Proofs/Isolation.lean ====
section
/-! A channel command and the other channels (10_state sections 3 to 5). -/

namespace Sys2Proof.Machine

open Sys2Proof

/-- What `t` keeps of channel `d`: its PID, position and encoder banks, and its motor bank when no fault was latched. -/
def ChannelKept (s t : State) (d : Nat) : Prop :=
  pidAt t d = pidAt s d ∧ posAt t d = posAt s d ∧ encAt t d = encAt s d ∧
    (t.flt.active = s.flt.active → motAt t d = motAt s d)

theorem channelKept_of_banks_eq {s t : State} (d : Nat) (hpid : t.pid = s.pid) (hpos : t.pos = s.pos)
    (henc : t.enc = s.enc) (hmot : t.flt.active = s.flt.active → motAt t d = motAt s d) : ChannelKept s t d :=
  ⟨pidAt_of_pid_eq hpid d, by rw [posAt, hpos, posAt], encAt_of_enc_eq henc d, hmot⟩

/-- Fault entry leaves a bank alone unless it latches. -/
theorem fltRaise_motAt_of_active_eq {o : Origin} {ty : FaultType} {s : State}
    (h : (fltRaise o ty s).flt.active = s.flt.active) (d : Nat) : motAt (fltRaise o ty s) d = motAt s d := by
  rcases fltRaise_motAt o ty s d with hkept | ⟨hbefore, hafter, -⟩
  · exact hkept
  · rw [hbefore, hafter] at h
    cases h

section
variable {s : State} {c d : Nat} (hd : d ≠ c)
include hd

theorem motSetspeed_motAt_other (v : Number) : motAt (motSetspeed c v s) d = motAt s d := by
  rcases motSetspeed_motAt c v s d with hkept | ⟨-, hsame, -⟩
  · exact hkept
  · exact absurd hsame hd

theorem motSetcurrent_motAt_other {raw : Nat} (h : (motSetcurrent c raw s).flt.active = s.flt.active) :
    motAt (motSetcurrent c raw s) d = motAt s d := by
  rcases Nat.lt_or_ge (chanCfg s.cfg c).ocThreshold raw with hraw | hraw
  · rw [motSetcurrent_of_lt hraw] at h ⊢
    rw [fltRaise_motAt_of_active_eq (s := setMot s c _) h, motAt_setMot_other s c d _ hd]
  · rw [motSetcurrent_of_le hraw, motAt_setMot_other s c d _ hd]

theorem stallCheck_motAt_other {speed : Number} (h : (stallCheck c speed s).flt.active = s.flt.active) :
    motAt (stallCheck c speed s) d = motAt s d := by
  rcases stallCheck_cases c speed s with hsame | ⟨n, -, hset⟩ | ⟨-, -, -, hraise⟩
  · rw [hsame]
  · rw [hset, motAt_setMot_other s c d _ hd]
  · rw [hraise] at h ⊢
    rw [fltRaise_motAt_of_active_eq (s := setMot s c _) h, motAt_setMot_other s c d _ hd]

theorem pidDrive_motAt_other (a out : Number) : motAt (pidDrive c a out s) d = motAt s d := by
  cases hactive : s.flt.active with
  | true => rw [pidDrive_of_active c a out hactive, motAt_setPid]
  | false => rw [pidDrive_of_inactive c a out hactive, motSetspeed_motAt_other hd]

theorem pidDrive_pidAt_other (a out : Number) : pidAt (pidDrive c a out s) d = pidAt s d := by
  cases hactive : s.flt.active with
  | true => rw [pidDrive_of_active c a out hactive, pidAt_setPid_other s c d _ hd]
  | false => rw [pidDrive_of_inactive c a out hactive, pidAt_of_pid_eq (motSetspeed_pid s c out)]

theorem pidTick_pidAt_other (now : Nat) : pidAt (pidTick c now s) d = pidAt s d := by
  rcases Nat.lt_or_ge now (pidAt s c).prevTime with hnow | hnow
  · rw [pidTick_of_lt hnow]
    exact pidAt_setPid_other s c d _ hd
  · rw [pidTick_of_le hnow, pidDrive_pidAt_other hd, pidAt, checkedState_pid]
    exact getD_set_other _ _ _ _ _ hd

theorem pidTick_motAt_other {now : Nat} (h : (pidTick c now s).flt.active = s.flt.active) :
    motAt (pidTick c now s) d = motAt s d := by
  rcases Nat.lt_or_ge now (pidAt s c).prevTime with hnow | hnow
  · rw [pidTick_of_lt hnow]
    rfl
  · rw [pidTick_of_le hnow, pidDrive_flt] at h
    rw [pidTick_of_le hnow, pidDrive_motAt_other hd]
    exact stallCheck_motAt_other (s := pidEstimate c now s) hd h

end

/-- Settles O54: each channel command writes banks of its own channel, or enters a fault. -/
theorem channelsAreIsolated : Obligations.ChannelsAreIsolated := by
  unfold Obligations.ChannelsAreIsolated
  intro i s t d hformat hexec hd
  show ChannelKept s t d
  cases i <;> cases hexec
  case fltRaise | fltReset | fltSetmask | fltRdmask | fltRdstatus | fltRddata | adcPoll | regRead | regWrite =>
    -- the global commands
    cases hformat
  case motSetspeed c v =>
    exact channelKept_of_banks_eq d (motSetspeed_pid s c v) (motSetspeed_pos s c v) (motSetspeed_enc s c v)
      fun _ => motSetspeed_motAt_other hd v
  case motSetcurrent c raw =>
    exact channelKept_of_banks_eq d (motSetcurrent_pid s c raw) (motSetcurrent_pos s c raw) (motSetcurrent_enc s c raw)
      fun h => motSetcurrent_motAt_other hd h
  case motSetstallen c en => exact channelKept_of_banks_eq d rfl rfl rfl fun _ => motAt_setMot_other s c d _ hd
  case pidTick c now =>
    exact ⟨pidTick_pidAt_other hd now, by simp [posAt], by simp [encAt], pidTick_motAt_other hd⟩
  case pidSetreq c v => exact ⟨pidAt_setPid_other s c d _ hd, rfl, rfl, fun _ => rfl⟩
  case pidSetparams c _ _ _ _ _ _ => exact ⟨pidAt_setPid_other s c d _ hd, rfl, rfl, fun _ => rfl⟩
  case posSample c raw => exact ⟨rfl, posAt_setPos_other s c d _ hd, rfl, fun _ => rfl⟩
  case encEdge c level => exact ⟨rfl, rfl, encAt_setEnc_other s c d _ hd, fun _ => rfl⟩
  case encPoll c now =>
    obtain ⟨hother, -, -⟩ := onlyEncBank_encPoll c now s
    exact ⟨by simp [pidAt], by simp [posAt], hother d hd, fun _ => by simp [motAt]⟩
  case encOdoreset c => exact ⟨rfl, rfl, encAt_setEnc_other s c d _ hd, fun _ => rfl⟩
  case motRdstate | pidRdsnap | encRdfreq => exact ⟨rfl, rfl, rfl, fun _ => rfl⟩

end Sys2Proof.Machine
end
